-- ==== Sys2Proof/Word.lean ====
section
/-! DEFINITION. The word types of the GRA LZW engine: the widths that 00_scope R12 and 10_state give.
Arithmetic of the spec is on unsigned naturals and exact (00_scope R15); a register holds its value
in the width 10_state gives it (D4). -/

namespace Sys2Proof

/-- One byte of SRC, DST or the stack (20_memory R60, R61). -/
abbrev Byte := BitVec 8

/-- A container size or a 32-bit register (00_scope R12). -/
abbrev Word32 := BitVec 32

/-- A code: a literal or a table slot, 12 bits (00_scope R12, R19). -/
abbrev Code := BitVec 12

/-- A bit cursor into SRC or DST, 35 bits (10_state R42, R43, R47, R48). -/
abbrev BitCursor := BitVec 35

end Sys2Proof
end

