-- ==== Sys2Proof/Config.lean ====
section
/-! DEFINITION. What an implementation of the block fixes (00_scope R9, R13) and the values the spec
leaves open. The parameters are plain data that the state carries and no step changes; the free
values are opaque constants, so that no proof can know one. -/

namespace Sys2Proof.Config

/-- `DICT_CAPACITY` (00_scope R9): entries of the code table. -/
def dictCapacity : Nat := 4096

/-- `MAX_WIDTH` (00_scope R9): the largest code width. -/
def maxWidth : Nat := 12

/-- `HEADER_SIZE` (00_scope R9): bytes of the container header. -/
def headerSize : Nat := 17

/-- `STACK_CAPACITY` (00_scope R9): bytes of the decompressor's stack. -/
def stackCapacity : Nat := 4096

/-- `OR_HEADROOM` (00_scope R9): bytes OR_U32_AT may touch from its first byte. -/
def orHeadroom : Nat := 4

/-- How much of a command one step of the engine takes (00_scope R17, D5): one rule, or the whole
command. DESIGN CHOICE (log entry 6); safe: the spec allows either. -/
inductive Grain where
  /-- one rule of the spec is one step -/
  | rule
  /-- a whole host command is one step -/
  | command
  deriving DecidableEq, Repr

/-- The parameters the source leaves open (00_scope R13), and the grain of a step (R17). -/
structure Params where
  /-- `EXPANDED_SIZE_CEILING` (D14) -/
  expandedSizeCeiling : Nat
  /-- `MAX_SRC_LEN` (D15) -/
  maxSrcLen : Nat
  /-- `SRC_CAP`, the byte size of SRC memory (D16) -/
  srcCap : Nat
  /-- `DST_CAP`, the byte size of DST memory (D16) -/
  dstCap : Nat
  /-- the grain of a step (R17) -/
  grain : Grain
  deriving DecidableEq, Repr

/-- The spec's defaults (00_scope R13), with memories in which RESOURCE never occurs for a legal
length (60_exceptions R267). SRC_CAP and DST_CAP: DESIGN CHOICE (log entry 3); unsafe only for a
claim that rests on these two numbers. -/
def Params.default : Params :=
  { expandedSizeCeiling := 2 ^ 29
    maxSrcLen := 2 ^ 32 - 18
    srcCap := 2 ^ 32
    dstCap := 2 ^ 32 + 3
    grain := .command }

end Sys2Proof.Config

namespace Sys2Proof

/-- FREE VALUE (log entry 8): the `k`-th byte the spec leaves at any value (20_memory R79,
93_implementation_defined entries 3 and 4). Safe: nothing constrains it. -/
opaque Config.freeByte : Nat → Byte

/-- FREE VALUE (log entry 7): whether the host moves before the engine at the `k`-th moment at which
both could (70_reset_and_hazards R303, program P7). Safe: nothing constrains it. -/
opaque Config.hostFirst : Nat → Bool

end Sys2Proof
end

