-- ==== Sys2Proof/Syntax.lean ====
section
/-! DEFINITION. The operations of the opcode table (30_encoding R82, R83), one constructor for each of
its 33 rows, and the lines of a host program (30_encoding R100), which are not operations of the
engine but moves of the host. An operation has no operand field: all operands are implicit (R81). -/

namespace Sys2Proof

/-- The 33 operations of spec/opcode_table.json, in the table's order. -/
inductive Instr where
  /-- COMPRESS, 45_container R240 -/
  | compress
  /-- DECOMPRESS, 45_container R247 -/
  | decompress
  /-- GET_BIT, 41_bitfield R110 -/
  | getBit
  /-- SET_BIT, 41_bitfield R111 -/
  | setBit
  /-- EXTRACT_U32, 41_bitfield R112 -/
  | extractU32
  /-- OR_U32_AT, 41_bitfield R113 -/
  | orU32At
  /-- DICT_INIT, 42_dictionary R130 -/
  | dictInit
  /-- DICT_WIDTH, 42_dictionary R131 -/
  | dictWidth
  /-- DICT_LOOKUP, 42_dictionary R132 -/
  | dictLookup
  /-- DICT_ELIGIBLE, 42_dictionary R133 -/
  | dictEligible
  /-- DICT_NEXT_SLOT, 42_dictionary R134 -/
  | dictNextSlot
  /-- DICT_UNLINK, 42_dictionary R135 -/
  | dictUnlink
  /-- DICT_INSERT, 42_dictionary R136 -/
  | dictInsert
  /-- DICT_READ_WIDTH, 42_dictionary R139 -/
  | dictReadWidth
  /-- COMP_PRESCAN, 43_compressor R160 -/
  | compPrescan
  /-- COMP_START, 43_compressor R161 -/
  | compStart
  /-- COMP_STEP_FIRST, 43_compressor R162 -/
  | compStepFirst
  /-- COMP_STEP, 43_compressor R163 -/
  | compStep
  /-- COMP_EMIT, 43_compressor R164 -/
  | compEmit
  /-- COMP_FINISH, 43_compressor R165 -/
  | compFinish
  /-- DEC_START, 44_decompressor R190 -/
  | decStart
  /-- DEC_READ, 44_decompressor R191 -/
  | decRead
  /-- DEC_FIRST, 44_decompressor R192 -/
  | decFirst
  /-- DEC_CLASSIFY, 44_decompressor R193 -/
  | decClassify
  /-- DEC_EXPAND, 44_decompressor R194 -/
  | decExpand
  /-- DEC_INSERT, 44_decompressor R196 -/
  | decInsert
  /-- DEC_POP, 44_decompressor R197 -/
  | decPop
  /-- DEC_END, 44_decompressor R198 -/
  | decEnd
  /-- CONT_WRITE_HEADER, 45_container R230 -/
  | contWriteHeader
  /-- CONT_STORED, 45_container R231 -/
  | contStored
  /-- CONT_PARSE_HEADER, 45_container R232 -/
  | contParseHeader
  /-- CONT_VALIDATE, 45_container R233 -/
  | contValidate
  /-- CONT_STORED_COPY, 45_container R234 -/
  | contStoredCopy
  deriving DecidableEq, Repr

/-- A line of a host program (30_encoding R100), as its bus effect, and the single bus moves the
lines are made of (10_state section 2), with the reset input (70_reset_and_hazards R290, R305). -/
inductive HostLine where
  /-- `SRC a: b0 b1 ...` -/
  | src (a : Nat) (bytes : List Byte)
  /-- `LEN n`: write offset 0x8 -/
  | len (n : Word32)
  /-- `CMD v`: write offset 0x0 -/
  | cmd (v : Byte)
  /-- `WAIT`: read STATUS until DONE = 1 -/
  | wait
  /-- `COPYBACK` -/
  | copyback
  /-- `; text`: no bus effect -/
  | comment
  /-- a write of `v` to a register offset -/
  | write (off : Nat) (v : Word32)
  /-- a read of a register offset -/
  | read (off : Nat)
  /-- a read of one byte of DST -/
  | readDst (a : Nat)
  /-- the reset input -/
  | reset
  deriving DecidableEq, Repr

/-- `RUN name` expands to `CMD name` and `WAIT` (30_encoding R101). -/
def HostLine.run (op : Byte) : List HostLine := [.cmd op, .wait]

/-- `ROUNDTRIP` expands to `RUN COMPRESS`, `COPYBACK`, `RUN DECOMPRESS` (30_encoding R101). -/
def HostLine.roundtrip : List HostLine := HostLine.run 0x01 ++ [.copyback] ++ HostLine.run 0x02

end Sys2Proof
end

