-- ==== Sys2Proof/WellFormed.lean ====
section
/-! DEFINITION. Well-formedness. An operation has no operand (30_encoding R81), so every term of
`Instr` is well-formed. What can be ill-formed is a command word (R82, R84), a set of parameters
(00_scope R13) and a line of a host program against the memories it touches (20_memory R60, R61). -/

namespace Sys2Proof

/-- A CMD value that starts a command (30_encoding R82); every other value is illegal (R84). -/
def WellFormed.command (v : Byte) : Bool := v == 0x01 || v == 0x02

/-- The constraints 00_scope R13 puts on the parameters: SRC holds a header, and `len + 17` stays
inside 32 bits for every legal length. -/
def WellFormed.params (p : Config.Params) : Bool :=
  decide (17 ≤ p.srcCap) && decide (p.maxSrcLen ≤ 2 ^ 32 - 18)

/-- A host line touches only bytes that exist (20_memory R60, R61). COPYBACK's range is in
RESULT_LEN, so it is checked when it runs. -/
def WellFormed.line (p : Config.Params) : HostLine → Bool
  | .src a bytes => decide (a + bytes.length ≤ p.srcCap)
  | .readDst a => decide (a < p.dstCap)
  | .len _ => true
  | .cmd _ => true
  | .wait => true
  | .copyback => true
  | .comment => true
  | .write _ _ => true
  | .read _ => true
  | .reset => true

/-- A host program is well-formed when each of its lines is. -/
def WellFormed.program (p : Config.Params) (ls : List HostLine) : Bool := ls.all (WellFormed.line p)

end Sys2Proof
end

