-- ==== Sys2Proof/Decode.lean ====
section
/-! DEFINITION. Decoding and encoding of operation codes (30_encoding R81 to R84): one byte, whose
bits 7:0 are `op`. Decoding is total on any bytes and rejects by name; the encoder is written from
the same two tables (R82, R83). -/

namespace Sys2Proof

/-- What a decoder answers: an operation with the bytes after it, or a rejection by name. -/
inductive Decoded where
  /-- the operation and the bytes that follow it -/
  | instr (i : Instr) (rest : List Byte)
  /-- there is no byte to read -/
  | noBytes
  /-- the byte is no operation code of 30_encoding R82 or R83 -/
  | unassigned (op : Byte)
  deriving DecidableEq, Repr

/-- The operation a code names (30_encoding R82, R83). -/
def decodeOp (op : Byte) : Option Instr :=
  match op.toNat with
  | 0x01 => some .compress
  | 0x02 => some .decompress
  | 0x10 => some .getBit
  | 0x11 => some .setBit
  | 0x12 => some .extractU32
  | 0x13 => some .orU32At
  | 0x20 => some .dictInit
  | 0x21 => some .dictWidth
  | 0x22 => some .dictLookup
  | 0x23 => some .dictEligible
  | 0x24 => some .dictNextSlot
  | 0x25 => some .dictUnlink
  | 0x26 => some .dictInsert
  | 0x27 => some .dictReadWidth
  | 0x30 => some .compPrescan
  | 0x31 => some .compStart
  | 0x32 => some .compStepFirst
  | 0x33 => some .compStep
  | 0x34 => some .compEmit
  | 0x35 => some .compFinish
  | 0x40 => some .decStart
  | 0x41 => some .decRead
  | 0x42 => some .decFirst
  | 0x43 => some .decClassify
  | 0x44 => some .decExpand
  | 0x45 => some .decInsert
  | 0x46 => some .decPop
  | 0x47 => some .decEnd
  | 0x50 => some .contWriteHeader
  | 0x51 => some .contStored
  | 0x52 => some .contParseHeader
  | 0x53 => some .contValidate
  | 0x54 => some .contStoredCopy
  | _ => none

/-- Decode the first operation of a byte list. -/
def decode : List Byte → Decoded
  | [] => .noBytes
  | op :: rest =>
    match decodeOp op with
    | some i => .instr i rest
    | none => .unassigned op

/-- The code of an operation (30_encoding R82, R83). -/
def opcodeOf : Instr → Byte
  | .compress => 0x01
  | .decompress => 0x02
  | .getBit => 0x10
  | .setBit => 0x11
  | .extractU32 => 0x12
  | .orU32At => 0x13
  | .dictInit => 0x20
  | .dictWidth => 0x21
  | .dictLookup => 0x22
  | .dictEligible => 0x23
  | .dictNextSlot => 0x24
  | .dictUnlink => 0x25
  | .dictInsert => 0x26
  | .dictReadWidth => 0x27
  | .compPrescan => 0x30
  | .compStart => 0x31
  | .compStepFirst => 0x32
  | .compStep => 0x33
  | .compEmit => 0x34
  | .compFinish => 0x35
  | .decStart => 0x40
  | .decRead => 0x41
  | .decFirst => 0x42
  | .decClassify => 0x43
  | .decExpand => 0x44
  | .decInsert => 0x45
  | .decPop => 0x46
  | .decEnd => 0x47
  | .contWriteHeader => 0x50
  | .contStored => 0x51
  | .contParseHeader => 0x52
  | .contValidate => 0x53
  | .contStoredCopy => 0x54

/-- The words of an operation: its one byte. -/
def encode (i : Instr) : List Byte := [opcodeOf i]

/-- A CMD write starts a command exactly when its value is a host command's code (R82, R84). -/
def isHostCommand (v : Byte) : Bool :=
  match decodeOp v with
  | some .compress => true
  | some .decompress => true
  | _ => false

/-- The operation code held by the low `nbits` bits of `w`, laid out as the one byte it is; bits the
table does not give are 0. -/
def tableByte (nbits w : Nat) : Byte := BitVec.ofNat 8 (w % 2 ^ nbits)

/-- The operation the decoder reads from an instruction whose bits are `w`, numbered as the opcode
table numbers them. -/
def decodeTableWord (nbits w : Nat) : Option Instr :=
  match decode [tableByte nbits w] with
  | .instr i _ => some i
  | .noBytes => none
  | .unassigned _ => none

end Sys2Proof
end

