-- ==== Sys2Proof/Machine/State.lean ====
section
/-! DEFINITION. The state of the GRA LZW engine as plain data (10_state, 20_memory R60 to R62), its
value after reset (70_reset_and_hazards R290), and the reasons a step can stop. -/

namespace Sys2Proof.Machine

open Sys2Proof

/-- `SEQ`, the sequencer state (10_state R23). `ending` is the spec's END, which is never seen between
steps (45_container R236). -/
inductive Seq where
  | idle | cRun | cWrap | dCheck | dStored | dRun | ending
  deriving DecidableEq, Repr

/-- `comp_state` (10_state R39). -/
inductive CompState where
  | awaitFirstByte | accumulate | exhausted | failed
  deriving DecidableEq, Repr

/-- `dec_state` (10_state R44). -/
inductive DecState where
  | awaitFirstCode | emitFromStack | awaitNextCode | done | error
  deriving DecidableEq, Repr

/-- The result codes 0 to 4 (30_encoding R98). Codes 5 to 15 are never produced, so there is no
constructor for them (93_implementation_defined entry 12). -/
inductive ResultCode where
  | ok | malformed | framing | illegalCommand | resource
  deriving DecidableEq, Repr

/-- A buffer of the BitField unit (41_bitfield): SRC, DST or the accumulator. -/
inductive Buffer where
  | src | dst | acc
  deriving DecidableEq, Repr

/-- One of the two dictionary instances (10_state R27). -/
inductive DictSel where
  | dictC | dictD
  deriving DecidableEq, Repr

/-- What DEC_CLASSIFY finds (44_decompressor R193). -/
inductive CodeKind where
  | self | direct | undefined
  deriving DecidableEq, Repr

/-- One dictionary instance (10_state R28 to R37). The four arrays are kept as sorted lists of
(index, value) pairs that list no value equal to what an unlisted entry reads as (see `Table`). -/
structure Dict where
  /-- R28 -/
  minBits : BitVec 4
  /-- R29 -/
  codeWidth : BitVec 4
  /-- R30 -/
  ceiling : BitVec 13
  /-- R31 -/
  nextFree : BitVec 13
  /-- R32 -/
  full : Bool
  /-- R33 -/
  recycleCursor : Code
  /-- `prefix[s]`, R34 -/
  pfx : List (Nat × BitVec 16)
  /-- `trailing[s]`, R35 -/
  trailing : List (Nat × Byte)
  /-- `link[s]`, R36; NONE is `none` (D4) -/
  link : List (Nat × Option Code)
  /-- `head[p]`, R37; NONE is `none` (D4) -/
  head : List (Nat × Option Code)
  deriving DecidableEq, Repr

/-- The compressor's registers (10_state R39 to R43). -/
structure Comp where
  /-- R39 -/
  state : CompState
  /-- R40 -/
  basecode : Code
  /-- R40 -/
  basecodeValid : Bool
  /-- R41 -/
  srcIndex : Word32
  /-- R41: the working copy of SRC_LEN -/
  srcLen : Word32
  /-- R42 -/
  outBit : BitCursor
  /-- R43 -/
  capBits : BitCursor
  deriving DecidableEq, Repr

/-- The decompressor's registers (10_state R44 to R52). -/
structure Dec where
  /-- R44 -/
  state : DecState
  /-- R45 -/
  prevCode : Code
  /-- R45 -/
  prevValid : Bool
  /-- R46 -/
  firstByte : Byte
  /-- R47 -/
  inBit : BitCursor
  /-- R48 -/
  budgetBits : BitCursor
  /-- R49 -/
  outIndex : Word32
  /-- R50 -/
  expSize : Word32
  /-- R51 -/
  stack : List (Nat × Byte)
  /-- R51 -/
  sp : BitVec 13
  /-- R52 -/
  curCode : Code
  deriving DecidableEq, Repr

/-- The header working registers (10_state R53). -/
structure Header where
  /-- `hdr_cs` -/
  cs : Word32
  /-- `hdr_cs_hi` -/
  csHi : Word32
  /-- `hdr_es` -/
  es : Word32
  /-- `hdr_es_hi` -/
  esHi : Word32
  /-- `hdr_type` -/
  ctype : Byte
  deriving DecidableEq, Repr

/-- The operand and result latches of the internal operations: where an operation that runs under its
own code finds the operands that no register of 10_state holds, and where it leaves what it returns.
The MODEL's own state (log entry 4): 00_scope R18 gives each operation operands and 30_encoding R81
gives them no bits. -/
structure Ports where
  /-- the buffer `M` of a BitField operation -/
  buf : Buffer
  /-- the instance `D` of a Dictionary operation -/
  dict : DictSel
  /-- the bit index `n` or bit offset `o` of a BitField operation -/
  bitIndex : BitCursor
  /-- the bit count `n` of EXTRACT_U32 -/
  bitCount : Word32
  /-- the pattern `p` of OR_U32_AT -/
  pattern : Word32
  /-- `mb`: the operand of DICT_INIT and COMP_START, the result of COMP_PRESCAN -/
  minBits : BitVec 4
  /-- the operand `n` of DICT_WIDTH -/
  freeSlot : BitVec 13
  /-- the prefix `P` of a Dictionary operation -/
  pfx : Code
  /-- the slot `s` of DICT_ELIGIBLE and DICT_UNLINK -/
  slot : Code
  /-- the byte `B` of DICT_LOOKUP and DICT_INSERT -/
  byte : Byte
  /-- result: the bit of GET_BIT and SET_BIT, the answer of DICT_ELIGIBLE, OK or FAIL of COMP_EMIT -/
  bit : Bool
  /-- result: a code or NONE -/
  code : Option Code
  /-- result: a code width -/
  width : BitVec 4
  /-- result of DEC_CLASSIFY: the kind -/
  kind : CodeKind
  /-- result of DEC_CLASSIFY: the code `x` to expand -/
  xcode : Code
  /-- result: a result code (CONT_VALIDATE, DEC_END) -/
  result : ResultCode
  /-- result: a length (CONT_STORED, CONT_STORED_COPY) -/
  length : Word32
  deriving DecidableEq, Repr

/-- Why the engine is stuck (60_exceptions R278). -/
inductive Stuck where
  /-- an access to SRC, DST or the accumulator outside it (20_memory R71) -/
  | access
  /-- EXTRACT_U32 with a count above 32 (41_bitfield R112) -/
  | extractCount
  /-- OR_U32_AT without 4 bytes of room (41_bitfield R113) -/
  | orRoom
  deriving DecidableEq, Repr

/-- Everything the spec gives the machine, and the model's own fields at the end. -/
structure State where
  /-- the parameters (00_scope R13), which no step changes -/
  par : Config.Params
  /-- STATUS (10_state R21) -/
  status : Byte
  /-- RESULT_LEN (R22) -/
  resultLen : Word32
  /-- SEQ (R23) -/
  seq : Seq
  /-- CMD (R24) -/
  cmd : Byte
  /-- SRC_LEN (R25) -/
  srcLen : Word32
  /-- SRC memory (20_memory R60) -/
  src : List Host.Cell
  /-- DST memory (20_memory R61) -/
  dst : List Host.Cell
  /-- DICT_C (10_state R27) -/
  dictC : Dict
  /-- DICT_D (10_state R27) -/
  dictD : Dict
  /-- the compressor (R39 to R43) -/
  comp : Comp
  /-- the decompressor (R44 to R52) -/
  dec : Dec
  /-- the header registers (R53) -/
  hdr : Header
  /-- the BitField accumulator (41_bitfield R112) -/
  acc : Word32
  /-- whether the engine is stuck, and why (20_memory R71, 60_exceptions R278): a stuck engine takes no
  further step until reset -/
  stuck : Option Stuck
  /-- the MODEL's own: operand and result latches (log entry 4) -/
  ports : Ports
  /-- the MODEL's own: the operation code the engine runs next (log entry 15) -/
  op : Option Byte
  /-- the MODEL's own: the host's program lines still to run (log entry 16) -/
  host : List HostLine
  /-- the MODEL's own: what the host's last read returned (log entry 16) -/
  busData : Word32
  /-- the MODEL's own: moments at which both agents could move, so far (log entry 7) -/
  turn : Nat
  /-- the MODEL's own: free bytes drawn so far (log entry 8) -/
  free : Nat
  deriving DecidableEq, Repr

/-- Why the machine stops for good. A stuck engine is none of these: it is a state (`State.stuck`). -/
inductive Fault where
  /-- SET_BIT or OR_U32_AT with SRC, which the engine only reads (20_memory R60); safe: a stop where the
  spec gives no effect (log entry 22) -/
  | srcReadOnly
  /-- the host reads DST or writes SRC outside the memory; safe: the spec gives no such byte
  (log entry 12) -/
  | hostOutside
  /-- a host command's loop has run out of its bound; safe: the spec proves it never does
  (43_compressor R167, 44_decompressor R200; log entry 21) -/
  | loopBound
  /-- BUSY = 1 and no operation or command to run; safe: no run reaches it (log entry 15) -/
  | noCommand
  deriving DecidableEq, Repr

/-- Why the model gives a step no meaning. -/
inductive Refusal where
  /-- an instruction that has no meaning yet; safe. No arm of `exec` answers with it. -/
  | notModelled (mnemonic : String)
  /-- the host writes SRC or SRC_LEN, or reads DST or RESULT_LEN, while BUSY = 1; raised by the host's
  moves; safe: the spec's own treatment is 'refuse' (93_implementation_defined entry 5, log entry 9) -/
  | hostBusyDuty
  /-- the operation register holds no code of the opcode table; raised by the engine's fetch; safe: the
  sequencer never issues one (log entry 15) -/
  | illegalOperation (op : Byte)
  deriving DecidableEq, Repr

/-- What an unlisted byte of SRC or DST reads as. The spec gives none (70_reset_and_hazards R290):
DESIGN CHOICE (log entry 2), unsafe. -/
def Memory.unlisted : Byte := 0x00

/-- The canonical form of a list of (index, value) pairs: indexes strictly rising, and no value equal to
what an unlisted entry reads as. -/
def Table.wf {α : Type} [DecidableEq α] (d : α) : List (Nat × α) → Bool
  | [] => true
  | [c] => decide (c.2 ≠ d)
  | c :: c' :: rest => decide (c.2 ≠ d) && decide (c.1 < c'.1) && Table.wf d (c' :: rest)

/-- The canonical form of a memory. -/
def Memory.wf (m : List Host.Cell) : Bool := Table.wf Memory.unlisted m

/-- A dictionary at reset: the spec leaves every value open (R290); DESIGN CHOICE (log entry 1),
unsafe. -/
def Dict.reset : Dict :=
  { minBits := 0, codeWidth := 0, ceiling := 0, nextFree := 0, full := false, recycleCursor := 0
    pfx := [], trailing := [], link := [], head := [] }

/-- The compressor at reset: DESIGN CHOICE (log entry 1), unsafe. -/
def Comp.reset : Comp :=
  { state := .awaitFirstByte, basecode := 0, basecodeValid := false, srcIndex := 0, srcLen := 0
    outBit := 0, capBits := 0 }

/-- The decompressor at reset: DESIGN CHOICE (log entry 1), unsafe. -/
def Dec.reset : Dec :=
  { state := .awaitFirstCode, prevCode := 0, prevValid := false, firstByte := 0, inBit := 0
    budgetBits := 0, outIndex := 0, expSize := 0, stack := [], sp := 0, curCode := 0 }

/-- The header registers at reset: DESIGN CHOICE (log entry 1), unsafe. -/
def Header.reset : Header := { cs := 0, csHi := 0, es := 0, esHi := 0, ctype := 0 }

/-- The latches at reset: DESIGN CHOICE (log entry 4). -/
def Ports.reset : Ports :=
  { buf := .acc, dict := .dictC, bitIndex := 0, bitCount := 0, pattern := 0, minBits := 7
    freeSlot := 0, pfx := 0, slot := 0, byte := 0, bit := false, code := none, width := 0
    kind := .direct, xcode := 0, result := .ok, length := 0 }

/-- The machine right after reset (70_reset_and_hazards R290): STATUS, RESULT_LEN, CMD and SRC_LEN 0 and
SEQ IDLE, as the spec says, and an engine that is not stuck (60_exceptions R278); every other register at
the value log entries 1 to 4 name; no host line and
no operation pending. -/
def State.reset : State :=
  { par := Config.Params.default
    status := 0x00, resultLen := 0, seq := .idle, cmd := 0x00, srcLen := 0
    src := [], dst := []
    dictC := Dict.reset, dictD := Dict.reset
    comp := Comp.reset, dec := Dec.reset, hdr := Header.reset, acc := 0, stuck := none
    ports := Ports.reset, op := none, host := [], busData := 0, turn := 0, free := 0 }

end Sys2Proof.Machine
end

