-- ==== Sys2Proof/Machine/Flags.lean ====
section
/-! DEFINITION. The block has no condition codes (10_state R54). Its only status bits are those of
STATUS (R21): BUSY, DONE and RESULT. This file says how they are packed and read. -/

namespace Sys2Proof.Machine

open Sys2Proof

/-- The RESULT code of a result (30_encoding R98). -/
def resultBits : ResultCode → BitVec 4
  | .ok => 0
  | .malformed => 1
  | .framing => 2
  | .illegalCommand => 3
  | .resource => 4

/-- STATUS from its fields (10_state R21): RESULT in bits 7:4, bits 3:2 zero, DONE, BUSY. -/
def statusOf (busy done : Bool) (r : ResultCode) : Byte :=
  resultBits r ++ (0 : BitVec 2) ++ BitVec.ofBool done ++ BitVec.ofBool busy

/-- `STATUS.BUSY` (bit 0). -/
def statusBusy (v : Byte) : Bool := v.getLsbD 0

/-- `STATUS.DONE` (bit 1). -/
def statusDone (v : Byte) : Bool := v.getLsbD 1

/-- `STATUS.RESULT` (bits 7:4). -/
def statusResult (v : Byte) : BitVec 4 := v.extractLsb' 4 4

/-- The reserved bits 3:2 of STATUS. -/
def statusReserved (v : Byte) : BitVec 2 := v.extractLsb' 2 2

end Sys2Proof.Machine
end

