-- ==== Sys2Proof/Machine/Ops.lean ====
section
/-! DEFINITION. The named operations over tables, memories and registers, the end of a command
(45_container R236) with the raising of an error (60_exceptions R262), which is the block's whole
exception mechanism (R260), the acceptance of a command (45_container R235), and reset (R290). -/

namespace Sys2Proof.Machine

open Sys2Proof

/-! ### Plain arithmetic (00_scope R15) -/

/-- `bitlen(n)`: the smallest `w` with `n < 2^w`. -/
def bitlen (n : Nat) : Nat := if n = 0 then 0 else Nat.log2 n + 1

/-- `ceil_div(a, b)`. -/
def ceilDiv (a b : Nat) : Nat := (a + b - 1) / b

/-! ### Tables: sorted lists of (index, value) pairs -/

/-- The entry at an index; an unlisted one reads as `d`. -/
def Table.get {α : Type} (d : α) : List (Nat × α) → Nat → α
  | [], _ => d
  | (k, v) :: rest, i => if k = i then v else Table.get d rest i

/-- The list without any entry at an index. -/
def Table.erase {α : Type} : List (Nat × α) → Nat → List (Nat × α)
  | [], _ => []
  | (k, v) :: rest, i => if k = i then Table.erase rest i else (k, v) :: Table.erase rest i

/-- Put an entry before the first one with a larger index. -/
def Table.insert {α : Type} (i : Nat) (v : α) : List (Nat × α) → List (Nat × α)
  | [] => [(i, v)]
  | (k, w) :: rest => if i < k then (i, v) :: (k, w) :: rest else (k, w) :: Table.insert i v rest

/-- Write an entry; writing what an unlisted entry reads as removes it, so that the canonical form
stays. -/
def Table.put {α : Type} [DecidableEq α] (d : α) (m : List (Nat × α)) (i : Nat) (v : α) :
    List (Nat × α) :=
  if v = d then Table.erase m i else Table.insert i v (Table.erase m i)

/-- Read one byte of a memory. -/
def Memory.read (m : List Host.Cell) (a : Nat) : Byte := Table.get Memory.unlisted m a

/-- Write one byte of a memory. -/
def Memory.write (m : List Host.Cell) (a : Nat) (b : Byte) : List Host.Cell :=
  Table.put Memory.unlisted m a b

/-- Write the byte `b` to `count` addresses from `a` upward. -/
def Memory.fill (b : Byte) : Nat → Nat → List Host.Cell → List Host.Cell
  | 0, _, m => m
  | k + 1, a, m => Memory.fill b k (a + 1) (Memory.write m a b)

/-- Write a list of bytes from `a` upward. -/
def Memory.writeList : List Byte → Nat → List Host.Cell → List Host.Cell
  | [], _, m => m
  | b :: bs, a, m => Memory.writeList bs (a + 1) (Memory.write m a b)

/-- The `count` bytes from `a` upward. -/
def Memory.readList (m : List Host.Cell) : Nat → Nat → List Byte
  | 0, _ => []
  | k + 1, a => Memory.read m a :: Memory.readList m k (a + 1)

/-- Write free bytes to `count` addresses from `a` upward: the byte drawn `i`-th is free byte `i`
(log entry 8). -/
def Memory.writeFree : Nat → Nat → Nat → List Host.Cell → List Host.Cell
  | 0, _, _, m => m
  | k + 1, a, i, m => Memory.writeFree k (a + 1) (i + 1) (Memory.write m a (Config.freeByte i))

/-! ### Outcomes -/

/-- How an operation of the engine breaks off. -/
inductive Halt where
  /-- the engine is stuck, in this state: what the operation wrote before is written (log entry 10,
  DEDUCED from 20_memory R72); unsafe -/
  | stuck (s : State)
  /-- the model stops -/
  | fault (f : Fault)
  deriving DecidableEq, Repr

/-- What an operation of the engine gives: a value, or how it breaks off. -/
abbrev Res (α : Type) : Type := Except Halt α

/-- An operation's result as the outcome of a step. A stuck engine is a next state: the host goes on
(60_exceptions R278). -/
def toOutcome : Res State → Host.Outcome State Fault Refusal
  | .ok s => .next s
  | .error (.stuck s) => .next s
  | .error (.fault f) => .fault f

/-! ### Register updates: each writes one field and leaves the rest -/

/-- Write SEQ. -/
def State.setSeq (v : Seq) (s : State) : State := { s with seq := v }
/-- Write CMD. -/
def State.setCmd (v : Byte) (s : State) : State := { s with cmd := v }
/-- Write STATUS. -/
def State.setStatus (v : Byte) (s : State) : State := { s with status := v }
/-- Write RESULT_LEN. -/
def State.setResultLen (v : Word32) (s : State) : State := { s with resultLen := v }
/-- Write SRC_LEN. -/
def State.setSrcLen (v : Word32) (s : State) : State := { s with srcLen := v }
/-- Write SRC memory. -/
def State.setSrc (v : List Host.Cell) (s : State) : State := { s with src := v }
/-- Write DST memory. -/
def State.setDst (v : List Host.Cell) (s : State) : State := { s with dst := v }
/-- Write DICT_C. -/
def State.setDictC (v : Dict) (s : State) : State := { s with dictC := v }
/-- Write DICT_D. -/
def State.setDictD (v : Dict) (s : State) : State := { s with dictD := v }
/-- Write the compressor's registers. -/
def State.setComp (v : Comp) (s : State) : State := { s with comp := v }
/-- Write the decompressor's registers. -/
def State.setDec (v : Dec) (s : State) : State := { s with dec := v }
/-- Write the header registers. -/
def State.setHdr (v : Header) (s : State) : State := { s with hdr := v }
/-- Write the accumulator. -/
def State.setAcc (v : Word32) (s : State) : State := { s with acc := v }
/-- Write whether the engine is stuck. -/
def State.setStuck (v : Option Stuck) (s : State) : State := { s with stuck := v }
/-- Write the latches. -/
def State.setPorts (v : Ports) (s : State) : State := { s with ports := v }
/-- Write the operation register. -/
def State.setOp (v : Option Byte) (s : State) : State := { s with op := v }
/-- Write the host's pending lines. -/
def State.setHost (v : List HostLine) (s : State) : State := { s with host := v }
/-- Write the bus's read data. -/
def State.setBusData (v : Word32) (s : State) : State := { s with busData := v }
/-- Write the turn counter. -/
def State.setTurn (v : Nat) (s : State) : State := { s with turn := v }
/-- Write the free-byte counter. -/
def State.setFree (v : Nat) (s : State) : State := { s with free := v }

/-- The engine gets stuck in `s`. STATUS stays as it is, so BUSY stays 1 (20_memory R71). -/
def stuckAt (r : Stuck) (s : State) : Halt := .stuck (s.setStuck (some r))

/-- The dictionary instance `D` (10_state R27). -/
def State.dict (D : DictSel) (s : State) : Dict :=
  match D with
  | .dictC => s.dictC
  | .dictD => s.dictD

/-- Write the dictionary instance `D`. -/
def State.setDict (D : DictSel) (v : Dict) (s : State) : State :=
  match D with
  | .dictC => s.setDictC v
  | .dictD => s.setDictD v

/-- `STATUS.BUSY`. -/
def State.busy (s : State) : Bool := statusBusy s.status

/-- `STATUS.DONE`. -/
def State.done (s : State) : Bool := statusDone s.status

/-! ### The end of a command -/

/-- CMD_END(r, len) (45_container R236): RESULT_LEN, STATUS and SEQ in one step. SEQ is END during the
step and IDLE after it. -/
def cmdEnd (r : ResultCode) (len : Word32) (s : State) : State :=
  ((s.setResultLen (if r = .ok then len else 0)).setStatus (statusOf false true r)).setSeq .idle

/-- Raising an error (60_exceptions R262): the command ends with its code and length 0. Nothing is
saved and nothing else is written. -/
def raiseError (r : ResultCode) (s : State) : State := cmdEnd r 0 s

/-- Make `i` the operation the engine runs next. -/
def issue (i : Instr) (s : State) : State := s.setOp (some (opcodeOf i))

/-- CMD_ACCEPT (45_container R235): a host write of `v` to CMD. It is ignored while a command runs. A
host command waits for the engine's next move: as an operation to run whole, or, at the grain of
rules, as a command to open (log entry 6). Any other value ends at once with ILLEGAL_COMMAND. -/
def cmdAccept (v : Byte) (s : State) : State :=
  if s.busy then s
  else
    let t := (s.setCmd v).setStatus (statusOf true false .ok)
    if isHostCommand v then
      match s.par.grain with
      | .command => t.setOp (some v)
      | .rule => t
    else raiseError .illegalCommand t

/-- Leave the first `count` bytes of DST, as far as DST goes, at any value (20_memory R79): each is a free
byte. -/
def freeDst (count : Nat) (s : State) : State :=
  (s.setDst (Memory.writeFree (min count s.par.dstCap) 0 s.free s.dst)).setFree (s.free + count)

/-- The reset input (70_reset_and_hazards R290): the machine as it is after reset, with SRC and DST at
any value (93_implementation_defined entries 3 and 4). The parameters, the host's remaining lines, the
bus's read data and the counters of draws are no state of the block and stay (log entry 20). -/
def resetInput (s : State) : State :=
  { State.reset with
    par := s.par
    src := Memory.writeFree s.par.srcCap 0 s.free s.src
    dst := Memory.writeFree s.par.dstCap 0 (s.free + s.par.srcCap) s.dst
    host := s.host
    busData := s.busData
    turn := s.turn
    free := s.free + s.par.srcCap + s.par.dstCap }

end Sys2Proof.Machine
end

