-- ==== Sys2Proof/Machine/Operands.lean ====
section
/-! DEFINITION. Every operand form of the block (30_encoding R99): a byte of SRC or DST, a little-endian
field of 1 or 4 bytes (00_scope R16, 20_memory R63), a byte of a BitField buffer (41_bitfield), MIN_BITS
from a type tag (30_encoding R88), and the type tag from MIN_BITS (45_container R240). -/

namespace Sys2Proof.Machine

open Sys2Proof

/-- The bytes of SRC an engine access may touch: SRC_LEN of them (41_bitfield, `|M|`), and none beyond
the memory (20_memory R60, R71; log entry 11). -/
def srcSize (s : State) : Nat := min s.srcLen.toNat s.par.srcCap

/-- `SRC[a]`, read by the engine; outside, the engine is stuck (20_memory R71). -/
def readSrc (a : Nat) (s : State) : Res Byte :=
  if a < srcSize s then .ok (Memory.read s.src a) else .error (stuckAt .access s)

/-- `DST[a]`, read by the engine; outside, the engine is stuck (20_memory R71). -/
def readDst (a : Nat) (s : State) : Res Byte :=
  if a < s.par.dstCap then .ok (Memory.read s.dst a) else .error (stuckAt .access s)

/-- `DST[a] <- b`; outside, the engine is stuck (20_memory R71). -/
def writeDst (a : Nat) (b : Byte) (s : State) : Res State :=
  if a < s.par.dstCap then .ok (s.setDst (Memory.write s.dst a b)) else .error (stuckAt .access s)

/-- `MemRead(SRC, a, n)`: the little-endian number `sum_{i<n} SRC[a+i] * 256^i` (00_scope R16). -/
def memReadSrc : Nat → Nat → State → Res Nat
  | 0, _, _ => .ok 0
  | n + 1, a, s => do
    let b ← readSrc a s
    let v ← memReadSrc n (a + 1) s
    .ok (b.toNat + 256 * v)

/-- `MemWrite(DST, a, n, v)`: the `n` bytes of `v`, least significant at `a` (00_scope R16). -/
def memWriteDst : Nat → Nat → Nat → State → Res State
  | 0, _, _, s => .ok s
  | n + 1, a, v, s => do
    let s' ← writeDst a (BitVec.ofNat 8 (v % 256)) s
    memWriteDst n (a + 1) (v / 256) s'

/-- `DST[d + i] <- SRC[a + i]` for `i` in `0 .. n-1`, in increasing order. -/
def copySrcToDst : Nat → Nat → Nat → State → Res State
  | 0, _, _, s => .ok s
  | n + 1, a, d, s => do
    let b ← readSrc a s
    let s' ← writeDst d b s
    copySrcToDst n (a + 1) (d + 1) s'

/-- `|M|`, a buffer's size in bytes (41_bitfield). -/
def bufSize (M : Buffer) (s : State) : Nat :=
  match M with
  | .src => srcSize s
  | .dst => s.par.dstCap
  | .acc => 4

/-- Byte `a` of a buffer; `acc` byte `k` is `acc[8k+7:8k]` (41_bitfield). -/
def readBuf (M : Buffer) (a : Nat) (s : State) : Res Byte :=
  match M with
  | .src => readSrc a s
  | .dst => readDst a s
  | .acc => if a < 4 then .ok (s.acc.extractLsb' (8 * a) 8) else .error (stuckAt .access s)

/-- Write byte `a` of a buffer; SRC is read-only to the engine (20_memory R60). -/
def writeBuf (M : Buffer) (a : Nat) (b : Byte) (s : State) : Res State :=
  match M with
  | .src => .error (.fault .srcReadOnly)
  | .dst => writeDst a b s
  | .acc =>
    if a < 4 then
      .ok (s.setAcc ((s.acc &&& ~~~((0xFF : Word32) <<< (8 * a))) ||| (b.setWidth 32 <<< (8 * a))))
    else .error (stuckAt .access s)

/-- MIN_BITS of a coded container's type tag (30_encoding R88; 45_container R247). -/
def minBitsOfTag (t : Byte) : BitVec 4 := if t = 2 then 7 else 8

/-- The type tag of a coded container (30_encoding R88; 45_container R240). -/
def tagOfMinBits (mb : BitVec 4) : Byte := if mb = 7 then 2 else 3

end Sys2Proof.Machine
end

