-- ==== Sys2Proof/Machine/BitField.lean ====
section
/-! DEFINITION. The BitField unit (41_bitfield R110 to R113): GET_BIT, SET_BIT, EXTRACT_U32 and
OR_U32_AT, first as operations on a buffer, which the other units call, then as the meanings of the
unit's own operation codes, whose operands and results stand in the latches. -/

namespace Sys2Proof.Machine

open Sys2Proof

/-- GET_BIT(M, n) (R110). -/
def getBit (M : Buffer) (n : Nat) (s : State) : Res Bool := do
  let b ← readBuf M (n / 8) s
  .ok (b.getLsbD (n % 8))

/-- SET_BIT(M, n) (R111): the prior value of the bit, and the state with the bit set. -/
def setBit (M : Buffer) (n : Nat) (s : State) : Res (Bool × State) := do
  let b ← readBuf M (n / 8) s
  let s' ← writeBuf M (n / 8) (b ||| ((1 : Byte) <<< (n % 8))) s
  .ok (b.getLsbD (n % 8), s')

/-- The loop of EXTRACT_U32 (R112): `k` bits from bit `o + i` on, into `acc` from bit `i` on. -/
def extractBits (M : Buffer) (o : Nat) : Nat → Nat → State → Res State
  | 0, _, s => .ok s
  | k + 1, i, s => do
    let b ← getBit M (o + i) s
    if b then
      let r ← setBit .acc i s
      extractBits M o k (i + 1) r.2
    else extractBits M o k (i + 1) s

/-- EXTRACT_U32(M, o, n) (R112); the value is the accumulator of the state it gives. -/
def extractU32 (M : Buffer) (o n : Nat) (s : State) : Res State :=
  if n ≤ 32 then extractBits M o n 0 (s.setAcc 0) else .error (stuckAt .extractCount s)

/-- The loop of OR_U32_AT (R113): bytes `k` of `x` into bytes `b + k` of the buffer, `n` of them. -/
def orBytes (M : Buffer) (b : Nat) (x : Word32) : Nat → Nat → State → Res State
  | 0, _, s => .ok s
  | n + 1, k, s => do
    let v ← readBuf M (b + k) s
    let s' ← writeBuf M (b + k) (v ||| x.extractLsb' (8 * k) 8) s
    orBytes M b x n (k + 1) s'

/-- OR_U32_AT(M, o, p) (R113): a 32-bit shift, whose high bits are lost, ORed in as a little-endian word
(20_memory R65). -/
def orU32At (M : Buffer) (o : Nat) (p : Word32) (s : State) : Res State :=
  if o / 8 + 4 ≤ bufSize M s then orBytes M (o / 8) (p <<< (o % 8)) 4 0 s
  else .error (stuckAt .orRoom s)

/-! ### The meanings of the unit's operation codes -/

/-- GET_BIT (R110): writes no state of the block; the bit is left in the latch. -/
def execGetBit (s : State) : Host.Outcome State Fault Refusal :=
  toOutcome do
    let b ← getBit s.ports.buf s.ports.bitIndex.toNat s
    .ok (s.setPorts { s.ports with bit := b })

/-- SET_BIT (R111). -/
def execSetBit (s : State) : Host.Outcome State Fault Refusal :=
  toOutcome do
    let r ← setBit s.ports.buf s.ports.bitIndex.toNat s
    .ok (r.2.setPorts { s.ports with bit := r.1 })

/-- EXTRACT_U32 (R112): the result is `acc`. -/
def execExtractU32 (s : State) : Host.Outcome State Fault Refusal :=
  toOutcome (extractU32 s.ports.buf s.ports.bitIndex.toNat s.ports.bitCount.toNat s)

/-- OR_U32_AT (R113). -/
def execOrU32At (s : State) : Host.Outcome State Fault Refusal :=
  toOutcome (orU32At s.ports.buf s.ports.bitIndex.toNat s.ports.pattern s)

end Sys2Proof.Machine
end

