-- ==== Sys2Proof/Machine/Dictionary.lean ====
section
/-! DEFINITION. The DictionaryTable unit (42_dictionary R130 to R139), as operations on one instance,
which both directions use, then as the meanings of the unit's operation codes. The recycling policy is
that of D9 (90_conflicts C3). -/

namespace Sys2Proof.Machine

open Sys2Proof

/-- `D.base = 2^D.min_bits` (10_state R28). -/
def Dict.base (d : Dict) : Nat := 2 ^ d.minBits.toNat

/-- `D.prefix[s]` (10_state R34). -/
def Dict.pfxAt (d : Dict) (s : Nat) : BitVec 16 := Table.get 0 d.pfx s

/-- `D.trailing[s]` (10_state R35). -/
def Dict.trailingAt (d : Dict) (s : Nat) : Byte := Table.get 0 d.trailing s

/-- `D.link[s]` (10_state R36). -/
def Dict.linkAt (d : Dict) (s : Nat) : Option Code := Table.get none d.link s

/-- `D.head[p]` (10_state R37). -/
def Dict.headAt (d : Dict) (p : Nat) : Option Code := Table.get none d.head p

/-- Write `D.prefix[s]`. -/
def Dict.putPfx (s : Nat) (v : BitVec 16) (d : Dict) : Dict := { d with pfx := Table.put 0 d.pfx s v }

/-- Write `D.trailing[s]`. -/
def Dict.putTrailing (s : Nat) (v : Byte) (d : Dict) : Dict :=
  { d with trailing := Table.put 0 d.trailing s v }

/-- Write `D.link[s]`. -/
def Dict.putLink (s : Nat) (v : Option Code) (d : Dict) : Dict :=
  { d with link := Table.put none d.link s v }

/-- Write `D.head[p]`. -/
def Dict.putHead (p : Nat) (v : Option Code) (d : Dict) : Dict :=
  { d with head := Table.put none d.head p v }

/-- DICT_INIT(D, mb) (R130): every head NONE; prefix, trailing and link keep what they hold. -/
def dictInit (mb : BitVec 4) (d : Dict) : Dict :=
  { d with
    minBits := mb
    codeWidth := mb + 1
    ceiling := BitVec.ofNat 13 (2 ^ (mb.toNat + 1))
    nextFree := BitVec.ofNat 13 (2 ^ mb.toNat)
    full := false
    recycleCursor := 4095
    head := [] }

/-- DICT_WIDTH(n) = min(12, bitlen(n)) (R131). -/
def dictWidth (n : Nat) : Nat := min Config.maxWidth (bitlen n)

/-- The walk of DICT_LOOKUP (R132) along a chain, at most `fuel` entries of it. -/
def chainFind (d : Dict) (B : Byte) : Nat → Option Code → Option Code
  | 0, _ => none
  | _ + 1, none => none
  | fuel + 1, some e =>
    if d.trailingAt e.toNat = B then some e else chainFind d B fuel (d.linkAt e.toNat)

/-- DICT_LOOKUP(D, P, B) (R132): the first match, most recent first. -/
def dictLookup (d : Dict) (P : Code) (B : Byte) : Option Code :=
  chainFind d B (Config.dictCapacity - d.base) (d.headAt P.toNat)

/-- DICT_ELIGIBLE(D, s, P) (R133): `s` is a leaf other than `P`. -/
def dictEligible (d : Dict) (s P : Code) : Bool := decide (d.headAt s.toNat = none) && decide (s ≠ P)

/-- The slot after `c`, wrapping from 4095 to `base` (R134). -/
def slotAfter (d : Dict) (c : Code) : Code := if c = 4095 then BitVec.ofNat 12 d.base else c + 1

/-- The circular scan of DICT_NEXT_SLOT (R134) from the slot after `c`, at most `fuel` slots. -/
def scanSlots (d : Dict) (P : Code) : Nat → Code → Option Code
  | 0, _ => none
  | fuel + 1, c =>
    if dictEligible d (slotAfter d c) P then some (slotAfter d c)
    else scanSlots d P fuel (slotAfter d c)

/-- DICT_NEXT_SLOT(D, P) (R134): the insertion cursor. -/
def dictNextSlot (d : Dict) (P : Code) : Option Code :=
  if d.full then scanSlots d P (Config.dictCapacity - d.base) d.recycleCursor
  else some (d.nextFree.setWidth 12)

/-- The walk of DICT_UNLINK (R135): from chain member `e`, at most `fuel` members. A chain that ends
before `s` leaves the table as it is; the spec shows it never does (log entry 14). -/
def unlinkFrom (s : Code) : Nat → Option Code → Dict → Dict
  | 0, _, d => d
  | _ + 1, none, d => d
  | fuel + 1, some e, d =>
    if d.linkAt e.toNat = some s then d.putLink e.toNat (d.linkAt s.toNat)
    else unlinkFrom s fuel (d.linkAt e.toNat) d

/-- DICT_UNLINK(D, s) (R135). -/
def dictUnlink (s : Code) (d : Dict) : Dict :=
  let q := (d.pfxAt s.toNat).toNat
  if d.headAt q = some s then d.putHead q (d.linkAt s.toNat)
  else unlinkFrom s (Config.dictCapacity - d.base) (d.headAt q) d

/-- The growth of the width in GROW (R137), after `next_free` has been advanced. -/
def growWidth (d : Dict) : Dict :=
  if d.nextFree = d.ceiling ∧ d.codeWidth.toNat < Config.maxWidth then
    { d with codeWidth := d.codeWidth + 1, ceiling := BitVec.ofNat 13 (2 * d.ceiling.toNat) }
  else d

/-- GROW(D) (R137). -/
def grow (d : Dict) : Dict :=
  let d' := growWidth { d with nextFree := d.nextFree + 1 }
  if d'.nextFree.toNat = Config.dictCapacity then { d' with full := true } else d'

/-- The eviction of a recycling insertion (R136): the chosen slot leaves its old chain and becomes the
cursor. -/
def evict (s : Code) (d : Dict) : Dict := { dictUnlink s d with recycleCursor := s }

/-- The entry `{P, B}` put into slot `s` and linked at the head of bucket `P` (R136). -/
def placeEntry (s P : Code) (B : Byte) (d : Dict) : Dict :=
  (((d.putPfx s.toNat (P.setWidth 16)).putTrailing s.toNat B).putLink s.toNat
    (d.headAt P.toNat)).putHead P.toNat (some s)

/-- DICT_INSERT(D, P, B) (R136): the slot filled, or NONE and no change. -/
def dictInsert (P : Code) (B : Byte) (d : Dict) : Option Code × Dict :=
  match dictNextSlot d P with
  | none => (none, d)
  | some s =>
    if d.full then (some s, placeEntry s P B (evict s d))
    else (some s, grow (placeEntry s P B d))

/-- DICT_READ_WIDTH(D) (R139): one insertion ahead of the table while it grows. -/
def dictReadWidth (d : Dict) : Nat := if d.full then 12 else dictWidth (d.nextFree.toNat + 1)

/-! ### The meanings of the unit's operation codes -/

/-- DICT_INIT (R130). -/
def execDictInit (s : State) : Host.Outcome State Fault Refusal :=
  .next (s.setDict s.ports.dict (dictInit s.ports.minBits (s.dict s.ports.dict)))

/-- DICT_WIDTH (R131): combinational; the width is left in the latch. -/
def execDictWidth (s : State) : Host.Outcome State Fault Refusal :=
  .next (s.setPorts { s.ports with width := BitVec.ofNat 4 (dictWidth s.ports.freeSlot.toNat) })

/-- DICT_LOOKUP (R132): writes no state of the block; the code or NONE is left in the latch. -/
def execDictLookup (s : State) : Host.Outcome State Fault Refusal :=
  .next (s.setPorts
    { s.ports with code := dictLookup (s.dict s.ports.dict) s.ports.pfx s.ports.byte })

/-- DICT_ELIGIBLE (R133): combinational. -/
def execDictEligible (s : State) : Host.Outcome State Fault Refusal :=
  .next (s.setPorts
    { s.ports with bit := dictEligible (s.dict s.ports.dict) s.ports.slot s.ports.pfx })

/-- DICT_NEXT_SLOT (R134): writes no state of the block. -/
def execDictNextSlot (s : State) : Host.Outcome State Fault Refusal :=
  .next (s.setPorts { s.ports with code := dictNextSlot (s.dict s.ports.dict) s.ports.pfx })

/-- DICT_UNLINK (R135). -/
def execDictUnlink (s : State) : Host.Outcome State Fault Refusal :=
  .next (s.setDict s.ports.dict (dictUnlink s.ports.slot (s.dict s.ports.dict)))

/-- DICT_INSERT (R136): the slot filled, or NONE, is left in the latch. -/
def execDictInsert (s : State) : Host.Outcome State Fault Refusal :=
  let r := dictInsert s.ports.pfx s.ports.byte (s.dict s.ports.dict)
  .next ((s.setDict s.ports.dict r.2).setPorts { s.ports with code := r.1 })

/-- DICT_READ_WIDTH (R139): combinational; the width is left in the latch. -/
def execDictReadWidth (s : State) : Host.Outcome State Fault Refusal :=
  .next (s.setPorts
    { s.ports with width := BitVec.ofNat 4 (dictReadWidth (s.dict s.ports.dict)) })

end Sys2Proof.Machine
end

