-- ==== Sys2Proof/Machine/Compressor.lean ====
section
/-! DEFINITION. The Compressor unit (43_compressor R160 to R168): its operations as state
transformers, its state machine (R167), and the meanings of its operation codes. -/

namespace Sys2Proof.Machine

open Sys2Proof

/-- The scan of COMP_PRESCAN (R160): `k` bytes from byte `i` on; whether one has its high bit set. -/
def scanHigh : Nat → Nat → State → Res Bool
  | 0, _, _ => .ok false
  | k + 1, i, s => do
    let b ← readSrc i s
    let rest ← scanHigh k (i + 1) s
    .ok (decide (0x80 ≤ b.toNat) || rest)

/-- COMP_PRESCAN(n) (R160) with `n = SRC_LEN` (45_container R240): `mb` is left in the latch. -/
def compPrescan (s : State) : Res State := do
  let hi ← scanHigh s.srcLen.toNat 0 s
  .ok (s.setPorts { s.ports with minBits := if hi then 8 else 7 })

/-- The zeroing of COMP_START (R161): DST bytes `0 .. count-1`, all inside the memory; else the engine is
stuck at the first byte outside (20_memory R71), with the bytes below it zeroed. -/
def zeroDst (count : Nat) (s : State) : Res State :=
  if count ≤ s.par.dstCap then .ok (s.setDst (Memory.fill 0x00 count 0 s.dst))
  else .error (stuckAt .access (s.setDst (Memory.fill 0x00 s.par.dstCap 0 s.dst)))

/-- COMP_START(n, mb) (R161) with `n = SRC_LEN`, of which `src_len` takes its working copy
(10_state R41), and `mb` in the latch. -/
def compStart (s : State) : Res State := do
  let n := s.srcLen.toNat
  let s' ← zeroDst (n + Config.headerSize + Config.orHeadroom) s
  .ok ((s'.setDictC (dictInit s.ports.minBits s.dictC)).setComp
    { s.comp with
      state := .awaitFirstByte
      basecodeValid := false
      srcIndex := 0
      srcLen := s.srcLen
      outBit := BitVec.ofNat 35 (8 * Config.headerSize)
      capBits := BitVec.ofNat 35 (8 * (n + Config.headerSize)) })

/-- COMP_STEP_FIRST() (R162). -/
def compStepFirst (s : State) : Res State :=
  if s.comp.srcIndex = s.comp.srcLen then .ok (s.setComp { s.comp with state := .exhausted })
  else do
    let b ← readSrc 0 s
    .ok (s.setComp
      { s.comp with
        basecode := b.setWidth 12
        basecodeValid := true
        srcIndex := 1
        state := .accumulate })

/-- COMP_EMIT(c) (R164): the flag is true for OK and false for FAIL, which writes nothing. -/
def compEmit (c : Code) (s : State) : Res (Bool × State) :=
  let w := s.dictC.codeWidth.toNat
  if s.comp.capBits.toNat - s.comp.outBit.toNat < w then .ok (false, s)
  else do
    let s' ← orU32At .dst s.comp.outBit.toNat (c.setWidth 32) s
    .ok (true, s'.setComp
      { s'.comp with outBit := BitVec.ofNat 35 (s'.comp.outBit.toNat + w) })

/-- COMP_STEP() (R163). -/
def compStep (s : State) : Res State := do
  let b ← readSrc s.comp.srcIndex.toNat s
  match dictLookup s.dictC s.comp.basecode b with
  | some e =>
    .ok (s.setComp { s.comp with basecode := e, srcIndex := s.comp.srcIndex + 1 })
  | none => do
    let r ← compEmit s.comp.basecode s
    if r.1 then
      let t := r.2.setDictC (dictInsert s.comp.basecode b r.2.dictC).2
      .ok (t.setComp { t.comp with basecode := b.setWidth 12, srcIndex := t.comp.srcIndex + 1 })
    else .ok (r.2.setComp { r.2.comp with state := .failed })

/-- COMP_FINISH() (R165). -/
def compFinish (s : State) : Res State := do
  let r ← compEmit s.comp.basecode s
  .ok (r.2.setComp { r.2.comp with state := if r.1 then .exhausted else .failed })

/-- One step of the Compressor's state machine in ACCUMULATE (R167; the loop body of 45_container
R240). -/
def compUnitStep (s : State) : Res State :=
  if s.comp.srcIndex.toNat < s.comp.srcLen.toNat then compStep s else compFinish s

/-- The loop of COMPRESS (45_container R240): unit steps while `comp_state = ACCUMULATE`, at most `fuel`
of them. -/
def compLoop : Nat → State → Res State
  | 0, s => if s.comp.state = .accumulate then .error (.fault .loopBound) else .ok s
  | fuel + 1, s => if s.comp.state = .accumulate then compUnitStep s >>= compLoop fuel else .ok s

/-! ### The meanings of the unit's operation codes -/

/-- COMP_PRESCAN (R160). -/
def execCompPrescan (s : State) : Host.Outcome State Fault Refusal := toOutcome (compPrescan s)

/-- COMP_START (R161). -/
def execCompStart (s : State) : Host.Outcome State Fault Refusal := toOutcome (compStart s)

/-- COMP_STEP_FIRST (R162). -/
def execCompStepFirst (s : State) : Host.Outcome State Fault Refusal := toOutcome (compStepFirst s)

/-- COMP_STEP (R163). -/
def execCompStep (s : State) : Host.Outcome State Fault Refusal := toOutcome (compStep s)

/-- COMP_EMIT (R164) of `basecode`, the only code the spec emits; OK or FAIL is left in the latch. -/
def execCompEmit (s : State) : Host.Outcome State Fault Refusal :=
  toOutcome do
    let r ← compEmit s.comp.basecode s
    .ok (r.2.setPorts { s.ports with bit := r.1 })

/-- COMP_FINISH (R165). -/
def execCompFinish (s : State) : Host.Outcome State Fault Refusal := toOutcome (compFinish s)

end Sys2Proof.Machine
end

