-- ==== Sys2Proof/Machine/Decompressor.lean ====
section
/-! DEFINITION. The Decompressor unit (44_decompressor R190 to R199): its operations as state
transformers, its state machine (R199), and the meanings of its operation codes. -/

namespace Sys2Proof.Machine

open Sys2Proof

/-- DEC_START(mb, cs, es) (R190): `mb` from the type tag, `cs` and `es` from the header registers. -/
def decStart (s : State) : State :=
  (s.setDictD (dictInit (minBitsOfTag s.hdr.ctype) s.dictD)).setDec
    { s.dec with
      state := .awaitFirstCode
      prevValid := false
      inBit := BitVec.ofNat 35 (8 * Config.headerSize)
      budgetBits := BitVec.ofNat 35 (8 * s.hdr.cs.toNat)
      outIndex := 0
      expSize := s.hdr.es
      sp := 0 }

/-- DEC_READ ends decoding (R191): DONE, and no code. -/
def decReadEnd (s : State) : State :=
  (s.setDec { s.dec with state := .done }).setPorts { s.ports with code := none }

/-- DEC_READ takes a code of `w` bits (R191). -/
def decReadCode (w : Nat) (s : State) : Res State := do
  let t ← extractU32 .src s.dec.inBit.toNat w s
  .ok ((t.setDec
      { t.dec with
        inBit := BitVec.ofNat 35 (t.dec.inBit.toNat + w)
        curCode := t.acc.setWidth 12 }).setPorts
    { t.ports with code := some (t.acc.setWidth 12) })

/-- DEC_READ() (R191): the code or NONE is left in the latch, the code also in `cur_code`. -/
def decRead (s : State) : Res State :=
  if s.dec.outIndex = s.dec.expSize then .ok (decReadEnd s)
  else
    let w := dictReadWidth s.dictD
    if s.dec.budgetBits.toNat - s.dec.inBit.toNat < w then .ok (decReadEnd s) else decReadCode w s

/-- DEC_FIRST(c) (R192) with `c = cur_code`. -/
def decFirst (s : State) : Res State :=
  let c := s.dec.curCode
  if s.dictD.base ≤ c.toNat then .ok (s.setDec { s.dec with state := .error })
  else do
    let t ← writeDst s.dec.outIndex.toNat (c.setWidth 8) s
    .ok (t.setDec
      { t.dec with
        outIndex := 1
        firstByte := c.setWidth 8
        prevCode := c
        prevValid := true
        state := .awaitNextCode })

/-- What DEC_CLASSIFY finds for a code (R193). -/
def classify (d : Dict) (prev c : Code) : CodeKind :=
  if dictNextSlot d prev = some c then .self
  else if d.full = false ∧ d.nextFree.toNat < c.toNat then .undefined
  else .direct

/-- DEC_CLASSIFY(c) (R193) with `c = cur_code`: kind and code are left in the latches. -/
def decClassify (s : State) : State :=
  match classify s.dictD s.dec.prevCode s.dec.curCode with
  | .self => s.setPorts { s.ports with kind := .self, xcode := s.dec.prevCode }
  | .undefined =>
    (s.setDec { s.dec with state := .error }).setPorts { s.ports with kind := .undefined }
  | .direct => s.setPorts { s.ports with kind := .direct, xcode := s.dec.curCode }

/-- PUSH(v) (R194): `none` when the stack is full. -/
def push (v : Byte) (d : Dec) : Option Dec :=
  if d.sp.toNat = Config.stackCapacity then none
  else some { d with stack := Table.put 0 d.stack d.sp.toNat v, sp := d.sp + 1 }

/-- The walk of DEC_EXPAND (R194) along the prefix codes, at most `fuel` of them, with the final push
of the literal. The second component is false when a push found the stack full. -/
def expandFrom (t : Dict) : Nat → BitVec 16 → Dec → Dec × Bool
  | 0, x, d =>
    match push (x.setWidth 8) d with
    | none => (d, false)
    | some d' => ({ d' with firstByte := x.setWidth 8 }, true)
  | fuel + 1, x, d =>
    if x.toNat < t.base then
      match push (x.setWidth 8) d with
      | none => (d, false)
      | some d' => ({ d' with firstByte := x.setWidth 8 }, true)
    else
      match push (t.trailingAt x.toNat) d with
      | none => (d, false)
      | some d' => expandFrom t fuel (t.pfxAt x.toNat) d'

/-- The stack on which DEC_EXPAND starts (R194): empty, or with the missing byte of a SELF code, which
is the first byte of the previous expansion (D8, 90_conflicts C2). -/
def expandStart (kind : CodeKind) (d : Dec) : Option Dec :=
  if kind = .self then push d.firstByte { d with sp := 0 } else some { d with sp := 0 }

/-- DEC_EXPAND(kind, x) on the decompressor's registers (R194). -/
def expandDec (t : Dict) (kind : CodeKind) (x : Code) (d : Dec) : Dec :=
  match expandStart kind d with
  | none => { d with state := .error }
  | some d' =>
    let r := expandFrom t (Config.dictCapacity - t.base) (x.setWidth 16) d'
    if r.2 then r.1 else { r.1 with state := .error }

/-- DEC_EXPAND(kind, x) (R194) with the latches' kind and code. -/
def decExpand (s : State) : State := s.setDec (expandDec s.dictD s.ports.kind s.ports.xcode s.dec)

/-- The room check (R195). -/
def roomCheck (s : State) : State :=
  if s.dec.expSize.toNat < s.dec.outIndex.toNat + s.dec.sp.toNat then
    s.setDec { s.dec with state := .error }
  else s

/-- DEC_INSERT() (R196). -/
def decInsert (s : State) : State :=
  (s.setDictD (dictInsert s.dec.prevCode s.dec.firstByte s.dictD).2).setDec
    { s.dec with prevCode := s.dec.curCode, state := .emitFromStack }

/-- The loop of DEC_POP (R197): `k` bytes from the top of the stack to DST. -/
def popBytes : Nat → State → Res State
  | 0, s => .ok s
  | k + 1, s => do
    let u := s.setDec { s.dec with sp := s.dec.sp - 1 }
    let t ← writeDst u.dec.outIndex.toNat (Table.get 0 u.dec.stack u.dec.sp.toNat) u
    popBytes k (t.setDec { t.dec with outIndex := t.dec.outIndex + 1 })

/-- DEC_POP() (R197). -/
def decPop (s : State) : Res State := do
  let t ← popBytes s.dec.sp.toNat s
  .ok (t.setDec { t.dec with state := .awaitNextCode })

/-- The outcome DEC_END decides (R198). -/
def decOutcome (d : Dec) : ResultCode :=
  if d.state = .done ∧ d.outIndex = d.expSize then .ok else .framing

/-- DEC_END() (R198): the result code is left in the latch. -/
def decEnd (s : State) : State := s.setPorts { s.ports with result := decOutcome s.dec }

/-- What follows a code in AWAIT_NEXT_CODE (R199; the loop body of 45_container R247): classify, expand,
check the room, insert, each unless an error was found before it. -/
def decNextCode (s : State) : State :=
  let a := decClassify s
  let b := if a.dec.state = .error then a else decExpand a
  let c := if b.dec.state = .error then b else roomCheck b
  if c.dec.state = .error then c else decInsert c

/-- One step of the Decompressor's state machine (R199). -/
def decUnitStep (s : State) : Res State :=
  match s.dec.state with
  | .awaitFirstCode => do
    let t ← decRead s
    if t.ports.code.isSome then decFirst t else .ok t
  | .awaitNextCode => do
    let t ← decRead s
    if t.ports.code.isSome then .ok (decNextCode t) else .ok t
  | .emitFromStack => decPop s
  | .done => .ok s
  | .error => .ok s

/-- Whether the Decompressor has stopped (R199). -/
def Dec.stopped (d : Dec) : Bool :=
  match d.state with
  | .done => true
  | .error => true
  | .awaitFirstCode => false
  | .awaitNextCode => false
  | .emitFromStack => false

/-- The loop of DECOMPRESS (45_container R247): unit steps until DONE or ERROR, at most `fuel` of
them. -/
def decLoop : Nat → State → Res State
  | 0, s => if s.dec.stopped then .ok s else .error (.fault .loopBound)
  | fuel + 1, s => if s.dec.stopped then .ok s else decUnitStep s >>= decLoop fuel

/-! ### The meanings of the unit's operation codes -/

/-- DEC_START (R190). -/
def execDecStart (s : State) : Host.Outcome State Fault Refusal := .next (decStart s)

/-- DEC_READ (R191). -/
def execDecRead (s : State) : Host.Outcome State Fault Refusal := toOutcome (decRead s)

/-- DEC_FIRST (R192). -/
def execDecFirst (s : State) : Host.Outcome State Fault Refusal := toOutcome (decFirst s)

/-- DEC_CLASSIFY (R193). -/
def execDecClassify (s : State) : Host.Outcome State Fault Refusal := .next (decClassify s)

/-- DEC_EXPAND (R194). -/
def execDecExpand (s : State) : Host.Outcome State Fault Refusal := .next (decExpand s)

/-- DEC_INSERT (R196). -/
def execDecInsert (s : State) : Host.Outcome State Fault Refusal := .next (decInsert s)

/-- DEC_POP (R197). -/
def execDecPop (s : State) : Host.Outcome State Fault Refusal := toOutcome (decPop s)

/-- DEC_END (R198). -/
def execDecEnd (s : State) : Host.Outcome State Fault Refusal := .next (decEnd s)

end Sys2Proof.Machine
end

