-- ==== Sys2Proof/Machine/Container.lean ====
section
/-! DEFINITION. The Container unit (45_container R230 to R234): its operations as state transformers, and
the meanings of its operation codes. -/

namespace Sys2Proof.Machine

open Sys2Proof

/-- CONT_WRITE_HEADER(cs, es, t) (R230): the 17 header bytes, `_hi` words 0 (D11). -/
def writeHeader (cs es : Nat) (t : Byte) (s : State) : Res State := do
  let s1 ← memWriteDst 4 0 cs s
  let s2 ← memWriteDst 4 4 0 s1
  let s3 ← memWriteDst 4 8 es s2
  let s4 ← memWriteDst 4 12 0 s3
  memWriteDst 1 16 t.toNat s4

/-- CONT_WRITE_HEADER (R230) with the operands in the header registers, where COMPRESS puts them
(10_state R53). -/
def contWriteHeader (s : State) : Res State := writeHeader s.hdr.cs.toNat s.hdr.es.toNat s.hdr.ctype s

/-- CONT_STORED(n) (R231) with `n = src_len`: the length `n + 17` is left in the latch. -/
def contStored (s : State) : Res State := do
  let n := s.comp.srcLen.toNat
  let s1 ← writeHeader (n + Config.headerSize) n 1 s
  let s2 ← copySrcToDst n 0 Config.headerSize s1
  .ok (s2.setPorts { s2.ports with length := BitVec.ofNat 32 (n + Config.headerSize) })

/-- CONT_PARSE_HEADER() (R232): the five header registers, one after the other. -/
def contParseHeader (s : State) : Res State := do
  let cs ← memReadSrc 4 0 s
  let s1 := s.setHdr { s.hdr with cs := BitVec.ofNat 32 cs }
  let csHi ← memReadSrc 4 4 s1
  let s2 := s1.setHdr { s1.hdr with csHi := BitVec.ofNat 32 csHi }
  let es ← memReadSrc 4 8 s2
  let s3 := s2.setHdr { s2.hdr with es := BitVec.ofNat 32 es }
  let esHi ← memReadSrc 4 12 s3
  let s4 := s3.setHdr { s3.hdr with esHi := BitVec.ofNat 32 esHi }
  let t ← memReadSrc 1 16 s4
  .ok (s4.setHdr { s4.hdr with ctype := BitVec.ofNat 8 t })

/-- Checks 3 to 7 of CONT_VALIDATE (R233), in order, the first that fails deciding; `L = SRC_LEN`. -/
def headerVerdict (L : Nat) (s : State) : ResultCode :=
  if ¬(s.hdr.ctype = 1 ∨ s.hdr.ctype = 2 ∨ s.hdr.ctype = 3) then .malformed
  else if s.par.expandedSizeCeiling ≤ s.hdr.es.toNat then .malformed
  else if s.hdr.cs.toNat ≠ L then .framing
  else if s.hdr.ctype = 1 ∧ s.hdr.cs.toNat - Config.headerSize ≠ s.hdr.es.toNat then .framing
  else if s.par.dstCap < s.hdr.es.toNat then .resource
  else .ok

/-- Leave a result code in the latch. -/
def setResult (r : ResultCode) (s : State) : State := s.setPorts { s.ports with result := r }

/-- CONT_VALIDATE(L) (R233) with `L = SRC_LEN`: the result code is left in the latch. -/
def contValidate (s : State) : Res State :=
  if s.par.srcCap < s.srcLen.toNat then .ok (setResult .resource s)
  else if s.srcLen.toNat < Config.headerSize then .ok (setResult .framing s)
  else do
    let t ← contParseHeader s
    .ok (setResult (headerVerdict s.srcLen.toNat t) t)

/-- CONT_STORED_COPY(es) (R234) with `es = hdr_es`: the length is left in the latch. -/
def contStoredCopy (s : State) : Res State := do
  let t ← copySrcToDst s.hdr.es.toNat Config.headerSize 0 s
  .ok (t.setPorts { t.ports with length := s.hdr.es })

/-! ### The meanings of the unit's operation codes -/

/-- CONT_WRITE_HEADER (R230). -/
def execContWriteHeader (s : State) : Host.Outcome State Fault Refusal := toOutcome (contWriteHeader s)

/-- CONT_STORED (R231). -/
def execContStored (s : State) : Host.Outcome State Fault Refusal := toOutcome (contStored s)

/-- CONT_PARSE_HEADER (R232). -/
def execContParseHeader (s : State) : Host.Outcome State Fault Refusal := toOutcome (contParseHeader s)

/-- CONT_VALIDATE (R233). -/
def execContValidate (s : State) : Host.Outcome State Fault Refusal := toOutcome (contValidate s)

/-- CONT_STORED_COPY (R234). -/
def execContStoredCopy (s : State) : Host.Outcome State Fault Refusal := toOutcome (contStoredCopy s)

end Sys2Proof.Machine
end

