-- ==== Sys2Proof/Machine/Commands.lean ====
section
/-! DEFINITION. The two host commands, COMPRESS (45_container R240) and DECOMPRESS (R247), each as one
step (00_scope R17), over the pieces the rule-by-rule sequencer shares. -/

namespace Sys2Proof.Machine

open Sys2Proof

/-- Whether COMPRESS is refused with RESOURCE before it writes anything (R240). -/
def compressRefused (s : State) : Bool :=
  decide (s.par.maxSrcLen < s.srcLen.toNat) || decide (s.par.srcCap < s.srcLen.toNat)
    || decide (s.par.dstCap < s.srcLen.toNat + (Config.headerSize + Config.orHeadroom))

/-- COMPRESS wraps a finished coded attempt (R240): the header's operands go to the header registers
(10_state R53; log entry 17). -/
def wrapCoded (s : State) : State :=
  (s.setSeq .cWrap).setHdr
    { cs := BitVec.ofNat 32 (ceilDiv s.comp.outBit.toNat 8)
      csHi := 0
      es := s.comp.srcLen
      esHi := 0
      ctype := tagOfMinBits s.ports.minBits }

/-- COMPRESS wraps a failed attempt (R240). -/
def wrapStored (s : State) : State := s.setSeq .cWrap

/-- The end of COMPRESS, after the Compressor has stopped (R240). -/
def compressWrap (s : State) : Res State :=
  if s.comp.state = .exhausted then do
    let t ← contWriteHeader (wrapCoded s)
    .ok (cmdEnd .ok t.hdr.cs t)
  else do
    let t ← contStored (wrapStored s)
    .ok (cmdEnd .ok t.ports.length t)

/-- COMPRESS (R240). -/
def compress (s : State) : Res State :=
  if compressRefused s then .ok (raiseError .resource s)
  else do
    let a ← compPrescan (s.setSeq .cRun)
    let b ← compStart a
    let c ← compStepFirst b
    let d ← compLoop s.srcLen.toNat c
    compressWrap d

/-- The end of a decoding DECOMPRESS (R247), after DEC_END. A decoder failure leaves the DST bytes below
`expanded_size` at any value (20_memory R79). -/
def decodeFinish (s : State) : State :=
  if s.ports.result = .ok then cmdEnd .ok s.dec.expSize s
  else raiseError s.ports.result (freeDst s.dec.expSize.toNat s)

/-- The bound on the unit steps of a DECOMPRESS (70_reset_and_hazards R303). -/
def decFuel (s : State) : Nat := 2 * (s.hdr.cs.toNat - Config.headerSize) + 4

/-- DECOMPRESS of a coded container (R247). -/
def decompressCoded (s : State) : Res State := do
  let a := decStart (s.setSeq .dRun)
  let b ← decLoop (decFuel s) a
  .ok (decodeFinish (decEnd b))

/-- DECOMPRESS of a STORED container (R247). -/
def decompressStored (s : State) : Res State := do
  let a ← contStoredCopy (s.setSeq .dStored)
  .ok (cmdEnd .ok a.ports.length a)

/-- DECOMPRESS (R247). -/
def decompress (s : State) : Res State := do
  let a ← contValidate (s.setSeq .dCheck)
  if a.ports.result ≠ .ok then .ok (raiseError a.ports.result a)
  else if a.hdr.ctype = 1 then decompressStored a
  else decompressCoded a

/-- COMPRESS (R240). -/
def execCompress (s : State) : Host.Outcome State Fault Refusal := toOutcome (compress s)

/-- DECOMPRESS (R247). -/
def execDecompress (s : State) : Host.Outcome State Fault Refusal := toOutcome (decompress s)

end Sys2Proof.Machine
end

