-- ==== Sys2Proof/Machine/Dispatch.lean ====
section
/-! DEFINITION. The meaning of each operation: one arm per constructor of `Instr`, each one call of the
meaning's own definition. -/

namespace Sys2Proof.Machine

open Sys2Proof

def exec (i : Instr) (s : State) : Host.Outcome State Fault Refusal :=
  match i with
  | .compress => Sys2Proof.Machine.execCompress s
  | .decompress => Sys2Proof.Machine.execDecompress s
  | .getBit => Sys2Proof.Machine.execGetBit s
  | .setBit => Sys2Proof.Machine.execSetBit s
  | .extractU32 => Sys2Proof.Machine.execExtractU32 s
  | .orU32At => Sys2Proof.Machine.execOrU32At s
  | .dictInit => Sys2Proof.Machine.execDictInit s
  | .dictWidth => Sys2Proof.Machine.execDictWidth s
  | .dictLookup => Sys2Proof.Machine.execDictLookup s
  | .dictEligible => Sys2Proof.Machine.execDictEligible s
  | .dictNextSlot => Sys2Proof.Machine.execDictNextSlot s
  | .dictUnlink => Sys2Proof.Machine.execDictUnlink s
  | .dictInsert => Sys2Proof.Machine.execDictInsert s
  | .dictReadWidth => Sys2Proof.Machine.execDictReadWidth s
  | .compPrescan => Sys2Proof.Machine.execCompPrescan s
  | .compStart => Sys2Proof.Machine.execCompStart s
  | .compStepFirst => Sys2Proof.Machine.execCompStepFirst s
  | .compStep => Sys2Proof.Machine.execCompStep s
  | .compEmit => Sys2Proof.Machine.execCompEmit s
  | .compFinish => Sys2Proof.Machine.execCompFinish s
  | .decStart => Sys2Proof.Machine.execDecStart s
  | .decRead => Sys2Proof.Machine.execDecRead s
  | .decFirst => Sys2Proof.Machine.execDecFirst s
  | .decClassify => Sys2Proof.Machine.execDecClassify s
  | .decExpand => Sys2Proof.Machine.execDecExpand s
  | .decInsert => Sys2Proof.Machine.execDecInsert s
  | .decPop => Sys2Proof.Machine.execDecPop s
  | .decEnd => Sys2Proof.Machine.execDecEnd s
  | .contWriteHeader => Sys2Proof.Machine.execContWriteHeader s
  | .contStored => Sys2Proof.Machine.execContStored s
  | .contParseHeader => Sys2Proof.Machine.execContParseHeader s
  | .contValidate => Sys2Proof.Machine.execContValidate s
  | .contStoredCopy => Sys2Proof.Machine.execContStoredCopy s

end Sys2Proof.Machine
end

