-- ==== Sys2Proof/Machine/Sequencer.lean ====
section
/-! DEFINITION. The engine's sequencer: the fixed operation sequence each host command runs (30_encoding
R80), as the choice of the next operation after the one that has run (45_container R240, R247;
43_compressor R167; 44_decompressor R199), and what the engine fetches. -/

namespace Sys2Proof.Machine

open Sys2Proof

/-- The opening of COMPRESS (R240): RESOURCE, or the first operation. -/
def beginCompress (s : State) : State :=
  if compressRefused s then raiseError .resource s else issue .compPrescan (s.setSeq .cRun)

/-- The opening of DECOMPRESS (R247). -/
def beginDecompress (s : State) : State := issue .contValidate (s.setSeq .dCheck)

/-- The opening of the accepted command, at the grain of rules. The command waits in CMD with SEQ IDLE
(R235); in any other state there is nothing to open. -/
def beginCommand (s : State) : Host.Outcome State Fault Refusal :=
  if s.seq = .idle then
    match decodeOp s.cmd with
    | some .compress => .next (beginCompress s)
    | some .decompress => .next (beginDecompress s)
    | _ => .fault .noCommand
  else .fault .noCommand

/-- The operation COMPRESS runs after a unit step of the Compressor (R240, R167). -/
def compNext (s : State) : State :=
  if s.comp.state = .accumulate then
    if s.comp.srcIndex.toNat < s.comp.srcLen.toNat then issue .compStep s else issue .compFinish s
  else if s.comp.state = .exhausted then issue .contWriteHeader (wrapCoded s)
  else issue .contStored (wrapStored s)

/-- What DECOMPRESS runs after CONT_VALIDATE (R247). -/
def validateNext (s : State) : State :=
  if s.ports.result ≠ .ok then raiseError s.ports.result s
  else if s.hdr.ctype = 1 then issue .contStoredCopy (s.setSeq .dStored)
  else issue .decStart (s.setSeq .dRun)

/-- The operation DECOMPRESS runs at the head of its loop (R247, R199). -/
def decNext (s : State) : State :=
  match s.dec.state with
  | .awaitFirstCode => issue .decRead s
  | .awaitNextCode => issue .decRead s
  | .emitFromStack => issue .decPop s
  | .done => issue .decEnd s
  | .error => issue .decEnd s

/-- The operation DECOMPRESS runs after DEC_READ (R247). -/
def decReadNext (s : State) : State :=
  if s.ports.code.isSome then
    if s.dec.state = .awaitFirstCode then issue .decFirst s else issue .decClassify s
  else decNext s

/-- The operation DECOMPRESS runs after DEC_CLASSIFY (R247). -/
def decClassifyNext (s : State) : State :=
  if s.dec.state = .error then decNext s else issue .decExpand s

/-- What DECOMPRESS runs after DEC_EXPAND: the room check (R195), then DEC_INSERT (R247). -/
def decExpandNext (s : State) : State :=
  if s.dec.state = .error then decNext s
  else
    let t := roomCheck s
    if t.dec.state = .error then decNext t else issue .decInsert t

/-- What the sequencer does after operation `i` of a command has run. With SEQ IDLE no command runs and
nothing follows. -/
def sequenceNext (i : Instr) (s : State) : State :=
  match s.seq with
  | .idle => s
  | .ending => s
  | .cRun =>
    match i with
    | .compPrescan => issue .compStart s
    | .compStart => issue .compStepFirst s
    | .compStepFirst => compNext s
    | .compStep => compNext s
    | .compFinish => compNext s
    | _ => s
  | .cWrap =>
    match i with
    | .contWriteHeader => cmdEnd .ok s.hdr.cs s
    | .contStored => cmdEnd .ok s.ports.length s
    | _ => s
  | .dCheck =>
    match i with
    | .contValidate => validateNext s
    | _ => s
  | .dStored =>
    match i with
    | .contStoredCopy => cmdEnd .ok s.ports.length s
    | _ => s
  | .dRun =>
    match i with
    | .decStart => decNext s
    | .decRead => decReadNext s
    | .decFirst => decNext s
    | .decClassify => decClassifyNext s
    | .decExpand => decExpandNext s
    | .decInsert => decNext s
    | .decPop => decNext s
    | .decEnd => decodeFinish s
    | _ => s

/-- What the sequencer does with the outcome of operation `i`: it chooses what comes next, unless the
engine is stuck and nothing does (60_exceptions R278). -/
def sequenceOutcome (i : Instr) : Host.Outcome State Fault Refusal → Host.Outcome State Fault Refusal
  | .next s => .next (if s.stuck = none then sequenceNext i s else s)
  | .fault f => .fault f
  | .refused r => .refused r

/-- What the engine finds to do. -/
inductive Fetched where
  /-- an operation -/
  | operation (i : Instr)
  /-- a code that names no operation -/
  | illegal (op : Byte)
  /-- no operation: the accepted command is to be opened -/
  | opening
  deriving DecidableEq, Repr

/-- Fetch the code in the operation register and decode it. -/
def fetch (s : State) : Fetched :=
  match s.op with
  | none => .opening
  | some w =>
    match decode [w] with
    | .instr i _ => .operation i
    | .noBytes => .illegal w
    | .unassigned op => .illegal op

/-- Whether the engine has something to do: it has not when it is stuck (60_exceptions R278). -/
def engineBusy (s : State) : Bool := s.stuck.isNone && (s.op.isSome || s.busy)

/-- The operation register with the table's word in it, an engine that can move, and no host line that
could move first. -/
def placeOp (s : State) (nbits w : Nat) : State :=
  ((s.setOp (some (tableByte nbits w))).setStuck none).setHost []

end Sys2Proof.Machine
end

