-- ==== Sys2Proof/Machine/HostSide.lean ====
section
/-! DEFINITION. The host's side: the register block (10_state section 2, R21 to R26), the lines of a host
program (30_encoding R100), the duties of the hand-off (20_memory R66, 70_reset_and_hazards R302), and
who may move (95_test_vectors P7). -/

namespace Sys2Proof.Machine

open Sys2Proof

/-- A read of a register offset: an 8-bit register in bits 7:0, and 0 for any other offset. -/
def busRead (off : Nat) (s : State) : Word32 :=
  match off with
  | 0x0 => s.cmd.setWidth 32
  | 0x4 => s.status.setWidth 32
  | 0x8 => s.srcLen
  | 0xC => s.resultLen
  | _ => 0

/-- A write of a register offset. CMD takes bits 7:0 (R24, R235); STATUS and RESULT_LEN are read-only
(R21, R22); any other offset ignores writes. A write of SRC_LEN while BUSY breaks the hand-off. -/
def busWrite (off : Nat) (v : Word32) (s : State) : Host.Outcome State Fault Refusal :=
  match off with
  | 0x0 => .next (cmdAccept (v.setWidth 8) s)
  | 0x8 => if s.busy then .refused .hostBusyDuty else .next (s.setSrcLen v)
  | _ => .next s

/-- Host writes of bytes to SRC from `a` on (R60). -/
def hostSrc (a : Nat) (bytes : List Byte) (s : State) : Host.Outcome State Fault Refusal :=
  if s.busy then .refused .hostBusyDuty
  else if a + bytes.length ≤ s.par.srcCap then .next (s.setSrc (Memory.writeList bytes a s.src))
  else .fault .hostOutside

/-- A host read of one byte of DST (R61). -/
def hostReadDst (a : Nat) (s : State) : Host.Outcome State Fault Refusal :=
  if s.busy then .refused .hostBusyDuty
  else if a < s.par.dstCap then .next (s.setBusData ((Memory.read s.dst a).setWidth 32))
  else .fault .hostOutside

/-- A host read of a register: RESULT_LEN may not be read while BUSY (R26, R302). -/
def hostRead (off : Nat) (s : State) : Host.Outcome State Fault Refusal :=
  if s.busy ∧ off = 0xC then .refused .hostBusyDuty else .next (s.setBusData (busRead off s))

/-- COPYBACK (R100): `DST[0 .. RESULT_LEN-1]` to `SRC[0 ..]`, then `SRC_LEN <- RESULT_LEN`. -/
def hostCopyback (s : State) : Host.Outcome State Fault Refusal :=
  let n := s.resultLen.toNat
  if s.busy then .refused .hostBusyDuty
  else if n ≤ s.par.srcCap ∧ n ≤ s.par.dstCap then
    .next ((s.setSrc (Memory.writeList (Memory.readList s.dst n 0) 0 s.src)).setSrcLen s.resultLen)
  else .fault .hostOutside

/-- WAIT (R100): read STATUS; go on when DONE = 1, else read it again at the next move. -/
def hostWait (s : State) : Host.Outcome State Fault Refusal :=
  let t := s.setBusData (busRead 0x4 s)
  if s.done then .next t else .next (t.setHost (.wait :: t.host))

/-- One line of a host program, already taken off the list. -/
def hostLine (l : HostLine) (s : State) : Host.Outcome State Fault Refusal :=
  match l with
  | .src a bytes => hostSrc a bytes s
  | .len n => busWrite 0x8 n s
  | .cmd v => busWrite 0x0 (v.setWidth 32) s
  | .wait => hostWait s
  | .copyback => hostCopyback s
  | .comment => .next s
  | .write off v => busWrite off v s
  | .read off => hostRead off s
  | .readDst a => hostReadDst a s
  | .reset => .next (resetInput s)

/-- Who moves, and the state it moves from. -/
inductive Mover where
  /-- the engine -/
  | engine (s : State)
  /-- the host, with the line it runs -/
  | host (l : HostLine) (s : State)
  /-- nobody: the engine is idle or stuck and the host has ended -/
  | nobody
  deriving DecidableEq, Repr

/-- Who moves next. An idle engine leaves the move to the host (60_exceptions R277), and so does a stuck one
(R278), which still shows BUSY and which only a RESET line frees. While the engine
has work, a waiting host only polls, so the engine moves; a host with another line may move first or
not, and which of the two is a free value (log entry 7). -/
def mover (s : State) : Mover :=
  match s.host with
  | [] => if engineBusy s then .engine s else .nobody
  | l :: rest =>
    if engineBusy s then
      if l = .wait then .engine s
      else if Config.hostFirst s.turn then .host l ((s.setHost rest).setTurn (s.turn + 1))
      else .engine (s.setTurn (s.turn + 1))
    else .host l (s.setHost rest)

end Sys2Proof.Machine
end

