-- ==== Sys2Proof/Machine/Step.lean ====
section
/-! DEFINITION. One step of the block with its host: a move of the engine or of the host. -/

namespace Sys2Proof.Machine

open Sys2Proof

/-- One move of the engine: run the operation in the operation register and let the sequencer choose the
next one, or open the accepted command. -/
def engineStep (s : State) : Host.Outcome State Fault Refusal :=
  match fetch s with
  | .operation i => sequenceOutcome i (exec i (s.setOp none))
  | .illegal op => .refused (.illegalOperation op)
  | .opening => beginCommand s

/-- One step (00_scope R17). When the engine is idle or stuck and the host has no line left, nothing happens
(60_exceptions R277, R278). -/
def step (s : State) : Host.Outcome State Fault Refusal :=
  match mover s with
  | .engine t => engineStep t
  | .host l t => hostLine l t
  | .nobody => .next s

/-- `s` with the operation whose bits are `w` where the engine fetches its next operation. -/
def State.withFetchWord (s : State) (nbits w : Nat) : State := placeOp s nbits w

end Sys2Proof.Machine
end

