-- ==== Sys2Proof/Safety.lean ====
section
/-! DEFINITION. The terms in which claims about the machine are made: what a byte or a bit of a buffer
is, what a legal state is, how a command ends, and what the table's chains and a code's expansion are.
No step reads these definitions. -/

namespace Sys2Proof.Safety

open Sys2Proof Sys2Proof.Machine

/-! ### Bytes and bits (00_scope R14) -/

/-- Byte `a` of SRC. -/
def srcByte (s : State) (a : Nat) : Byte := Memory.read s.src a

/-- Byte `a` of DST. -/
def dstByte (s : State) (a : Nat) : Byte := Memory.read s.dst a

/-- Byte `a` of a buffer, whether or not an operation may touch it. -/
def bufByte (M : Buffer) (s : State) (a : Nat) : Byte :=
  match M with
  | .src => srcByte s a
  | .dst => dstByte s a
  | .acc => s.acc.extractLsb' (8 * a) 8

/-- Bit `n` of a buffer: bit `n mod 8` of byte `n div 8`. -/
def bufBit (M : Buffer) (s : State) (n : Nat) : Bool := (bufByte M s (n / 8)).getLsbD (n % 8)

/-- The little-endian number in the four bytes from `a` on (20_memory R63). -/
def word32At (read : Nat → Byte) (a : Nat) : Nat :=
  (read a).toNat + 256 * (read (a + 1)).toNat + 65536 * (read (a + 2)).toNat
    + 16777216 * (read (a + 3)).toNat

/-! ### Legal states -/

/-- A table lists no entry at or beyond index `n`. -/
def below {α : Type} (n : Nat) (m : List (Nat × α)) : Bool := m.all (fun c => decide (c.1 < n))

/-- A table of `n` entries, each reading as `d` unless it is listed, is in canonical form. -/
def fits {α : Type} [DecidableEq α] (d : α) (n : Nat) (m : List (Nat × α)) : Bool :=
  Table.wf d m && below n m

/-- The four arrays of a dictionary are in canonical form, within the 4096 codes (10_state R34 to R37). -/
def dictCanonical (d : Dict) : Bool :=
  fits 0 4096 d.pfx && fits 0 4096 d.trailing && fits none 4096 d.link && fits none 4096 d.head

/-- Every table and memory is in canonical form: SRC within SRC_CAP, DST within DST_CAP, the dictionaries
and the stack within their 4096 entries (20_memory R60, R61, 10_state R34 to R37, R51). -/
def canonical (s : State) : Bool :=
  fits Memory.unlisted s.par.srcCap s.src && fits Memory.unlisted s.par.dstCap s.dst
    && dictCanonical s.dictC && dictCanonical s.dictD && fits 0 4096 s.dec.stack

/-- STATUS as 10_state R21 has it: bits 3:2 zero, BUSY and DONE never both 1, RESULT a code that can be
produced (30_encoding R98). -/
def statusLegal (v : Byte) : Prop :=
  statusReserved v = 0 ∧ ¬(statusBusy v = true ∧ statusDone v = true) ∧ (statusResult v).toNat ≤ 4

/-- The legal values of MIN_BITS (10_state R28). -/
def minBitsLegal (mb : BitVec 4) : Prop := mb = 7 ∨ mb = 8

/-- The registers of an initialised dictionary (10_state R28 to R32, R38 (d); 42_dictionary R143). -/
def dictRegs (d : Dict) : Prop :=
  d.codeWidth.toNat = dictWidth d.nextFree.toNat ∧ d.ceiling.toNat = 2 ^ d.codeWidth.toNat
    ∧ d.base ≤ d.nextFree.toNat ∧ d.nextFree.toNat ≤ 4096
    ∧ (d.full = true ↔ d.nextFree.toNat = 4096)

/-- Each dictionary that has been initialised has legal registers, and the next initialisation will be
with a legal MIN_BITS. -/
def widthsLegal (s : State) : Prop :=
  minBitsLegal s.ports.minBits
    ∧ (minBitsLegal s.dictC.minBits → dictRegs s.dictC)
    ∧ (minBitsLegal s.dictD.minBits → dictRegs s.dictD)

/-! ### How a command ends (45_container R236) -/

/-- A command has ended with result `r`: `STATUS = (BUSY 0, DONE 1, RESULT r)`, SEQ IDLE. -/
def ended (r : ResultCode) (s : State) : Prop :=
  s.busy = false ∧ s.done = true ∧ statusReserved s.status = 0
    ∧ statusResult s.status = resultBits r ∧ s.seq = .idle

/-- The host commands; every other operation is internal (30_encoding R82, R83). -/
def isCommand : Instr → Bool
  | .compress => true
  | .decompress => true
  | _ => false

/-! ### The dictionary's meaning (00_scope R19) -/

/-- The members of a chain from `e` on, in chain order, at most `fuel` of them. -/
def chainFrom (d : Dict) : Nat → Option Code → List Code
  | 0, _ => []
  | _ + 1, none => []
  | fuel + 1, some e => e :: chainFrom d fuel (d.linkAt e.toNat)

/-- The members of bucket `p`, most recent first, at most one for each slot. -/
def bucket (d : Dict) (p : Nat) : List Code := chainFrom d (4096 - d.base) (d.headAt p)

/-- The chain that starts at `start` has exactly the members `l`, in this order. -/
def chainIs (d : Dict) : Option Code → List Code → Prop
  | start, [] => start = none
  | start, e :: l => start = some e ∧ chainIs d (d.linkAt e.toNat) l

/-- Slot `x` may be recycled for prefix `P` (42_dictionary R133). -/
def recyclable (d : Dict) (P x : Nat) : Prop := d.headAt x = none ∧ x ≠ P

/-- The slot `k` places after `c` on the circle `base .. 4095` (42_dictionary R134). -/
def slotOnCircle (base c k : Nat) : Nat := base + (c - base + k) % (4096 - base)

/-- The trailing bytes met from `x` to its literal, newest first, with the literal last: a code's
expansion read backwards. `none` when no literal is met within `fuel` links. -/
def expansionRev (d : Dict) : Nat → Nat → Option (List Byte)
  | 0, x => if x < d.base then some [BitVec.ofNat 8 x] else none
  | fuel + 1, x =>
    if x < d.base then some [BitVec.ofNat 8 x]
    else
      match expansionRev d fuel (d.pfxAt x).toNat with
      | none => none
      | some bs => some (d.trailingAt x :: bs)

/-- The bytes the stack holds, bottom first. -/
def stackBytes (d : Dec) : List Byte := (List.range d.sp.toNat).map (Table.get 0 d.stack)

end Sys2Proof.Safety
end

