-- ==== Sys2Proof/Certificates/Slice0/Obligations.lean ====
section
/-! DEFINITION. The statements for the provers, each a `Prop` under `Obligations`. A statement quantifies
over every state, reachable or not, unless it says otherwise. The operands and results that a statement about an
internal operation finds in `ports`, and the registers it takes the other operands from, are the model's own (log
entries 4 and 5). -/

open Sys2Proof Sys2Proof.Machine Sys2Proof.Safety

/-! ### Reset, decoding, stepping -/

/-- 70_reset_and_hazards R290: the values the spec gives for reset (10_state R21 to R25), in the state after reset
and after the reset input, which at any time abandons a running command and frees a stuck engine
(60_exceptions R278). SRC and DST then hold free bytes, and the parameters and the host's lines stay (both the
model's choice, log entries 8 and 20). -/
def Obligations.ResetLeavesIdleBlock : Prop :=
  (State.reset.status = 0x00 ∧ State.reset.resultLen = 0 ∧ State.reset.seq = .idle
    ∧ State.reset.cmd = 0x00 ∧ State.reset.srcLen = 0 ∧ State.reset.stuck = none)
  ∧ ∀ s : State, ∃ t, hostLine .reset s = .next t
    ∧ t.status = 0x00 ∧ t.resultLen = 0 ∧ t.seq = .idle ∧ t.cmd = 0x00 ∧ t.srcLen = 0
    ∧ engineBusy t = false ∧ t.stuck = none ∧ t.par = s.par ∧ t.host = s.host
    ∧ (∀ a, a < s.par.srcCap → srcByte t a = Config.freeByte (s.free + a))
    ∧ (∀ a, a < s.par.dstCap → dstByte t a = Config.freeByte (s.free + s.par.srcCap + a))

/-- 30_encoding R81 to R84: decoding what an operation is encoded as gives it back, with the bytes after it; a byte
that decodes is the operation's only encoding, and a byte that does not is rejected under its own name. -/
def Obligations.DecodeEncodeAgree : Prop :=
  (∀ (i : Instr) (rest : List Byte), decode (encode i ++ rest) = .instr i rest)
  ∧ ∀ (w : Byte) (rest : List Byte),
    (∃ i, decode (w :: rest) = .instr i rest ∧ encode i = [w]) ∨
      (decode (w :: rest) = .unassigned w ∧ ∀ i, encode i ≠ [w])

/-- 30_encoding R82, R83: one word of each unit, as the spec's tables have it. -/
def Obligations.TableWordsDecode : Prop :=
  decodeTableWord 8 0b00000001 = some .compress ∧ decodeTableWord 8 0b00010011 = some .orU32At
    ∧ decodeTableWord 8 0b00100110 = some .dictInsert ∧ decodeTableWord 8 0b00110011 = some .compStep
    ∧ decodeTableWord 8 0b01000100 = some .decExpand ∧ decodeTableWord 8 0b01010011 = some .contValidate
    ∧ decodeTableWord 8 0b00000000 = none ∧ decodeTableWord 8 0b01010101 = none

/-- 00_scope R17, 30_encoding R80: a step of an engine that is not stuck runs the operation that the operation
register decodes to, and then lets the sequencer choose what follows; with SEQ IDLE, or once the operation has got
the engine stuck, nothing follows. The operation register, which runs any operation whatever SEQ says, is the
model's own (log entry 15), and so is that a free value decides whether the engine moves before a host line that
is not a WAIT (log entry 7). -/
def Obligations.StepRunsDecodedOperation : Prop :=
  ∀ (s : State) (w : Byte) (i : Instr), s.stuck = none → s.op = some w → decode [w] = .instr i [] →
    ((s.host = [] ∨ s.host.head? = some .wait) →
        step s = sequenceOutcome i (exec i (s.setOp none)))
      ∧ (∀ l rest, s.host = l :: rest → l ≠ .wait → Config.hostFirst s.turn = false →
          step s = sequenceOutcome i (exec i ((s.setTurn (s.turn + 1)).setOp none)))
      ∧ (∀ t : State, t.seq = .idle ∨ t.stuck ≠ none → sequenceOutcome i (.next t) = .next t)

/-- 60_exceptions R277, R278, 95_test_vectors P7, 70_reset_and_hazards R303: an idle engine does nothing until the
host moves, and a stuck one nothing at all, whatever it was doing; while a command waits to run, a host line that is
not a WAIT may move first or not: both are allowed, and which one happens is a free value (log entry 7, the model's
own). -/
def Obligations.WhoMovesNext : Prop :=
  ∀ s : State,
    ((s.op = none ∧ s.busy = false ∨ s.stuck ≠ none) → s.host = [] → step s = .next s)
    ∧ (s.stuck ≠ none → engineBusy s = false)
    ∧ (s.stuck = none → (s.op ≠ none ∨ s.busy = true) → engineBusy s = true)
    ∧ (∀ l rest, s.host = l :: rest → engineBusy s = false → step s = hostLine l (s.setHost rest))
    ∧ (∀ l rest, s.host = l :: rest → l ≠ .wait → engineBusy s = true →
      (Config.hostFirst s.turn = true → step s = hostLine l ((s.setHost rest).setTurn (s.turn + 1)))
        ∧ (Config.hostFirst s.turn = false → step s = engineStep (s.setTurn (s.turn + 1))))

/-! ### The host's side -/

/-- 10_state section 2, R21, R22, R24, R25: what the host's read of a register returns and what its write does. R26
lets STATUS be read at any time and RESULT_LEN while BUSY = 0. That CMD, SRC_LEN and the offsets of no register may be
read while BUSY = 1 is the model's inference, since R302 forbids only DST and RESULT_LEN (log entry 23, DEDUCED), and
that a read leaves what it returned in `busData` is the model's own (log entry 16). HandsOffWhileBusy says what a
RESULT_LEN read and a SRC_LEN write while BUSY = 1 do. -/
def Obligations.RegisterBlock : Prop :=
  ∀ s : State,
    (∀ off, ¬(s.busy = true ∧ off = 0xC) →
        hostLine (.read off) s = .next { s with busData := busRead off s })
      ∧ busRead 0x0 s = s.cmd.setWidth 32 ∧ busRead 0x4 s = s.status.setWidth 32 ∧ busRead 0x8 s = s.srcLen
      ∧ busRead 0xC s = s.resultLen
      ∧ (∀ off, off ≠ 0x0 → off ≠ 0x4 → off ≠ 0x8 → off ≠ 0xC →
          busRead off s = 0 ∧ ∀ v, hostLine (.write off v) s = .next s)
      ∧ (∀ v, hostLine (.write 0x4 v) s = .next s ∧ hostLine (.write 0xC v) s = .next s)
      ∧ (∀ v, hostLine (.write 0x0 v) s = hostLine (.cmd (v.setWidth 8)) s)
      ∧ (∀ v, s.busy = false → hostLine (.write 0x8 v) s = .next { s with srcLen := v })

/-- 45_container R235, 30_encoding R82: an accepted host command makes the block busy and gives the engine that
command to do: at the grain of commands its code is in the operation register, and at the grain of rules it waits
in CMD for the engine to open it (log entries 6 and 15, the model's own): 0x01 then opens COMPRESS and 0x02
DECOMPRESS. Nothing but CMD, STATUS and the operation register changes. -/
def Obligations.HostCommandAccepted : Prop :=
  ∀ (s : State) (v : Byte), s.busy = false → (v = 0x01 ∨ v = 0x02) →
    ∃ t, hostLine (.cmd v) s = .next t ∧ t.cmd = v ∧ t.busy = true ∧ t.done = false
      ∧ statusResult t.status = 0 ∧ (s.stuck = none → engineBusy t = true)
      ∧ t = { s with
          cmd := v, status := t.status, op := if s.par.grain = .command then some v else s.op }
      ∧ (s.par.grain = .command → fetch t = .operation (if v = 0x01 then .compress else .decompress))
      ∧ (s.par.grain = .rule → s.op = none → s.seq = .idle →
          engineStep t = .next (if v = 0x01 then beginCompress t else beginDecompress t))

/-- 30_encoding R84, 60_exceptions R266: any other CMD value runs no unit and ends at once. -/
def Obligations.IllegalCommandEndsAtOnce : Prop :=
  ∀ (s : State) (v : Byte), s.busy = false → v ≠ 0x01 → v ≠ 0x02 →
    ∃ t, hostLine (.cmd v) s = .next t ∧ ended .illegalCommand t ∧ t.resultLen = 0 ∧ t.cmd = v
      ∧ t = { s with cmd := v, status := t.status, resultLen := 0, seq := .idle }

/-- 70_reset_and_hazards R302, 10_state R24, R26, 93_implementation_defined entry 5: what the host may and may not
do while BUSY = 1. A breach of its duty is refused (log entry 9, the model's choice among those the spec leaves);
a CMD write is ignored, and STATUS may be read. -/
def Obligations.HandsOffWhileBusy : Prop :=
  ∀ s : State, s.busy = true →
    (∀ a bs, hostLine (.src a bs) s = .refused .hostBusyDuty)
      ∧ (∀ n, hostLine (.len n) s = .refused .hostBusyDuty)
      ∧ (∀ v, hostLine (.write 0x8 v) s = .refused .hostBusyDuty)
      ∧ hostLine (.read 0xC) s = .refused .hostBusyDuty
      ∧ (∀ a, hostLine (.readDst a) s = .refused .hostBusyDuty)
      ∧ hostLine .copyback s = .refused .hostBusyDuty
      ∧ (∀ v, hostLine (.cmd v) s = .next s)
      ∧ hostLine (.read 0x4) s = .next { s with busData := s.status.setWidth 32 }

/-- 30_encoding R100: the bus effects of a host program's lines on an idle block. -/
def Obligations.HostLinesEffects : Prop :=
  ∀ s : State, s.busy = false →
    (∀ a bs, a + bs.length ≤ s.par.srcCap → ∃ t, hostLine (.src a bs) s = .next t
        ∧ t = { s with src := t.src }
        ∧ ∀ x, srcByte t x
            = if a ≤ x ∧ x < a + bs.length then bs.getD (x - a) 0 else srcByte s x)
      ∧ (∀ n, hostLine (.len n) s = .next { s with srcLen := n })
      ∧ (∀ a, a < s.par.dstCap →
          hostLine (.readDst a) s = .next { s with busData := (dstByte s a).setWidth 32 })
      ∧ (s.done = true → hostLine .wait s = .next { s with busData := s.status.setWidth 32 })
      ∧ (s.done = false → hostLine .wait s
            = .next { s with busData := s.status.setWidth 32, host := .wait :: s.host })
      ∧ (s.resultLen.toNat ≤ s.par.srcCap → s.resultLen.toNat ≤ s.par.dstCap →
          ∃ t, hostLine .copyback s = .next t
            ∧ t = { s with src := t.src, srcLen := s.resultLen }
            ∧ ∀ x, srcByte t x = if x < s.resultLen.toNat then dstByte s x else srcByte s x)

/-- 45_container R236, 60_exceptions R262: what the end of a command writes, and that it writes nothing else.
SEQ is IDLE after it in the same step, the model's inference (log entry 26, DEDUCED). -/
def Obligations.CommandEndWrites : Prop :=
  ∀ (r : ResultCode) (len : Word32) (s : State),
    ended r (cmdEnd r len s)
      ∧ cmdEnd r len s = { s with
          status := (cmdEnd r len s).status, resultLen := if r = .ok then len else 0, seq := .idle }
      ∧ raiseError r s = cmdEnd r 0 s

/-! ### BitField -/

/-- 41_bitfield R110: GET_BIT; outside the buffer the engine is stuck (20_memory R71). That SRC then ends at the lesser
of SRC_LEN and SRC_CAP, and that getting stuck writes nothing else, is the model's inference (log entries 11 and 10,
DEDUCED). -/
def Obligations.GetBitReadsOneBit : Prop :=
  ∀ s : State,
    (s.ports.bitIndex.toNat / 8 < bufSize s.ports.buf s →
      exec .getBit s = .next { s with
        ports := { s.ports with bit := bufBit s.ports.buf s s.ports.bitIndex.toNat } })
      ∧ (bufSize s.ports.buf s ≤ s.ports.bitIndex.toNat / 8 → exec .getBit s = .next { s with stuck := some .access })

/-- 41_bitfield R111: SET_BIT sets one bit, returns its prior value and changes no other bit; SRC is
read-only to the engine (20_memory R60; the fault is log entry 22); outside the buffer the engine is stuck (R71), and
that getting stuck writes nothing else is the model's inference (log entry 10, DEDUCED; the size of SRC: log entry
11). -/
def Obligations.SetBitSetsOneBit : Prop :=
  ∀ s : State,
    (s.ports.buf ≠ .src → s.ports.bitIndex.toNat / 8 < bufSize s.ports.buf s →
      ∃ t, exec .setBit s = .next t
        ∧ t = { s with
            dst := t.dst, acc := t.acc
            ports := { s.ports with bit := bufBit s.ports.buf s s.ports.bitIndex.toNat } }
        ∧ (∀ k, bufBit s.ports.buf t k
            = (bufBit s.ports.buf s k || decide (k = s.ports.bitIndex.toNat)))
        ∧ (s.ports.buf = .dst → t.acc = s.acc) ∧ (s.ports.buf = .acc → t.dst = s.dst))
      ∧ (s.ports.buf = .src → s.ports.bitIndex.toNat / 8 < bufSize .src s →
          exec .setBit s = .fault .srcReadOnly)
      ∧ (bufSize s.ports.buf s ≤ s.ports.bitIndex.toNat / 8 → exec .setBit s = .next { s with stuck := some .access })

/-- 41_bitfield R112, R114: EXTRACT_U32 leaves the field, zero-extended, in `acc` and changes nothing else.
The accumulator as its own source has been cleared first, so it gives 0. More than 32 bits, or a bit outside the
buffer, leave the engine stuck (60_exceptions R278, 20_memory R71). What `acc` then holds, nothing written or the bits
before the bad access, no rule says: it is the model's inference (log entry 10, DEDUCED; the size of SRC: log entry
11). -/
def Obligations.ExtractU32ReadsField : Prop :=
  ∀ s : State,
    (s.ports.bitCount.toNat ≤ 32 →
      (∀ j, j < s.ports.bitCount.toNat →
        (s.ports.bitIndex.toNat + j) / 8 < bufSize s.ports.buf s) →
      ∃ v : Word32, exec .extractU32 s = .next { s with acc := v }
        ∧ ∀ j, j < 32 → v.getLsbD j = (decide (j < s.ports.bitCount.toNat)
            && decide (s.ports.buf ≠ .acc) && bufBit s.ports.buf s (s.ports.bitIndex.toNat + j)))
      ∧ (32 < s.ports.bitCount.toNat → exec .extractU32 s = .next { s with stuck := some .extractCount })
      ∧ (s.ports.bitCount.toNat ≤ 32 →
          (∃ j, j < s.ports.bitCount.toNat
            ∧ bufSize s.ports.buf s ≤ (s.ports.bitIndex.toNat + j) / 8) →
          ∃ v : Word32, exec .extractU32 s = .next { s with acc := v, stuck := some .access }
            ∧ ∀ j, j < 32 → v.getLsbD j
              = (decide ((s.ports.bitIndex.toNat + j) / 8 < bufSize s.ports.buf s)
                && decide (s.ports.buf ≠ .acc) && bufBit s.ports.buf s (s.ports.bitIndex.toNat + j)))

/-- 41_bitfield R113, 20_memory R65: OR_U32_AT ORs the shifted pattern into four bytes as a little-endian
word and changes nothing else; without four bytes of room the engine is stuck (60_exceptions R278), and that getting
stuck writes nothing else is the model's inference (log entry 10, DEDUCED; the size of SRC: log entry 11; the fault on
SRC: log entry 22). -/
def Obligations.OrU32AtOrsWord : Prop :=
  ∀ s : State,
    (s.ports.buf = .dst → s.ports.bitIndex.toNat / 8 + 4 ≤ s.par.dstCap →
      ∃ t, exec .orU32At s = .next t ∧ t = { s with dst := t.dst }
        ∧ ∀ a, dstByte t a
            = if s.ports.bitIndex.toNat / 8 ≤ a ∧ a < s.ports.bitIndex.toNat / 8 + 4 then
                dstByte s a ||| (s.ports.pattern <<< (s.ports.bitIndex.toNat % 8)).extractLsb'
                  (8 * (a - s.ports.bitIndex.toNat / 8)) 8
              else dstByte s a)
      ∧ (s.ports.buf = .acc → s.ports.bitIndex.toNat < 8 →
          exec .orU32At s = .next { s with
            acc := s.acc ||| (s.ports.pattern <<< s.ports.bitIndex.toNat) })
      ∧ (s.ports.buf = .src → s.ports.bitIndex.toNat / 8 + 4 ≤ bufSize .src s →
          exec .orU32At s = .fault .srcReadOnly)
      ∧ (bufSize s.ports.buf s < s.ports.bitIndex.toNat / 8 + 4 →
          exec .orU32At s = .next { s with stuck := some .orRoom })

/-- 41_bitfield R115: packing then unpacking a field of DST gives the value back and changes no bit outside
the field. DST is the one buffer both operations can name (log entry 22; EXTRACT_U32 clears `acc`). -/
def Obligations.PackThenUnpack : Prop :=
  ∀ s : State, s.ports.buf = .dst → s.ports.bitCount.toNat ≤ 25 →
    s.ports.pattern.toNat < 2 ^ s.ports.bitCount.toNat →
    s.ports.bitIndex.toNat / 8 + 4 ≤ s.par.dstCap →
    (∀ j, j < s.ports.bitCount.toNat → bufBit .dst s (s.ports.bitIndex.toNat + j) = false) →
    ∃ t u, exec .orU32At s = .next t ∧ exec .extractU32 t = .next u ∧ u.acc = s.ports.pattern
      ∧ ∀ k, (k < s.ports.bitIndex.toNat ∨ s.ports.bitIndex.toNat + s.ports.bitCount.toNat ≤ k) →
          bufBit .dst u k = bufBit .dst s k

/-! ### Dictionary -/

/-- 42_dictionary R130: DICT_INIT. -/
def Obligations.DictInitStartsEmptyTable : Prop :=
  ∀ s : State, minBitsLegal s.ports.minBits →
    ∃ d : Dict, exec .dictInit s = .next (s.setDict s.ports.dict d)
      ∧ d.minBits = s.ports.minBits ∧ d.base = 2 ^ s.ports.minBits.toNat
      ∧ d.codeWidth.toNat = s.ports.minBits.toNat + 1
      ∧ d.ceiling.toNat = 2 ^ (s.ports.minBits.toNat + 1)
      ∧ d.nextFree.toNat = 2 ^ s.ports.minBits.toNat ∧ d.full = false ∧ d.recycleCursor = 4095
      ∧ (∀ p, d.headAt p = none)
      ∧ d.pfx = (s.dict s.ports.dict).pfx ∧ d.trailing = (s.dict s.ports.dict).trailing
      ∧ d.link = (s.dict s.ports.dict).link

/-- 42_dictionary R131: DICT_WIDTH gives the least width, capped at 12, that holds `n`, and writes no state. -/
def Obligations.DictWidthIsLeastWidth : Prop :=
  ∀ s : State, ∃ w : BitVec 4, exec .dictWidth s = .next { s with ports := { s.ports with width := w } }
    ∧ w.toNat ≤ 12 ∧ (s.ports.freeSlot.toNat < 2 ^ w.toNat ∨ w.toNat = 12)
    ∧ ∀ v, v < w.toNat → 2 ^ v ≤ s.ports.freeSlot.toNat

/-- 42_dictionary R132: DICT_LOOKUP gives the first member of the prefix's bucket, most recent first, with
the byte as its trailing byte, and writes no state. -/
def Obligations.DictLookupFirstMatch : Prop :=
  ∀ s : State, exec .dictLookup s = .next { s with ports := { s.ports with
    code := (bucket (s.dict s.ports.dict) s.ports.pfx.toNat).find?
      (fun e => decide ((s.dict s.ports.dict).trailingAt e.toNat = s.ports.byte)) } }

/-- 42_dictionary R133: DICT_ELIGIBLE, combinational. -/
def Obligations.DictEligibleIsLeafOtherThanPrefix : Prop :=
  ∀ s : State, exec .dictEligible s = .next { s with ports := { s.ports with
    bit := decide ((s.dict s.ports.dict).headAt s.ports.slot.toNat = none)
      && decide (s.ports.slot ≠ s.ports.pfx) } }

/-- 42_dictionary R134: DICT_NEXT_SLOT is the next free slot while the table grows; once it is full, the first
slot after the cursor, on the circle `base .. 4095`, that may be recycled, and NONE when there is none. -/
def Obligations.DictNextSlotScansCircle : Prop :=
  ∀ s : State, ∀ d : Dict, d = s.dict s.ports.dict → minBitsLegal d.minBits →
    d.base ≤ d.recycleCursor.toNat → (d.full = false → d.nextFree.toNat < 4096) →
    ∃ r : Option Code, exec .dictNextSlot s = .next { s with ports := { s.ports with code := r } }
      ∧ (d.full = false → ∃ c, r = some c ∧ c.toNat = d.nextFree.toNat)
      ∧ (d.full = true → ∀ c, r = some c → ∃ k, 1 ≤ k ∧ k ≤ 4096 - d.base
          ∧ c.toNat = slotOnCircle d.base d.recycleCursor.toNat k
          ∧ recyclable d s.ports.pfx.toNat c.toNat
          ∧ ∀ j, 1 ≤ j → j < k →
              ¬ recyclable d s.ports.pfx.toNat (slotOnCircle d.base d.recycleCursor.toNat j))
      ∧ (d.full = true → r = none →
          ∀ x, d.base ≤ x → x < 4096 → ¬ recyclable d s.ports.pfx.toNat x)

/-- 42_dictionary R135: DICT_UNLINK takes a live slot out of the chain of its own prefix, keeps the order of the
others, and leaves every other chain, the slot's own fields and every register alone. -/
def Obligations.DictUnlinkRemovesSlot : Prop :=
  ∀ (s : State) (l : List Code), ∀ d : Dict, d = s.dict s.ports.dict →
    chainIs d (d.headAt (d.pfxAt s.ports.slot.toNat).toNat) l → l.Nodup → s.ports.slot ∈ l →
    l.length ≤ 4096 - d.base →
    ∃ d' : Dict, exec .dictUnlink s = .next (s.setDict s.ports.dict d')
      ∧ chainIs d' (d'.headAt (d.pfxAt s.ports.slot.toNat).toNat) (l.erase s.ports.slot)
      ∧ (∀ p, p ≠ (d.pfxAt s.ports.slot.toNat).toNat → d'.headAt p = d.headAt p)
      ∧ (∀ x, (∀ e ∈ l, e.toNat ≠ x) → d'.linkAt x = d.linkAt x)
      ∧ d'.linkAt s.ports.slot.toNat = d.linkAt s.ports.slot.toNat
      ∧ d' = { d with link := d'.link, head := d'.head }

/-- 42_dictionary R136, R137: a growth-phase insertion fills `next_free`, links the entry at the head of its
bucket, and grows the width as GROW says; nothing else changes. -/
def Obligations.DictInsertGrowth : Prop :=
  ∀ s : State, ∀ d : Dict, d = s.dict s.ports.dict → dictRegs d →
    d.full = false →
    ∃ (d' : Dict) (c : Code), exec .dictInsert s
        = .next ((s.setDict s.ports.dict d').setPorts { s.ports with code := some c })
      ∧ c.toNat = d.nextFree.toNat
      ∧ (∀ x, d'.pfxAt x = if x = c.toNat then s.ports.pfx.setWidth 16 else d.pfxAt x)
      ∧ (∀ x, d'.trailingAt x = if x = c.toNat then s.ports.byte else d.trailingAt x)
      ∧ (∀ x, d'.linkAt x = if x = c.toNat then d.headAt s.ports.pfx.toNat else d.linkAt x)
      ∧ (∀ p, d'.headAt p = if p = s.ports.pfx.toNat then some c else d.headAt p)
      ∧ d'.nextFree.toNat = d.nextFree.toNat + 1
      ∧ d'.codeWidth.toNat = (if d.nextFree.toNat + 1 = d.ceiling.toNat ∧ d.codeWidth.toNat < 12
          then d.codeWidth.toNat + 1 else d.codeWidth.toNat)
      ∧ d'.ceiling.toNat = (if d.nextFree.toNat + 1 = d.ceiling.toNat ∧ d.codeWidth.toNat < 12
          then 2 * d.ceiling.toNat else d.ceiling.toNat)
      ∧ d'.full = decide (d.nextFree.toNat + 1 = 4096)
      ∧ d'.minBits = d.minBits ∧ d'.recycleCursor = d.recycleCursor

/-- 42_dictionary R136: a recycling-phase insertion evicts the slot the scan chooses and puts the new entry there,
leaving the width, the ceiling and `next_free`; when no slot may be recycled it changes nothing. -/
def Obligations.DictInsertRecycling : Prop :=
  ∀ s : State, ∀ d : Dict, d = s.dict s.ports.dict → d.full = true →
    (dictNextSlot d s.ports.pfx = none →
      exec .dictInsert s = .next (s.setPorts { s.ports with code := none }))
    ∧ (∀ c, dictNextSlot d s.ports.pfx = some c →
        ∃ d' : Dict, exec .dictInsert s
            = .next ((s.setDict s.ports.dict d').setPorts { s.ports with code := some c })
          ∧ (∀ x, d'.pfxAt x = if x = c.toNat then s.ports.pfx.setWidth 16 else d.pfxAt x)
          ∧ (∀ x, d'.trailingAt x = if x = c.toNat then s.ports.byte else d.trailingAt x)
          ∧ (∀ x, d'.linkAt x = if x = c.toNat then (dictUnlink c d).headAt s.ports.pfx.toNat
              else (dictUnlink c d).linkAt x)
          ∧ (∀ p, d'.headAt p = if p = s.ports.pfx.toNat then some c else (dictUnlink c d).headAt p)
          ∧ d'.recycleCursor = c ∧ d'.nextFree = d.nextFree ∧ d'.codeWidth = d.codeWidth
          ∧ d'.ceiling = d.ceiling ∧ d'.full = true ∧ d'.minBits = d.minBits)

/-- 42_dictionary R139: DICT_READ_WIDTH is the table's width one insertion ahead: one bit wider exactly when the
next insertion reaches the ceiling, and 12 once the table is full. It writes no state. -/
def Obligations.DictReadWidthOneAhead : Prop :=
  ∀ s : State, ∀ d : Dict, d = s.dict s.ports.dict → dictRegs d →
    ∃ w : BitVec 4, exec .dictReadWidth s = .next { s with ports := { s.ports with width := w } }
      ∧ w.toNat = (if d.full = true then 12
          else if d.nextFree.toNat + 1 = d.ceiling.toNat ∧ d.codeWidth.toNat < 12
            then d.codeWidth.toNat + 1 else d.codeWidth.toNat)

/-! ### Compressor -/

/-- 43_compressor R160: COMP_PRESCAN gives 8 exactly when some source byte has its high bit set, else 7, and writes
no other state. -/
def Obligations.CompPrescanChoosesMode : Prop :=
  ∀ s : State, s.srcLen.toNat ≤ s.par.srcCap →
    ∃ mb : BitVec 4, exec .compPrescan s = .next { s with ports := { s.ports with minBits := mb } }
      ∧ ((∃ i, i < s.srcLen.toNat ∧ 0x80 ≤ (srcByte s i).toNat) → mb = 8)
      ∧ ((∀ i, i < s.srcLen.toNat → (srcByte s i).toNat < 0x80) → mb = 7)

/-- 43_compressor R161: COMP_START zeroes DST bytes `0 .. n+20` and no other, initialises DICT_C and the
compressor's registers, and leaves the rest. -/
def Obligations.CompStartInitialises : Prop :=
  ∀ s : State, s.srcLen.toNat + 21 ≤ s.par.dstCap → s.srcLen.toNat + 17 < 2 ^ 32 →
    ∃ t, exec .compStart s = .next t
      ∧ t = { s with dst := t.dst, dictC := dictInit s.ports.minBits s.dictC, comp := t.comp }
      ∧ (∀ a, dstByte t a = if a < s.srcLen.toNat + 21 then 0x00 else dstByte s a)
      ∧ t.comp.state = .awaitFirstByte ∧ t.comp.basecodeValid = false ∧ t.comp.srcIndex = 0
      ∧ t.comp.srcLen = s.srcLen ∧ t.comp.outBit.toNat = 136
      ∧ t.comp.capBits.toNat = 8 * (s.srcLen.toNat + 17) ∧ t.comp.basecode = s.comp.basecode

/-- 43_compressor R162: COMP_STEP_FIRST. -/
def Obligations.CompStepFirstTakesByte : Prop :=
  ∀ s : State,
    (s.comp.srcIndex = s.comp.srcLen →
      exec .compStepFirst s = .next { s with comp := { s.comp with state := .exhausted } })
    ∧ (s.comp.srcIndex ≠ s.comp.srcLen → 0 < srcSize s →
      exec .compStepFirst s = .next { s with comp := { s.comp with
        basecode := (srcByte s 0).setWidth 12, basecodeValid := true, srcIndex := 1
        state := .accumulate } })

/-- 43_compressor R163: COMP_STEP on a hit, on a miss whose code does not fit, and on a miss whose code fits: the
code's bits go to DST at `out_bit`, the entry is inserted, and nothing else changes. -/
def Obligations.CompStepConsumesByte : Prop :=
  ∀ s : State, ∀ b : Byte, ∀ w : Nat, b = srcByte s s.comp.srcIndex.toNat →
    w = s.dictC.codeWidth.toNat → s.comp.srcIndex.toNat < srcSize s →
    (∀ e, dictLookup s.dictC s.comp.basecode b = some e →
      exec .compStep s = .next { s with
        comp := { s.comp with basecode := e, srcIndex := s.comp.srcIndex + 1 } })
    ∧ (dictLookup s.dictC s.comp.basecode b = none →
        s.comp.capBits.toNat - s.comp.outBit.toNat < w →
        exec .compStep s = .next { s with comp := { s.comp with state := .failed } })
    ∧ (dictLookup s.dictC s.comp.basecode b = none →
        w ≤ s.comp.capBits.toNat - s.comp.outBit.toNat →
        s.comp.outBit.toNat / 8 + 4 ≤ s.par.dstCap →
        ∃ t, exec .compStep s = .next t
          ∧ t = { s with
              dst := t.dst, dictC := (dictInsert s.comp.basecode b s.dictC).2
              comp := { s.comp with
                basecode := b.setWidth 12, srcIndex := s.comp.srcIndex + 1
                outBit := BitVec.ofNat 35 (s.comp.outBit.toNat + w) } }
          ∧ ∀ k, bufBit .dst t k = (bufBit .dst s k || (decide (s.comp.outBit.toNat ≤ k)
              && s.comp.basecode.getLsbD (k - s.comp.outBit.toNat))))

/-- 43_compressor R164, R165: COMP_EMIT of `basecode`, and the last one, in COMP_FINISH: FAIL writes nothing (and
COMP_FINISH ends in FAILED); OK ORs the code's bits in at `out_bit`, advances it by the code width and writes
nothing else (and COMP_FINISH ends in EXHAUSTED). -/
def Obligations.CompEmitPacksCode : Prop :=
  ∀ s : State, ∀ w : Nat, w = s.dictC.codeWidth.toNat →
    (s.comp.capBits.toNat - s.comp.outBit.toNat < w →
      exec .compEmit s = .next { s with ports := { s.ports with bit := false } }
      ∧ exec .compFinish s = .next { s with comp := { s.comp with state := .failed } })
    ∧ (w ≤ s.comp.capBits.toNat - s.comp.outBit.toNat → s.comp.outBit.toNat / 8 + 4 ≤ s.par.dstCap →
        ∃ t u, exec .compEmit s = .next t ∧ exec .compFinish s = .next u
          ∧ t = { s with
              dst := t.dst, ports := { s.ports with bit := true }
              comp := { s.comp with outBit := BitVec.ofNat 35 (s.comp.outBit.toNat + w) } }
          ∧ u = { s with
              dst := t.dst
              comp := { s.comp with
                state := .exhausted, outBit := BitVec.ofNat 35 (s.comp.outBit.toNat + w) } }
          ∧ ∀ k, bufBit .dst t k = (bufBit .dst s k || (decide (s.comp.outBit.toNat ≤ k)
              && s.comp.basecode.getLsbD (k - s.comp.outBit.toNat))))

/-! ### Decompressor -/

/-- 44_decompressor R190: DEC_START. -/
def Obligations.DecStartInitialises : Prop :=
  ∀ s : State, ∃ t, exec .decStart s = .next t
    ∧ t = { s with dictD := dictInit (if s.hdr.ctype = 2 then 7 else 8) s.dictD, dec := t.dec }
    ∧ t.dec.state = .awaitFirstCode ∧ t.dec.prevValid = false ∧ t.dec.inBit.toNat = 136
    ∧ t.dec.budgetBits.toNat = 8 * s.hdr.cs.toNat ∧ t.dec.outIndex = 0 ∧ t.dec.expSize = s.hdr.es
    ∧ t.dec.sp = 0
    ∧ t.dec = { s.dec with
        state := t.dec.state, prevValid := t.dec.prevValid, inBit := t.dec.inBit
        budgetBits := t.dec.budgetBits, outIndex := t.dec.outIndex, expSize := t.dec.expSize
        sp := t.dec.sp }

/-- 44_decompressor R191: DEC_READ ends decoding when the output is full or too few bits are left, and otherwise
reads one code of DICT_READ_WIDTH bits, least significant first, and advances `in_bit`. -/
def Obligations.DecReadNextCode : Prop :=
  ∀ s : State, ∀ w : Nat, w = dictReadWidth s.dictD →
    ((s.dec.outIndex = s.dec.expSize ∨ s.dec.budgetBits.toNat - s.dec.inBit.toNat < w) →
      exec .decRead s = .next { s with
        dec := { s.dec with state := .done }, ports := { s.ports with code := none } })
    ∧ (s.dec.outIndex ≠ s.dec.expSize → w ≤ s.dec.budgetBits.toNat - s.dec.inBit.toNat →
        (∀ j, j < w → (s.dec.inBit.toNat + j) / 8 < srcSize s) →
        ∃ c : Code, exec .decRead s = .next { s with
            acc := c.setWidth 32
            dec := { s.dec with
              inBit := BitVec.ofNat 35 (s.dec.inBit.toNat + w), curCode := c }
            ports := { s.ports with code := some c } }
          ∧ ∀ j, j < 12 →
              c.getLsbD j = (decide (j < w) && bufBit .src s (s.dec.inBit.toNat + j)))

/-- 44_decompressor R192: DEC_FIRST. -/
def Obligations.DecFirstTakesLiteral : Prop :=
  ∀ s : State,
    (s.dictD.base ≤ s.dec.curCode.toNat →
      exec .decFirst s = .next { s with dec := { s.dec with state := .error } })
    ∧ (s.dec.curCode.toNat < s.dictD.base → s.dec.outIndex.toNat < s.par.dstCap →
        ∃ t, exec .decFirst s = .next t
          ∧ t = { s with
              dst := t.dst
              dec := { s.dec with
                outIndex := 1, firstByte := s.dec.curCode.setWidth 8, prevCode := s.dec.curCode
                prevValid := true, state := .awaitNextCode } }
          ∧ ∀ a, dstByte t a
              = if a = s.dec.outIndex.toNat then s.dec.curCode.setWidth 8 else dstByte s a)

/-- 44_decompressor R193: DEC_CLASSIFY. That an UNDEFINED code leaves the latch `xcode` is the model's inference (log
entry 28, DEDUCED). -/
def Obligations.DecClassifyKinds : Prop :=
  ∀ s : State,
    (dictNextSlot s.dictD s.dec.prevCode = some s.dec.curCode →
      exec .decClassify s = .next { s with
        ports := { s.ports with kind := .self, xcode := s.dec.prevCode } })
    ∧ (dictNextSlot s.dictD s.dec.prevCode ≠ some s.dec.curCode → s.dictD.full = false →
        s.dictD.nextFree.toNat < s.dec.curCode.toNat →
        exec .decClassify s = .next { s with
          dec := { s.dec with state := .error }, ports := { s.ports with kind := .undefined } })
    ∧ (dictNextSlot s.dictD s.dec.prevCode ≠ some s.dec.curCode →
        (s.dictD.full = true ∨ s.dec.curCode.toNat ≤ s.dictD.nextFree.toNat) →
        exec .decClassify s = .next { s with
          ports := { s.ports with kind := .direct, xcode := s.dec.curCode } })

/-- 44_decompressor R194: DEC_EXPAND leaves on the stack the expansion of the code read backwards, over the first
byte of the previous expansion when the code is SELF, and the expansion's first byte in `first_byte`; an
expansion that does not fit on the stack ends in ERROR. -/
def Obligations.DecExpandFillsStack : Prop :=
  ∀ (s : State) (bs out : List Byte),
    expansionRev s.dictD (4096 - s.dictD.base) s.ports.xcode.toNat = some bs →
    out = (if s.ports.kind = .self then [s.dec.firstByte] else []) ++ bs →
    (out.length ≤ 4096 →
      ∃ t, exec .decExpand s = .next t
        ∧ t = { s with dec := { s.dec with
            stack := t.dec.stack, sp := t.dec.sp, firstByte := t.dec.firstByte } }
        ∧ stackBytes t.dec = out ∧ some t.dec.firstByte = bs.getLast?)
    ∧ (4096 < out.length →
      ∃ t, exec .decExpand s = .next t
        ∧ t = { s with dec := { s.dec with stack := t.dec.stack, sp := 4096, state := .error } }
        ∧ stackBytes t.dec = out.take 4096)

/-- 44_decompressor R195: an expansion that would pass the declared size ends in ERROR, with no byte of it written
and the dictionary unchanged; one that fits goes on to DEC_INSERT. -/
def Obligations.RoomCheckBeforeInsert : Prop :=
  ∀ s : State, s.seq = .dRun → s.dec.state ≠ .error →
    (s.dec.expSize.toNat < s.dec.outIndex.toNat + s.dec.sp.toNat →
      sequenceNext .decExpand s
        = { s with dec := { s.dec with state := .error }, op := some (opcodeOf .decEnd) })
    ∧ (s.dec.outIndex.toNat + s.dec.sp.toNat ≤ s.dec.expSize.toNat →
        sequenceNext .decExpand s = { s with op := some (opcodeOf .decInsert) })

/-- 44_decompressor R196: DEC_INSERT. -/
def Obligations.DecInsertMirrorsCompressor : Prop :=
  ∀ s : State, exec .decInsert s = .next { s with
    dictD := (dictInsert s.dec.prevCode s.dec.firstByte s.dictD).2
    dec := { s.dec with prevCode := s.dec.curCode, state := .emitFromStack } }

/-- 44_decompressor R197: DEC_POP moves the whole stack to DST, the top first, and writes no other byte. -/
def Obligations.DecPopEmptiesStack : Prop :=
  ∀ s : State, s.dec.outIndex.toNat + s.dec.sp.toNat ≤ s.par.dstCap →
    s.dec.outIndex.toNat + s.dec.sp.toNat < 2 ^ 32 →
    ∃ t, exec .decPop s = .next t
      ∧ t = { s with dst := t.dst, dec := { s.dec with
          sp := 0, state := .awaitNextCode
          outIndex := BitVec.ofNat 32 (s.dec.outIndex.toNat + s.dec.sp.toNat) } }
      ∧ ∀ a, dstByte t a
          = if s.dec.outIndex.toNat ≤ a ∧ a < s.dec.outIndex.toNat + s.dec.sp.toNat then
              (stackBytes s.dec).reverse.getD (a - s.dec.outIndex.toNat) 0
            else dstByte s a

/-- 44_decompressor R198: DEC_END. -/
def Obligations.DecEndDecides : Prop :=
  ∀ s : State,
    (s.dec.state = .done → s.dec.outIndex = s.dec.expSize →
      exec .decEnd s = .next { s with ports := { s.ports with result := .ok } })
    ∧ ((s.dec.state ≠ .done ∨ s.dec.outIndex ≠ s.dec.expSize) →
      exec .decEnd s = .next { s with ports := { s.ports with result := .framing } })

/-! ### Container -/

/-- 45_container R230, 30_encoding R85, 20_memory R63: the header CONT_WRITE_HEADER writes, and that it writes DST
bytes 0 to 16 only. -/
def Obligations.ContWriteHeaderBytes : Prop :=
  ∀ s : State, 17 ≤ s.par.dstCap →
    ∃ t, exec .contWriteHeader s = .next t ∧ t = { s with dst := t.dst }
      ∧ word32At (dstByte t) 0 = s.hdr.cs.toNat ∧ word32At (dstByte t) 4 = 0
      ∧ word32At (dstByte t) 8 = s.hdr.es.toNat ∧ word32At (dstByte t) 12 = 0
      ∧ dstByte t 16 = s.hdr.ctype ∧ ∀ a, 17 ≤ a → dstByte t a = dstByte s a

/-- 45_container R231: CONT_STORED writes the header and the source bytes, and no other byte. -/
def Obligations.ContStoredCopiesSource : Prop :=
  ∀ s : State, ∀ n : Nat, n = s.comp.srcLen.toNat → n ≤ srcSize s → n + 17 ≤ s.par.dstCap →
    n + 17 < 2 ^ 32 →
    ∃ t, exec .contStored s = .next t
      ∧ t = { s with dst := t.dst, ports := { s.ports with length := BitVec.ofNat 32 (n + 17) } }
      ∧ word32At (dstByte t) 0 = n + 17 ∧ word32At (dstByte t) 4 = 0 ∧ word32At (dstByte t) 8 = n
      ∧ word32At (dstByte t) 12 = 0 ∧ dstByte t 16 = 1
      ∧ (∀ i, i < n → dstByte t (17 + i) = srcByte s i)
      ∧ ∀ a, n + 17 ≤ a → dstByte t a = dstByte s a

/-- 45_container R232, 20_memory R63: CONT_PARSE_HEADER. -/
def Obligations.ContParseHeaderFields : Prop :=
  ∀ s : State, 17 ≤ srcSize s →
    ∃ h : Header, exec .contParseHeader s = .next { s with hdr := h }
      ∧ h.cs.toNat = word32At (srcByte s) 0 ∧ h.csHi.toNat = word32At (srcByte s) 4
      ∧ h.es.toNat = word32At (srcByte s) 8 ∧ h.esHi.toNat = word32At (srcByte s) 12
      ∧ h.ctype = srcByte s 16

/-- 45_container R233: CONT_VALIDATE's checks, in their order, the first that fails deciding; `_hi` words are not
checked (30_encoding R90). Only the result changes when check 1 or 2 refuses; after them the five header registers
hold the container's header. -/
def Obligations.ContValidateOrder : Prop :=
  ∀ s : State, ∀ L cs es ty : Nat, L = s.srcLen.toNat → cs = word32At (srcByte s) 0 →
    es = word32At (srcByte s) 8 → ty = (srcByte s 16).toNat →
    ∃ t, exec .contValidate s = .next t
      ∧ t = { s with hdr := t.hdr, ports := { s.ports with result := t.ports.result } }
      ∧ ((s.par.srcCap < L ∨ L < 17) → t.hdr = s.hdr)
      ∧ t.ports.result
          = (if s.par.srcCap < L then .resource
             else if L < 17 then .framing
             else if ty ≠ 1 ∧ ty ≠ 2 ∧ ty ≠ 3 then .malformed
             else if s.par.expandedSizeCeiling ≤ es then .malformed
             else if cs ≠ L then .framing
             else if ty = 1 ∧ cs ≠ es + 17 then .framing
             else if s.par.dstCap < es then .resource
             else .ok)
      ∧ (L ≤ s.par.srcCap → 17 ≤ L →
          t.hdr.cs.toNat = cs ∧ t.hdr.csHi.toNat = word32At (srcByte s) 4 ∧ t.hdr.es.toNat = es
            ∧ t.hdr.esHi.toNat = word32At (srcByte s) 12 ∧ t.hdr.ctype.toNat = ty)

/-- 45_container R234: CONT_STORED_COPY. -/
def Obligations.ContStoredCopyCopiesPayload : Prop :=
  ∀ s : State, 17 + s.hdr.es.toNat ≤ srcSize s → s.hdr.es.toNat ≤ s.par.dstCap →
    ∃ t, exec .contStoredCopy s = .next t
      ∧ t = { s with dst := t.dst, ports := { s.ports with length := s.hdr.es } }
      ∧ (∀ i, i < s.hdr.es.toNat → dstByte t i = srcByte s (17 + i))
      ∧ ∀ a, s.hdr.es.toNat ≤ a → dstByte t a = dstByte s a

/-! ### The host commands -/

/-- 45_container R240, R241, 60_exceptions R267: COMPRESS always ends. It is refused with RESOURCE, before it writes
anything, when MAX_SRC_LEN, SRC or DST cannot hold the source or the container; else it completes with OK, from
every state: a container with the header the spec gives, no longer than the stored form, whose length only a
STORED container or a coded one whose codes fill the capacity to within 7 bits reaches. -/
def Obligations.CompressAlwaysCompletes : Prop :=
  ∀ s : State, ∀ n : Nat, n = s.srcLen.toNat → s.par.maxSrcLen ≤ 2 ^ 32 - 18 →
    (s.par.maxSrcLen < n ∨ s.par.srcCap < n ∨ s.par.dstCap < n + 21 →
      ∃ t, exec .compress s = .next t ∧ ended .resource t
        ∧ t = { s with status := t.status, resultLen := 0, seq := .idle })
    ∧ (n ≤ s.par.maxSrcLen → n ≤ s.par.srcCap → n + 21 ≤ s.par.dstCap →
      ∃ t, exec .compress s = .next t ∧ ended .ok t
        ∧ 17 ≤ t.resultLen.toNat ∧ t.resultLen.toNat ≤ n + 17
        ∧ word32At (dstByte t) 0 = t.resultLen.toNat ∧ word32At (dstByte t) 4 = 0
        ∧ word32At (dstByte t) 8 = n ∧ word32At (dstByte t) 12 = 0
        ∧ (t.resultLen.toNat = n + 17 ↔
            dstByte t 16 = 1 ∨ t.comp.capBits.toNat - t.comp.outBit.toNat ≤ 7)
        ∧ t = { s with
            status := t.status, resultLen := t.resultLen, seq := .idle, dst := t.dst
            dictC := t.dictC, comp := t.comp, hdr := t.hdr, ports := t.ports })

/-- 45_container R242, R231: the type tag of COMPRESS's container: 1 for the stored form, which holds the source
verbatim; 2 for a coded source without a byte at or above 0x80; 3 for a coded source with one. -/
def Obligations.CompressModeAndStoredForm : Prop :=
  ∀ s t : State, s.par.maxSrcLen ≤ 2 ^ 32 - 18 → exec .compress s = .next t → ended .ok t →
    (dstByte t 16 = 1 ∧ t.comp.state = .failed
        ∧ ∀ i, i < s.srcLen.toNat → dstByte t (17 + i) = srcByte s i)
    ∨ (dstByte t 16 = 2 ∧ t.comp.state = .exhausted
        ∧ ∀ i, i < s.srcLen.toNat → (srcByte s i).toNat < 0x80)
    ∨ (dstByte t 16 = 3 ∧ t.comp.state = .exhausted
        ∧ ∃ i, i < s.srcLen.toNat ∧ 0x80 ≤ (srcByte s i).toNat)

/-- 20_memory R78: after COMPRESS every DST byte from RESULT_LEN up to byte `n + 20` is zero and every later byte is
unchanged. -/
def Obligations.CompressLeavesZerosPastOutput : Prop :=
  ∀ s t : State, s.par.maxSrcLen ≤ 2 ^ 32 - 18 → exec .compress s = .next t → ended .ok t →
    (∀ a, t.resultLen.toNat ≤ a → a < s.srcLen.toNat + 21 → dstByte t a = 0x00)
      ∧ ∀ a, s.srcLen.toNat + 21 ≤ a → dstByte t a = dstByte s a

/-- 45_container R244: COMPRESS is a function of the source bytes alone: whatever the dictionaries, DST and every
other register held before, the same source gives the same result and the same container. -/
def Obligations.CompressDependsOnSourceOnly : Prop :=
  ∀ s s' t t' : State, s.par = s'.par → s.par.maxSrcLen ≤ 2 ^ 32 - 18 → s.srcLen = s'.srcLen →
    (∀ i, i < s.srcLen.toNat → srcByte s i = srcByte s' i) →
    exec .compress s = .next t → exec .compress s' = .next t' →
    t.status = t'.status ∧ t.resultLen = t'.resultLen
      ∧ ∀ a, a < t.resultLen.toNat → dstByte t a = dstByte t' a

/-- 45_container R249: DECOMPRESS always ends, from every state and on every container: it never leaves the engine
stuck or busy. -/
def Obligations.DecompressAlwaysEnds : Prop :=
  ∀ s : State, ∃ (t : State) (r : ResultCode), exec .decompress s = .next t ∧ ended r t
    ∧ (r = .ok ∨ r = .malformed ∨ r = .framing ∨ r = .resource)
    ∧ (r = .ok → t.resultLen = t.hdr.es) ∧ (r ≠ .ok → t.resultLen = 0)

/-- 20_memory R78, R79, 45_container R247: what DECOMPRESS leaves of DST and of the rest: nothing beyond the declared
size is written, and nothing at all when the header is refused. -/
def Obligations.DecompressLeavesRest : Prop :=
  ∀ s t : State, exec .decompress s = .next t →
    t = { s with
        status := t.status, resultLen := t.resultLen, seq := .idle, dst := t.dst, dictD := t.dictD
        dec := t.dec, hdr := t.hdr, acc := t.acc, ports := t.ports, free := t.free }
    ∧ (∀ a, word32At (srcByte s) 8 ≤ a → dstByte t a = dstByte s a)
    ∧ (∀ u, exec .contValidate s = .next u → u.ports.result ≠ .ok →
        ended u.ports.result t ∧ t.dst = s.dst ∧ t.resultLen = 0)

/-- 45_container R247, R234: DECOMPRESS of a well-formed STORED container gives back its payload. -/
def Obligations.DecompressStoredGivesPayload : Prop :=
  ∀ s : State, ∀ n : Nat, s.srcLen.toNat = n + 17 → n + 17 ≤ s.par.srcCap → n ≤ s.par.dstCap →
    n < s.par.expandedSizeCeiling → srcByte s 16 = 1 → word32At (srcByte s) 0 = n + 17 →
    word32At (srcByte s) 8 = n →
    ∃ t, exec .decompress s = .next t ∧ ended .ok t ∧ t.resultLen.toNat = n
      ∧ ∀ i, i < n → dstByte t i = srcByte s (17 + i)

/-- 45_container R255: the round-trip law. COMPRESS, COPYBACK and DECOMPRESS give every source below the ceiling
back, coded or stored. -/
def Obligations.RoundTrip : Prop :=
  ∀ s t u : State, s.par.maxSrcLen ≤ 2 ^ 32 - 18 → s.srcLen.toNat ≤ s.par.maxSrcLen →
    s.srcLen.toNat < s.par.expandedSizeCeiling → s.srcLen.toNat + 21 ≤ s.par.srcCap →
    s.srcLen.toNat + 21 ≤ s.par.dstCap →
    exec .compress s = .next t → hostLine .copyback t = .next u →
    ∃ v, exec .decompress u = .next v ∧ ended .ok v ∧ v.resultLen = s.srcLen
      ∧ ∀ i, i < s.srcLen.toNat → dstByte v i = srcByte s i

/-- 45_container R256: above the ceiling a source still compresses, and DECOMPRESS rejects its container with
MALFORMED. -/
def Obligations.RoundTripFailsAboveCeiling : Prop :=
  ∀ s t u : State, s.par.maxSrcLen ≤ 2 ^ 32 - 18 → s.srcLen.toNat ≤ s.par.maxSrcLen →
    s.par.expandedSizeCeiling ≤ s.srcLen.toNat → s.srcLen.toNat + 21 ≤ s.par.srcCap →
    s.srcLen.toNat + 21 ≤ s.par.dstCap →
    exec .compress s = .next t → hostLine .copyback t = .next u →
    ended .ok t ∧ ∃ v, exec .decompress u = .next v ∧ ended .malformed v ∧ v.resultLen = 0

/-- 00_scope R17 (D5), 43_compressor R167, 44_decompressor R199, 45_container R240, R247: taken rule by rule, a
COMPRESS or a DECOMPRESS that an engine that is not stuck has accepted reaches exactly the state that the whole command
gives in one step. -/
def Obligations.RuleStepsReachCommandResult : Prop :=
  ∀ s t : State, s.par.maxSrcLen ≤ 2 ^ 32 - 18 → s.stuck = none → s.op = none → s.busy = true →
    s.seq = .idle → s.host = [] →
    (s.cmd = 0x01 → exec .compress s = .next t → ∃ k, core.run k s = .next t)
      ∧ (s.cmd = 0x02 → exec .decompress s = .next t → ∃ k, core.run k s = .next t)

/-! ### Whole-machine rules -/

/-- 10_state R54, R26, R25, 20_memory R60, 00_scope R13: no internal operation writes a register the host can see,
SRC, SRC_LEN, SEQ, the parameters or the host's lines, though it may get the engine stuck (60_exceptions R278); and
no move of the engine, whatever it runs, writes SRC, SRC_LEN, CMD, the parameters or the host's lines. -/
def Obligations.EngineLeavesHostState : Prop :=
  (∀ (i : Instr) (s t : State), isCommand i = false → exec i s = .next t →
    t = { s with
        dst := t.dst, dictC := t.dictC, dictD := t.dictD, comp := t.comp, dec := t.dec, hdr := t.hdr
        acc := t.acc, stuck := t.stuck, ports := t.ports })
  ∧ ∀ s t : State, engineStep s = .next t →
    t.src = s.src ∧ t.srcLen = s.srcLen ∧ t.cmd = s.cmd ∧ t.par = s.par ∧ t.host = s.host

/-- 60_exceptions R278, R261, 20_memory R71: no operation is refused by the model, and the only faults of an operation
are an engine write to SRC (log entry 22) and, for a host command only, the loop bound (log entry 21). An
operation that gets the engine stuck leaves STATUS as it was, so BUSY stays 1, and every other register the host can
see (R71 says this of BUSY; the rest is the model's inference, log entry 10, DEDUCED); and from then on, while BUSY = 1, no step of the block changes anything but the lines the host has left and
what its last read returned, until a RESET line, which frees the engine. -/
def Obligations.StuckEngineWaitsForReset : Prop :=
  (∀ (i : Instr) (s : State),
    (∀ r, exec i s ≠ .refused r)
      ∧ (∀ f, exec i s = .fault f → f = .srcReadOnly ∨ (f = .loopBound ∧ isCommand i = true))
      ∧ ∀ t, exec i s = .next t → t.stuck ≠ s.stuck →
          t.stuck ≠ none ∧ t.status = s.status ∧ t.resultLen = s.resultLen ∧ t.cmd = s.cmd
            ∧ t.srcLen = s.srcLen ∧ t.src = s.src)
  ∧ ∀ s t : State, s.stuck ≠ none → step s = .next t →
      (s.host.head? = some .reset → t.stuck = none ∧ t.status = 0x00)
        ∧ (s.host.head? ≠ some .reset → s.busy = true → t = { s with host := t.host, busData := t.busData })

/-- The canonical form of every table and memory (log entry 2's representation) is kept by every step, and with it
the bounds SRC_CAP, DST_CAP and 4096: no step ever lists a byte or an entry outside its memory or array. -/
def Obligations.CanonicalFormKept : Prop :=
  ∀ s t : State, canonical s = true → step s = .next t → canonical t = true

/-- 10_state R21: STATUS stays legal: reserved bits zero, BUSY and DONE never both 1, RESULT a code that can be
produced. -/
def Obligations.StatusLegalKept : Prop :=
  ∀ s t : State, statusLegal s.status → step s = .next t → statusLegal t.status

/-- 42_dictionary R143, 10_state R38 (d), R28 to R32: in both instances, once initialised, the width, the ceiling,
`next_free` and `full` agree after every step. -/
def Obligations.WidthInvariantKept : Prop :=
  ∀ s t : State, widthsLegal s → step s = .next t → widthsLegal t

/-- The three invariants hold at reset. STATUS is 0x00 as the spec says; the rest rests on values that the spec
leaves unspecified and the model chose: empty lists for the memories and arrays (log entry 2), MIN_BITS 0, with
which neither dictionary counts as initialised (log entry 1), and 7 in the latch for MIN_BITS (log entry 4). -/
def Obligations.InvariantsHoldAtReset : Prop :=
  canonical State.reset = true ∧ statusLegal State.reset.status ∧ widthsLegal State.reset
end

