-- ==== Sys2Proof/Laws/State.lean ====
section
/-! SUPPORT. One lemma for each field under each named update of the state, true by rfl, so that no
proof unfolds an update. -/

namespace Sys2Proof.Machine

open Sys2Proof

@[simp] theorem State.setStatus_par (v : Byte) (s : State) : (s.setStatus v).par = s.par := rfl
@[simp] theorem State.setStatus_status (v : Byte) (s : State) : (s.setStatus v).status = v := rfl
@[simp] theorem State.setStatus_resultLen (v : Byte) (s : State) : (s.setStatus v).resultLen = s.resultLen := rfl
@[simp] theorem State.setStatus_seq (v : Byte) (s : State) : (s.setStatus v).seq = s.seq := rfl
@[simp] theorem State.setStatus_cmd (v : Byte) (s : State) : (s.setStatus v).cmd = s.cmd := rfl
@[simp] theorem State.setStatus_srcLen (v : Byte) (s : State) : (s.setStatus v).srcLen = s.srcLen := rfl
@[simp] theorem State.setStatus_src (v : Byte) (s : State) : (s.setStatus v).src = s.src := rfl
@[simp] theorem State.setStatus_dst (v : Byte) (s : State) : (s.setStatus v).dst = s.dst := rfl
@[simp] theorem State.setStatus_dictC (v : Byte) (s : State) : (s.setStatus v).dictC = s.dictC := rfl
@[simp] theorem State.setStatus_dictD (v : Byte) (s : State) : (s.setStatus v).dictD = s.dictD := rfl
@[simp] theorem State.setStatus_comp (v : Byte) (s : State) : (s.setStatus v).comp = s.comp := rfl
@[simp] theorem State.setStatus_dec (v : Byte) (s : State) : (s.setStatus v).dec = s.dec := rfl
@[simp] theorem State.setStatus_hdr (v : Byte) (s : State) : (s.setStatus v).hdr = s.hdr := rfl
@[simp] theorem State.setStatus_acc (v : Byte) (s : State) : (s.setStatus v).acc = s.acc := rfl
@[simp] theorem State.setStatus_stuck (v : Byte) (s : State) : (s.setStatus v).stuck = s.stuck := rfl
@[simp] theorem State.setStatus_ports (v : Byte) (s : State) : (s.setStatus v).ports = s.ports := rfl
@[simp] theorem State.setStatus_op (v : Byte) (s : State) : (s.setStatus v).op = s.op := rfl
@[simp] theorem State.setStatus_host (v : Byte) (s : State) : (s.setStatus v).host = s.host := rfl
@[simp] theorem State.setStatus_busData (v : Byte) (s : State) : (s.setStatus v).busData = s.busData := rfl
@[simp] theorem State.setStatus_turn (v : Byte) (s : State) : (s.setStatus v).turn = s.turn := rfl
@[simp] theorem State.setStatus_free (v : Byte) (s : State) : (s.setStatus v).free = s.free := rfl
@[simp] theorem State.setStatus_busy (v : Byte) (s : State) : (s.setStatus v).busy = statusBusy v := rfl
@[simp] theorem State.setStatus_done (v : Byte) (s : State) : (s.setStatus v).done = statusDone v := rfl

@[simp] theorem State.setResultLen_par (v : Word32) (s : State) : (s.setResultLen v).par = s.par := rfl
@[simp] theorem State.setResultLen_status (v : Word32) (s : State) : (s.setResultLen v).status = s.status := rfl
@[simp] theorem State.setResultLen_resultLen (v : Word32) (s : State) : (s.setResultLen v).resultLen = v := rfl
@[simp] theorem State.setResultLen_seq (v : Word32) (s : State) : (s.setResultLen v).seq = s.seq := rfl
@[simp] theorem State.setResultLen_cmd (v : Word32) (s : State) : (s.setResultLen v).cmd = s.cmd := rfl
@[simp] theorem State.setResultLen_srcLen (v : Word32) (s : State) : (s.setResultLen v).srcLen = s.srcLen := rfl
@[simp] theorem State.setResultLen_src (v : Word32) (s : State) : (s.setResultLen v).src = s.src := rfl
@[simp] theorem State.setResultLen_dst (v : Word32) (s : State) : (s.setResultLen v).dst = s.dst := rfl
@[simp] theorem State.setResultLen_dictC (v : Word32) (s : State) : (s.setResultLen v).dictC = s.dictC := rfl
@[simp] theorem State.setResultLen_dictD (v : Word32) (s : State) : (s.setResultLen v).dictD = s.dictD := rfl
@[simp] theorem State.setResultLen_comp (v : Word32) (s : State) : (s.setResultLen v).comp = s.comp := rfl
@[simp] theorem State.setResultLen_dec (v : Word32) (s : State) : (s.setResultLen v).dec = s.dec := rfl
@[simp] theorem State.setResultLen_hdr (v : Word32) (s : State) : (s.setResultLen v).hdr = s.hdr := rfl
@[simp] theorem State.setResultLen_acc (v : Word32) (s : State) : (s.setResultLen v).acc = s.acc := rfl
@[simp] theorem State.setResultLen_stuck (v : Word32) (s : State) : (s.setResultLen v).stuck = s.stuck := rfl
@[simp] theorem State.setResultLen_ports (v : Word32) (s : State) : (s.setResultLen v).ports = s.ports := rfl
@[simp] theorem State.setResultLen_op (v : Word32) (s : State) : (s.setResultLen v).op = s.op := rfl
@[simp] theorem State.setResultLen_host (v : Word32) (s : State) : (s.setResultLen v).host = s.host := rfl
@[simp] theorem State.setResultLen_busData (v : Word32) (s : State) : (s.setResultLen v).busData = s.busData := rfl
@[simp] theorem State.setResultLen_turn (v : Word32) (s : State) : (s.setResultLen v).turn = s.turn := rfl
@[simp] theorem State.setResultLen_free (v : Word32) (s : State) : (s.setResultLen v).free = s.free := rfl
@[simp] theorem State.setResultLen_busy (v : Word32) (s : State) : (s.setResultLen v).busy = s.busy := rfl
@[simp] theorem State.setResultLen_done (v : Word32) (s : State) : (s.setResultLen v).done = s.done := rfl

@[simp] theorem State.setSeq_par (v : Seq) (s : State) : (s.setSeq v).par = s.par := rfl
@[simp] theorem State.setSeq_status (v : Seq) (s : State) : (s.setSeq v).status = s.status := rfl
@[simp] theorem State.setSeq_resultLen (v : Seq) (s : State) : (s.setSeq v).resultLen = s.resultLen := rfl
@[simp] theorem State.setSeq_seq (v : Seq) (s : State) : (s.setSeq v).seq = v := rfl
@[simp] theorem State.setSeq_cmd (v : Seq) (s : State) : (s.setSeq v).cmd = s.cmd := rfl
@[simp] theorem State.setSeq_srcLen (v : Seq) (s : State) : (s.setSeq v).srcLen = s.srcLen := rfl
@[simp] theorem State.setSeq_src (v : Seq) (s : State) : (s.setSeq v).src = s.src := rfl
@[simp] theorem State.setSeq_dst (v : Seq) (s : State) : (s.setSeq v).dst = s.dst := rfl
@[simp] theorem State.setSeq_dictC (v : Seq) (s : State) : (s.setSeq v).dictC = s.dictC := rfl
@[simp] theorem State.setSeq_dictD (v : Seq) (s : State) : (s.setSeq v).dictD = s.dictD := rfl
@[simp] theorem State.setSeq_comp (v : Seq) (s : State) : (s.setSeq v).comp = s.comp := rfl
@[simp] theorem State.setSeq_dec (v : Seq) (s : State) : (s.setSeq v).dec = s.dec := rfl
@[simp] theorem State.setSeq_hdr (v : Seq) (s : State) : (s.setSeq v).hdr = s.hdr := rfl
@[simp] theorem State.setSeq_acc (v : Seq) (s : State) : (s.setSeq v).acc = s.acc := rfl
@[simp] theorem State.setSeq_stuck (v : Seq) (s : State) : (s.setSeq v).stuck = s.stuck := rfl
@[simp] theorem State.setSeq_ports (v : Seq) (s : State) : (s.setSeq v).ports = s.ports := rfl
@[simp] theorem State.setSeq_op (v : Seq) (s : State) : (s.setSeq v).op = s.op := rfl
@[simp] theorem State.setSeq_host (v : Seq) (s : State) : (s.setSeq v).host = s.host := rfl
@[simp] theorem State.setSeq_busData (v : Seq) (s : State) : (s.setSeq v).busData = s.busData := rfl
@[simp] theorem State.setSeq_turn (v : Seq) (s : State) : (s.setSeq v).turn = s.turn := rfl
@[simp] theorem State.setSeq_free (v : Seq) (s : State) : (s.setSeq v).free = s.free := rfl
@[simp] theorem State.setSeq_busy (v : Seq) (s : State) : (s.setSeq v).busy = s.busy := rfl
@[simp] theorem State.setSeq_done (v : Seq) (s : State) : (s.setSeq v).done = s.done := rfl

@[simp] theorem State.setCmd_par (v : Byte) (s : State) : (s.setCmd v).par = s.par := rfl
@[simp] theorem State.setCmd_status (v : Byte) (s : State) : (s.setCmd v).status = s.status := rfl
@[simp] theorem State.setCmd_resultLen (v : Byte) (s : State) : (s.setCmd v).resultLen = s.resultLen := rfl
@[simp] theorem State.setCmd_seq (v : Byte) (s : State) : (s.setCmd v).seq = s.seq := rfl
@[simp] theorem State.setCmd_cmd (v : Byte) (s : State) : (s.setCmd v).cmd = v := rfl
@[simp] theorem State.setCmd_srcLen (v : Byte) (s : State) : (s.setCmd v).srcLen = s.srcLen := rfl
@[simp] theorem State.setCmd_src (v : Byte) (s : State) : (s.setCmd v).src = s.src := rfl
@[simp] theorem State.setCmd_dst (v : Byte) (s : State) : (s.setCmd v).dst = s.dst := rfl
@[simp] theorem State.setCmd_dictC (v : Byte) (s : State) : (s.setCmd v).dictC = s.dictC := rfl
@[simp] theorem State.setCmd_dictD (v : Byte) (s : State) : (s.setCmd v).dictD = s.dictD := rfl
@[simp] theorem State.setCmd_comp (v : Byte) (s : State) : (s.setCmd v).comp = s.comp := rfl
@[simp] theorem State.setCmd_dec (v : Byte) (s : State) : (s.setCmd v).dec = s.dec := rfl
@[simp] theorem State.setCmd_hdr (v : Byte) (s : State) : (s.setCmd v).hdr = s.hdr := rfl
@[simp] theorem State.setCmd_acc (v : Byte) (s : State) : (s.setCmd v).acc = s.acc := rfl
@[simp] theorem State.setCmd_stuck (v : Byte) (s : State) : (s.setCmd v).stuck = s.stuck := rfl
@[simp] theorem State.setCmd_ports (v : Byte) (s : State) : (s.setCmd v).ports = s.ports := rfl
@[simp] theorem State.setCmd_op (v : Byte) (s : State) : (s.setCmd v).op = s.op := rfl
@[simp] theorem State.setCmd_host (v : Byte) (s : State) : (s.setCmd v).host = s.host := rfl
@[simp] theorem State.setCmd_busData (v : Byte) (s : State) : (s.setCmd v).busData = s.busData := rfl
@[simp] theorem State.setCmd_turn (v : Byte) (s : State) : (s.setCmd v).turn = s.turn := rfl
@[simp] theorem State.setCmd_free (v : Byte) (s : State) : (s.setCmd v).free = s.free := rfl
@[simp] theorem State.setCmd_busy (v : Byte) (s : State) : (s.setCmd v).busy = s.busy := rfl
@[simp] theorem State.setCmd_done (v : Byte) (s : State) : (s.setCmd v).done = s.done := rfl

@[simp] theorem State.setSrcLen_par (v : Word32) (s : State) : (s.setSrcLen v).par = s.par := rfl
@[simp] theorem State.setSrcLen_status (v : Word32) (s : State) : (s.setSrcLen v).status = s.status := rfl
@[simp] theorem State.setSrcLen_resultLen (v : Word32) (s : State) : (s.setSrcLen v).resultLen = s.resultLen := rfl
@[simp] theorem State.setSrcLen_seq (v : Word32) (s : State) : (s.setSrcLen v).seq = s.seq := rfl
@[simp] theorem State.setSrcLen_cmd (v : Word32) (s : State) : (s.setSrcLen v).cmd = s.cmd := rfl
@[simp] theorem State.setSrcLen_srcLen (v : Word32) (s : State) : (s.setSrcLen v).srcLen = v := rfl
@[simp] theorem State.setSrcLen_src (v : Word32) (s : State) : (s.setSrcLen v).src = s.src := rfl
@[simp] theorem State.setSrcLen_dst (v : Word32) (s : State) : (s.setSrcLen v).dst = s.dst := rfl
@[simp] theorem State.setSrcLen_dictC (v : Word32) (s : State) : (s.setSrcLen v).dictC = s.dictC := rfl
@[simp] theorem State.setSrcLen_dictD (v : Word32) (s : State) : (s.setSrcLen v).dictD = s.dictD := rfl
@[simp] theorem State.setSrcLen_comp (v : Word32) (s : State) : (s.setSrcLen v).comp = s.comp := rfl
@[simp] theorem State.setSrcLen_dec (v : Word32) (s : State) : (s.setSrcLen v).dec = s.dec := rfl
@[simp] theorem State.setSrcLen_hdr (v : Word32) (s : State) : (s.setSrcLen v).hdr = s.hdr := rfl
@[simp] theorem State.setSrcLen_acc (v : Word32) (s : State) : (s.setSrcLen v).acc = s.acc := rfl
@[simp] theorem State.setSrcLen_stuck (v : Word32) (s : State) : (s.setSrcLen v).stuck = s.stuck := rfl
@[simp] theorem State.setSrcLen_ports (v : Word32) (s : State) : (s.setSrcLen v).ports = s.ports := rfl
@[simp] theorem State.setSrcLen_op (v : Word32) (s : State) : (s.setSrcLen v).op = s.op := rfl
@[simp] theorem State.setSrcLen_host (v : Word32) (s : State) : (s.setSrcLen v).host = s.host := rfl
@[simp] theorem State.setSrcLen_busData (v : Word32) (s : State) : (s.setSrcLen v).busData = s.busData := rfl
@[simp] theorem State.setSrcLen_turn (v : Word32) (s : State) : (s.setSrcLen v).turn = s.turn := rfl
@[simp] theorem State.setSrcLen_free (v : Word32) (s : State) : (s.setSrcLen v).free = s.free := rfl
@[simp] theorem State.setSrcLen_busy (v : Word32) (s : State) : (s.setSrcLen v).busy = s.busy := rfl
@[simp] theorem State.setSrcLen_done (v : Word32) (s : State) : (s.setSrcLen v).done = s.done := rfl

@[simp] theorem State.setSrc_par (v : List Host.Cell) (s : State) : (s.setSrc v).par = s.par := rfl
@[simp] theorem State.setSrc_status (v : List Host.Cell) (s : State) : (s.setSrc v).status = s.status := rfl
@[simp] theorem State.setSrc_resultLen (v : List Host.Cell) (s : State) : (s.setSrc v).resultLen = s.resultLen := rfl
@[simp] theorem State.setSrc_seq (v : List Host.Cell) (s : State) : (s.setSrc v).seq = s.seq := rfl
@[simp] theorem State.setSrc_cmd (v : List Host.Cell) (s : State) : (s.setSrc v).cmd = s.cmd := rfl
@[simp] theorem State.setSrc_srcLen (v : List Host.Cell) (s : State) : (s.setSrc v).srcLen = s.srcLen := rfl
@[simp] theorem State.setSrc_src (v : List Host.Cell) (s : State) : (s.setSrc v).src = v := rfl
@[simp] theorem State.setSrc_dst (v : List Host.Cell) (s : State) : (s.setSrc v).dst = s.dst := rfl
@[simp] theorem State.setSrc_dictC (v : List Host.Cell) (s : State) : (s.setSrc v).dictC = s.dictC := rfl
@[simp] theorem State.setSrc_dictD (v : List Host.Cell) (s : State) : (s.setSrc v).dictD = s.dictD := rfl
@[simp] theorem State.setSrc_comp (v : List Host.Cell) (s : State) : (s.setSrc v).comp = s.comp := rfl
@[simp] theorem State.setSrc_dec (v : List Host.Cell) (s : State) : (s.setSrc v).dec = s.dec := rfl
@[simp] theorem State.setSrc_hdr (v : List Host.Cell) (s : State) : (s.setSrc v).hdr = s.hdr := rfl
@[simp] theorem State.setSrc_acc (v : List Host.Cell) (s : State) : (s.setSrc v).acc = s.acc := rfl
@[simp] theorem State.setSrc_stuck (v : List Host.Cell) (s : State) : (s.setSrc v).stuck = s.stuck := rfl
@[simp] theorem State.setSrc_ports (v : List Host.Cell) (s : State) : (s.setSrc v).ports = s.ports := rfl
@[simp] theorem State.setSrc_op (v : List Host.Cell) (s : State) : (s.setSrc v).op = s.op := rfl
@[simp] theorem State.setSrc_host (v : List Host.Cell) (s : State) : (s.setSrc v).host = s.host := rfl
@[simp] theorem State.setSrc_busData (v : List Host.Cell) (s : State) : (s.setSrc v).busData = s.busData := rfl
@[simp] theorem State.setSrc_turn (v : List Host.Cell) (s : State) : (s.setSrc v).turn = s.turn := rfl
@[simp] theorem State.setSrc_free (v : List Host.Cell) (s : State) : (s.setSrc v).free = s.free := rfl
@[simp] theorem State.setSrc_busy (v : List Host.Cell) (s : State) : (s.setSrc v).busy = s.busy := rfl
@[simp] theorem State.setSrc_done (v : List Host.Cell) (s : State) : (s.setSrc v).done = s.done := rfl

@[simp] theorem State.setDst_par (v : List Host.Cell) (s : State) : (s.setDst v).par = s.par := rfl
@[simp] theorem State.setDst_status (v : List Host.Cell) (s : State) : (s.setDst v).status = s.status := rfl
@[simp] theorem State.setDst_resultLen (v : List Host.Cell) (s : State) : (s.setDst v).resultLen = s.resultLen := rfl
@[simp] theorem State.setDst_seq (v : List Host.Cell) (s : State) : (s.setDst v).seq = s.seq := rfl
@[simp] theorem State.setDst_cmd (v : List Host.Cell) (s : State) : (s.setDst v).cmd = s.cmd := rfl
@[simp] theorem State.setDst_srcLen (v : List Host.Cell) (s : State) : (s.setDst v).srcLen = s.srcLen := rfl
@[simp] theorem State.setDst_src (v : List Host.Cell) (s : State) : (s.setDst v).src = s.src := rfl
@[simp] theorem State.setDst_dst (v : List Host.Cell) (s : State) : (s.setDst v).dst = v := rfl
@[simp] theorem State.setDst_dictC (v : List Host.Cell) (s : State) : (s.setDst v).dictC = s.dictC := rfl
@[simp] theorem State.setDst_dictD (v : List Host.Cell) (s : State) : (s.setDst v).dictD = s.dictD := rfl
@[simp] theorem State.setDst_comp (v : List Host.Cell) (s : State) : (s.setDst v).comp = s.comp := rfl
@[simp] theorem State.setDst_dec (v : List Host.Cell) (s : State) : (s.setDst v).dec = s.dec := rfl
@[simp] theorem State.setDst_hdr (v : List Host.Cell) (s : State) : (s.setDst v).hdr = s.hdr := rfl
@[simp] theorem State.setDst_acc (v : List Host.Cell) (s : State) : (s.setDst v).acc = s.acc := rfl
@[simp] theorem State.setDst_stuck (v : List Host.Cell) (s : State) : (s.setDst v).stuck = s.stuck := rfl
@[simp] theorem State.setDst_ports (v : List Host.Cell) (s : State) : (s.setDst v).ports = s.ports := rfl
@[simp] theorem State.setDst_op (v : List Host.Cell) (s : State) : (s.setDst v).op = s.op := rfl
@[simp] theorem State.setDst_host (v : List Host.Cell) (s : State) : (s.setDst v).host = s.host := rfl
@[simp] theorem State.setDst_busData (v : List Host.Cell) (s : State) : (s.setDst v).busData = s.busData := rfl
@[simp] theorem State.setDst_turn (v : List Host.Cell) (s : State) : (s.setDst v).turn = s.turn := rfl
@[simp] theorem State.setDst_free (v : List Host.Cell) (s : State) : (s.setDst v).free = s.free := rfl
@[simp] theorem State.setDst_busy (v : List Host.Cell) (s : State) : (s.setDst v).busy = s.busy := rfl
@[simp] theorem State.setDst_done (v : List Host.Cell) (s : State) : (s.setDst v).done = s.done := rfl

@[simp] theorem State.setDictC_par (v : Dict) (s : State) : (s.setDictC v).par = s.par := rfl
@[simp] theorem State.setDictC_status (v : Dict) (s : State) : (s.setDictC v).status = s.status := rfl
@[simp] theorem State.setDictC_resultLen (v : Dict) (s : State) : (s.setDictC v).resultLen = s.resultLen := rfl
@[simp] theorem State.setDictC_seq (v : Dict) (s : State) : (s.setDictC v).seq = s.seq := rfl
@[simp] theorem State.setDictC_cmd (v : Dict) (s : State) : (s.setDictC v).cmd = s.cmd := rfl
@[simp] theorem State.setDictC_srcLen (v : Dict) (s : State) : (s.setDictC v).srcLen = s.srcLen := rfl
@[simp] theorem State.setDictC_src (v : Dict) (s : State) : (s.setDictC v).src = s.src := rfl
@[simp] theorem State.setDictC_dst (v : Dict) (s : State) : (s.setDictC v).dst = s.dst := rfl
@[simp] theorem State.setDictC_dictC (v : Dict) (s : State) : (s.setDictC v).dictC = v := rfl
@[simp] theorem State.setDictC_dictD (v : Dict) (s : State) : (s.setDictC v).dictD = s.dictD := rfl
@[simp] theorem State.setDictC_comp (v : Dict) (s : State) : (s.setDictC v).comp = s.comp := rfl
@[simp] theorem State.setDictC_dec (v : Dict) (s : State) : (s.setDictC v).dec = s.dec := rfl
@[simp] theorem State.setDictC_hdr (v : Dict) (s : State) : (s.setDictC v).hdr = s.hdr := rfl
@[simp] theorem State.setDictC_acc (v : Dict) (s : State) : (s.setDictC v).acc = s.acc := rfl
@[simp] theorem State.setDictC_stuck (v : Dict) (s : State) : (s.setDictC v).stuck = s.stuck := rfl
@[simp] theorem State.setDictC_ports (v : Dict) (s : State) : (s.setDictC v).ports = s.ports := rfl
@[simp] theorem State.setDictC_op (v : Dict) (s : State) : (s.setDictC v).op = s.op := rfl
@[simp] theorem State.setDictC_host (v : Dict) (s : State) : (s.setDictC v).host = s.host := rfl
@[simp] theorem State.setDictC_busData (v : Dict) (s : State) : (s.setDictC v).busData = s.busData := rfl
@[simp] theorem State.setDictC_turn (v : Dict) (s : State) : (s.setDictC v).turn = s.turn := rfl
@[simp] theorem State.setDictC_free (v : Dict) (s : State) : (s.setDictC v).free = s.free := rfl
@[simp] theorem State.setDictC_busy (v : Dict) (s : State) : (s.setDictC v).busy = s.busy := rfl
@[simp] theorem State.setDictC_done (v : Dict) (s : State) : (s.setDictC v).done = s.done := rfl

@[simp] theorem State.setDictD_par (v : Dict) (s : State) : (s.setDictD v).par = s.par := rfl
@[simp] theorem State.setDictD_status (v : Dict) (s : State) : (s.setDictD v).status = s.status := rfl
@[simp] theorem State.setDictD_resultLen (v : Dict) (s : State) : (s.setDictD v).resultLen = s.resultLen := rfl
@[simp] theorem State.setDictD_seq (v : Dict) (s : State) : (s.setDictD v).seq = s.seq := rfl
@[simp] theorem State.setDictD_cmd (v : Dict) (s : State) : (s.setDictD v).cmd = s.cmd := rfl
@[simp] theorem State.setDictD_srcLen (v : Dict) (s : State) : (s.setDictD v).srcLen = s.srcLen := rfl
@[simp] theorem State.setDictD_src (v : Dict) (s : State) : (s.setDictD v).src = s.src := rfl
@[simp] theorem State.setDictD_dst (v : Dict) (s : State) : (s.setDictD v).dst = s.dst := rfl
@[simp] theorem State.setDictD_dictC (v : Dict) (s : State) : (s.setDictD v).dictC = s.dictC := rfl
@[simp] theorem State.setDictD_dictD (v : Dict) (s : State) : (s.setDictD v).dictD = v := rfl
@[simp] theorem State.setDictD_comp (v : Dict) (s : State) : (s.setDictD v).comp = s.comp := rfl
@[simp] theorem State.setDictD_dec (v : Dict) (s : State) : (s.setDictD v).dec = s.dec := rfl
@[simp] theorem State.setDictD_hdr (v : Dict) (s : State) : (s.setDictD v).hdr = s.hdr := rfl
@[simp] theorem State.setDictD_acc (v : Dict) (s : State) : (s.setDictD v).acc = s.acc := rfl
@[simp] theorem State.setDictD_stuck (v : Dict) (s : State) : (s.setDictD v).stuck = s.stuck := rfl
@[simp] theorem State.setDictD_ports (v : Dict) (s : State) : (s.setDictD v).ports = s.ports := rfl
@[simp] theorem State.setDictD_op (v : Dict) (s : State) : (s.setDictD v).op = s.op := rfl
@[simp] theorem State.setDictD_host (v : Dict) (s : State) : (s.setDictD v).host = s.host := rfl
@[simp] theorem State.setDictD_busData (v : Dict) (s : State) : (s.setDictD v).busData = s.busData := rfl
@[simp] theorem State.setDictD_turn (v : Dict) (s : State) : (s.setDictD v).turn = s.turn := rfl
@[simp] theorem State.setDictD_free (v : Dict) (s : State) : (s.setDictD v).free = s.free := rfl
@[simp] theorem State.setDictD_busy (v : Dict) (s : State) : (s.setDictD v).busy = s.busy := rfl
@[simp] theorem State.setDictD_done (v : Dict) (s : State) : (s.setDictD v).done = s.done := rfl

@[simp] theorem State.setComp_par (v : Comp) (s : State) : (s.setComp v).par = s.par := rfl
@[simp] theorem State.setComp_status (v : Comp) (s : State) : (s.setComp v).status = s.status := rfl
@[simp] theorem State.setComp_resultLen (v : Comp) (s : State) : (s.setComp v).resultLen = s.resultLen := rfl
@[simp] theorem State.setComp_seq (v : Comp) (s : State) : (s.setComp v).seq = s.seq := rfl
@[simp] theorem State.setComp_cmd (v : Comp) (s : State) : (s.setComp v).cmd = s.cmd := rfl
@[simp] theorem State.setComp_srcLen (v : Comp) (s : State) : (s.setComp v).srcLen = s.srcLen := rfl
@[simp] theorem State.setComp_src (v : Comp) (s : State) : (s.setComp v).src = s.src := rfl
@[simp] theorem State.setComp_dst (v : Comp) (s : State) : (s.setComp v).dst = s.dst := rfl
@[simp] theorem State.setComp_dictC (v : Comp) (s : State) : (s.setComp v).dictC = s.dictC := rfl
@[simp] theorem State.setComp_dictD (v : Comp) (s : State) : (s.setComp v).dictD = s.dictD := rfl
@[simp] theorem State.setComp_comp (v : Comp) (s : State) : (s.setComp v).comp = v := rfl
@[simp] theorem State.setComp_dec (v : Comp) (s : State) : (s.setComp v).dec = s.dec := rfl
@[simp] theorem State.setComp_hdr (v : Comp) (s : State) : (s.setComp v).hdr = s.hdr := rfl
@[simp] theorem State.setComp_acc (v : Comp) (s : State) : (s.setComp v).acc = s.acc := rfl
@[simp] theorem State.setComp_stuck (v : Comp) (s : State) : (s.setComp v).stuck = s.stuck := rfl
@[simp] theorem State.setComp_ports (v : Comp) (s : State) : (s.setComp v).ports = s.ports := rfl
@[simp] theorem State.setComp_op (v : Comp) (s : State) : (s.setComp v).op = s.op := rfl
@[simp] theorem State.setComp_host (v : Comp) (s : State) : (s.setComp v).host = s.host := rfl
@[simp] theorem State.setComp_busData (v : Comp) (s : State) : (s.setComp v).busData = s.busData := rfl
@[simp] theorem State.setComp_turn (v : Comp) (s : State) : (s.setComp v).turn = s.turn := rfl
@[simp] theorem State.setComp_free (v : Comp) (s : State) : (s.setComp v).free = s.free := rfl
@[simp] theorem State.setComp_busy (v : Comp) (s : State) : (s.setComp v).busy = s.busy := rfl
@[simp] theorem State.setComp_done (v : Comp) (s : State) : (s.setComp v).done = s.done := rfl

@[simp] theorem State.setDec_par (v : Dec) (s : State) : (s.setDec v).par = s.par := rfl
@[simp] theorem State.setDec_status (v : Dec) (s : State) : (s.setDec v).status = s.status := rfl
@[simp] theorem State.setDec_resultLen (v : Dec) (s : State) : (s.setDec v).resultLen = s.resultLen := rfl
@[simp] theorem State.setDec_seq (v : Dec) (s : State) : (s.setDec v).seq = s.seq := rfl
@[simp] theorem State.setDec_cmd (v : Dec) (s : State) : (s.setDec v).cmd = s.cmd := rfl
@[simp] theorem State.setDec_srcLen (v : Dec) (s : State) : (s.setDec v).srcLen = s.srcLen := rfl
@[simp] theorem State.setDec_src (v : Dec) (s : State) : (s.setDec v).src = s.src := rfl
@[simp] theorem State.setDec_dst (v : Dec) (s : State) : (s.setDec v).dst = s.dst := rfl
@[simp] theorem State.setDec_dictC (v : Dec) (s : State) : (s.setDec v).dictC = s.dictC := rfl
@[simp] theorem State.setDec_dictD (v : Dec) (s : State) : (s.setDec v).dictD = s.dictD := rfl
@[simp] theorem State.setDec_comp (v : Dec) (s : State) : (s.setDec v).comp = s.comp := rfl
@[simp] theorem State.setDec_dec (v : Dec) (s : State) : (s.setDec v).dec = v := rfl
@[simp] theorem State.setDec_hdr (v : Dec) (s : State) : (s.setDec v).hdr = s.hdr := rfl
@[simp] theorem State.setDec_acc (v : Dec) (s : State) : (s.setDec v).acc = s.acc := rfl
@[simp] theorem State.setDec_stuck (v : Dec) (s : State) : (s.setDec v).stuck = s.stuck := rfl
@[simp] theorem State.setDec_ports (v : Dec) (s : State) : (s.setDec v).ports = s.ports := rfl
@[simp] theorem State.setDec_op (v : Dec) (s : State) : (s.setDec v).op = s.op := rfl
@[simp] theorem State.setDec_host (v : Dec) (s : State) : (s.setDec v).host = s.host := rfl
@[simp] theorem State.setDec_busData (v : Dec) (s : State) : (s.setDec v).busData = s.busData := rfl
@[simp] theorem State.setDec_turn (v : Dec) (s : State) : (s.setDec v).turn = s.turn := rfl
@[simp] theorem State.setDec_free (v : Dec) (s : State) : (s.setDec v).free = s.free := rfl
@[simp] theorem State.setDec_busy (v : Dec) (s : State) : (s.setDec v).busy = s.busy := rfl
@[simp] theorem State.setDec_done (v : Dec) (s : State) : (s.setDec v).done = s.done := rfl

@[simp] theorem State.setHdr_par (v : Header) (s : State) : (s.setHdr v).par = s.par := rfl
@[simp] theorem State.setHdr_status (v : Header) (s : State) : (s.setHdr v).status = s.status := rfl
@[simp] theorem State.setHdr_resultLen (v : Header) (s : State) : (s.setHdr v).resultLen = s.resultLen := rfl
@[simp] theorem State.setHdr_seq (v : Header) (s : State) : (s.setHdr v).seq = s.seq := rfl
@[simp] theorem State.setHdr_cmd (v : Header) (s : State) : (s.setHdr v).cmd = s.cmd := rfl
@[simp] theorem State.setHdr_srcLen (v : Header) (s : State) : (s.setHdr v).srcLen = s.srcLen := rfl
@[simp] theorem State.setHdr_src (v : Header) (s : State) : (s.setHdr v).src = s.src := rfl
@[simp] theorem State.setHdr_dst (v : Header) (s : State) : (s.setHdr v).dst = s.dst := rfl
@[simp] theorem State.setHdr_dictC (v : Header) (s : State) : (s.setHdr v).dictC = s.dictC := rfl
@[simp] theorem State.setHdr_dictD (v : Header) (s : State) : (s.setHdr v).dictD = s.dictD := rfl
@[simp] theorem State.setHdr_comp (v : Header) (s : State) : (s.setHdr v).comp = s.comp := rfl
@[simp] theorem State.setHdr_dec (v : Header) (s : State) : (s.setHdr v).dec = s.dec := rfl
@[simp] theorem State.setHdr_hdr (v : Header) (s : State) : (s.setHdr v).hdr = v := rfl
@[simp] theorem State.setHdr_acc (v : Header) (s : State) : (s.setHdr v).acc = s.acc := rfl
@[simp] theorem State.setHdr_stuck (v : Header) (s : State) : (s.setHdr v).stuck = s.stuck := rfl
@[simp] theorem State.setHdr_ports (v : Header) (s : State) : (s.setHdr v).ports = s.ports := rfl
@[simp] theorem State.setHdr_op (v : Header) (s : State) : (s.setHdr v).op = s.op := rfl
@[simp] theorem State.setHdr_host (v : Header) (s : State) : (s.setHdr v).host = s.host := rfl
@[simp] theorem State.setHdr_busData (v : Header) (s : State) : (s.setHdr v).busData = s.busData := rfl
@[simp] theorem State.setHdr_turn (v : Header) (s : State) : (s.setHdr v).turn = s.turn := rfl
@[simp] theorem State.setHdr_free (v : Header) (s : State) : (s.setHdr v).free = s.free := rfl
@[simp] theorem State.setHdr_busy (v : Header) (s : State) : (s.setHdr v).busy = s.busy := rfl
@[simp] theorem State.setHdr_done (v : Header) (s : State) : (s.setHdr v).done = s.done := rfl

@[simp] theorem State.setAcc_par (v : Word32) (s : State) : (s.setAcc v).par = s.par := rfl
@[simp] theorem State.setAcc_status (v : Word32) (s : State) : (s.setAcc v).status = s.status := rfl
@[simp] theorem State.setAcc_resultLen (v : Word32) (s : State) : (s.setAcc v).resultLen = s.resultLen := rfl
@[simp] theorem State.setAcc_seq (v : Word32) (s : State) : (s.setAcc v).seq = s.seq := rfl
@[simp] theorem State.setAcc_cmd (v : Word32) (s : State) : (s.setAcc v).cmd = s.cmd := rfl
@[simp] theorem State.setAcc_srcLen (v : Word32) (s : State) : (s.setAcc v).srcLen = s.srcLen := rfl
@[simp] theorem State.setAcc_src (v : Word32) (s : State) : (s.setAcc v).src = s.src := rfl
@[simp] theorem State.setAcc_dst (v : Word32) (s : State) : (s.setAcc v).dst = s.dst := rfl
@[simp] theorem State.setAcc_dictC (v : Word32) (s : State) : (s.setAcc v).dictC = s.dictC := rfl
@[simp] theorem State.setAcc_dictD (v : Word32) (s : State) : (s.setAcc v).dictD = s.dictD := rfl
@[simp] theorem State.setAcc_comp (v : Word32) (s : State) : (s.setAcc v).comp = s.comp := rfl
@[simp] theorem State.setAcc_dec (v : Word32) (s : State) : (s.setAcc v).dec = s.dec := rfl
@[simp] theorem State.setAcc_hdr (v : Word32) (s : State) : (s.setAcc v).hdr = s.hdr := rfl
@[simp] theorem State.setAcc_acc (v : Word32) (s : State) : (s.setAcc v).acc = v := rfl
@[simp] theorem State.setAcc_stuck (v : Word32) (s : State) : (s.setAcc v).stuck = s.stuck := rfl
@[simp] theorem State.setAcc_ports (v : Word32) (s : State) : (s.setAcc v).ports = s.ports := rfl
@[simp] theorem State.setAcc_op (v : Word32) (s : State) : (s.setAcc v).op = s.op := rfl
@[simp] theorem State.setAcc_host (v : Word32) (s : State) : (s.setAcc v).host = s.host := rfl
@[simp] theorem State.setAcc_busData (v : Word32) (s : State) : (s.setAcc v).busData = s.busData := rfl
@[simp] theorem State.setAcc_turn (v : Word32) (s : State) : (s.setAcc v).turn = s.turn := rfl
@[simp] theorem State.setAcc_free (v : Word32) (s : State) : (s.setAcc v).free = s.free := rfl
@[simp] theorem State.setAcc_busy (v : Word32) (s : State) : (s.setAcc v).busy = s.busy := rfl
@[simp] theorem State.setAcc_done (v : Word32) (s : State) : (s.setAcc v).done = s.done := rfl

@[simp] theorem State.setStuck_par (v : Option Stuck) (s : State) : (s.setStuck v).par = s.par := rfl
@[simp] theorem State.setStuck_status (v : Option Stuck) (s : State) : (s.setStuck v).status = s.status := rfl
@[simp] theorem State.setStuck_resultLen (v : Option Stuck) (s : State) : (s.setStuck v).resultLen = s.resultLen := rfl
@[simp] theorem State.setStuck_seq (v : Option Stuck) (s : State) : (s.setStuck v).seq = s.seq := rfl
@[simp] theorem State.setStuck_cmd (v : Option Stuck) (s : State) : (s.setStuck v).cmd = s.cmd := rfl
@[simp] theorem State.setStuck_srcLen (v : Option Stuck) (s : State) : (s.setStuck v).srcLen = s.srcLen := rfl
@[simp] theorem State.setStuck_src (v : Option Stuck) (s : State) : (s.setStuck v).src = s.src := rfl
@[simp] theorem State.setStuck_dst (v : Option Stuck) (s : State) : (s.setStuck v).dst = s.dst := rfl
@[simp] theorem State.setStuck_dictC (v : Option Stuck) (s : State) : (s.setStuck v).dictC = s.dictC := rfl
@[simp] theorem State.setStuck_dictD (v : Option Stuck) (s : State) : (s.setStuck v).dictD = s.dictD := rfl
@[simp] theorem State.setStuck_comp (v : Option Stuck) (s : State) : (s.setStuck v).comp = s.comp := rfl
@[simp] theorem State.setStuck_dec (v : Option Stuck) (s : State) : (s.setStuck v).dec = s.dec := rfl
@[simp] theorem State.setStuck_hdr (v : Option Stuck) (s : State) : (s.setStuck v).hdr = s.hdr := rfl
@[simp] theorem State.setStuck_acc (v : Option Stuck) (s : State) : (s.setStuck v).acc = s.acc := rfl
@[simp] theorem State.setStuck_stuck (v : Option Stuck) (s : State) : (s.setStuck v).stuck = v := rfl
@[simp] theorem State.setStuck_ports (v : Option Stuck) (s : State) : (s.setStuck v).ports = s.ports := rfl
@[simp] theorem State.setStuck_op (v : Option Stuck) (s : State) : (s.setStuck v).op = s.op := rfl
@[simp] theorem State.setStuck_host (v : Option Stuck) (s : State) : (s.setStuck v).host = s.host := rfl
@[simp] theorem State.setStuck_busData (v : Option Stuck) (s : State) : (s.setStuck v).busData = s.busData := rfl
@[simp] theorem State.setStuck_turn (v : Option Stuck) (s : State) : (s.setStuck v).turn = s.turn := rfl
@[simp] theorem State.setStuck_free (v : Option Stuck) (s : State) : (s.setStuck v).free = s.free := rfl
@[simp] theorem State.setStuck_busy (v : Option Stuck) (s : State) : (s.setStuck v).busy = s.busy := rfl
@[simp] theorem State.setStuck_done (v : Option Stuck) (s : State) : (s.setStuck v).done = s.done := rfl

@[simp] theorem State.setPorts_par (v : Ports) (s : State) : (s.setPorts v).par = s.par := rfl
@[simp] theorem State.setPorts_status (v : Ports) (s : State) : (s.setPorts v).status = s.status := rfl
@[simp] theorem State.setPorts_resultLen (v : Ports) (s : State) : (s.setPorts v).resultLen = s.resultLen := rfl
@[simp] theorem State.setPorts_seq (v : Ports) (s : State) : (s.setPorts v).seq = s.seq := rfl
@[simp] theorem State.setPorts_cmd (v : Ports) (s : State) : (s.setPorts v).cmd = s.cmd := rfl
@[simp] theorem State.setPorts_srcLen (v : Ports) (s : State) : (s.setPorts v).srcLen = s.srcLen := rfl
@[simp] theorem State.setPorts_src (v : Ports) (s : State) : (s.setPorts v).src = s.src := rfl
@[simp] theorem State.setPorts_dst (v : Ports) (s : State) : (s.setPorts v).dst = s.dst := rfl
@[simp] theorem State.setPorts_dictC (v : Ports) (s : State) : (s.setPorts v).dictC = s.dictC := rfl
@[simp] theorem State.setPorts_dictD (v : Ports) (s : State) : (s.setPorts v).dictD = s.dictD := rfl
@[simp] theorem State.setPorts_comp (v : Ports) (s : State) : (s.setPorts v).comp = s.comp := rfl
@[simp] theorem State.setPorts_dec (v : Ports) (s : State) : (s.setPorts v).dec = s.dec := rfl
@[simp] theorem State.setPorts_hdr (v : Ports) (s : State) : (s.setPorts v).hdr = s.hdr := rfl
@[simp] theorem State.setPorts_acc (v : Ports) (s : State) : (s.setPorts v).acc = s.acc := rfl
@[simp] theorem State.setPorts_stuck (v : Ports) (s : State) : (s.setPorts v).stuck = s.stuck := rfl
@[simp] theorem State.setPorts_ports (v : Ports) (s : State) : (s.setPorts v).ports = v := rfl
@[simp] theorem State.setPorts_op (v : Ports) (s : State) : (s.setPorts v).op = s.op := rfl
@[simp] theorem State.setPorts_host (v : Ports) (s : State) : (s.setPorts v).host = s.host := rfl
@[simp] theorem State.setPorts_busData (v : Ports) (s : State) : (s.setPorts v).busData = s.busData := rfl
@[simp] theorem State.setPorts_turn (v : Ports) (s : State) : (s.setPorts v).turn = s.turn := rfl
@[simp] theorem State.setPorts_free (v : Ports) (s : State) : (s.setPorts v).free = s.free := rfl
@[simp] theorem State.setPorts_busy (v : Ports) (s : State) : (s.setPorts v).busy = s.busy := rfl
@[simp] theorem State.setPorts_done (v : Ports) (s : State) : (s.setPorts v).done = s.done := rfl

@[simp] theorem State.setOp_par (v : Option Byte) (s : State) : (s.setOp v).par = s.par := rfl
@[simp] theorem State.setOp_status (v : Option Byte) (s : State) : (s.setOp v).status = s.status := rfl
@[simp] theorem State.setOp_resultLen (v : Option Byte) (s : State) : (s.setOp v).resultLen = s.resultLen := rfl
@[simp] theorem State.setOp_seq (v : Option Byte) (s : State) : (s.setOp v).seq = s.seq := rfl
@[simp] theorem State.setOp_cmd (v : Option Byte) (s : State) : (s.setOp v).cmd = s.cmd := rfl
@[simp] theorem State.setOp_srcLen (v : Option Byte) (s : State) : (s.setOp v).srcLen = s.srcLen := rfl
@[simp] theorem State.setOp_src (v : Option Byte) (s : State) : (s.setOp v).src = s.src := rfl
@[simp] theorem State.setOp_dst (v : Option Byte) (s : State) : (s.setOp v).dst = s.dst := rfl
@[simp] theorem State.setOp_dictC (v : Option Byte) (s : State) : (s.setOp v).dictC = s.dictC := rfl
@[simp] theorem State.setOp_dictD (v : Option Byte) (s : State) : (s.setOp v).dictD = s.dictD := rfl
@[simp] theorem State.setOp_comp (v : Option Byte) (s : State) : (s.setOp v).comp = s.comp := rfl
@[simp] theorem State.setOp_dec (v : Option Byte) (s : State) : (s.setOp v).dec = s.dec := rfl
@[simp] theorem State.setOp_hdr (v : Option Byte) (s : State) : (s.setOp v).hdr = s.hdr := rfl
@[simp] theorem State.setOp_acc (v : Option Byte) (s : State) : (s.setOp v).acc = s.acc := rfl
@[simp] theorem State.setOp_stuck (v : Option Byte) (s : State) : (s.setOp v).stuck = s.stuck := rfl
@[simp] theorem State.setOp_ports (v : Option Byte) (s : State) : (s.setOp v).ports = s.ports := rfl
@[simp] theorem State.setOp_op (v : Option Byte) (s : State) : (s.setOp v).op = v := rfl
@[simp] theorem State.setOp_host (v : Option Byte) (s : State) : (s.setOp v).host = s.host := rfl
@[simp] theorem State.setOp_busData (v : Option Byte) (s : State) : (s.setOp v).busData = s.busData := rfl
@[simp] theorem State.setOp_turn (v : Option Byte) (s : State) : (s.setOp v).turn = s.turn := rfl
@[simp] theorem State.setOp_free (v : Option Byte) (s : State) : (s.setOp v).free = s.free := rfl
@[simp] theorem State.setOp_busy (v : Option Byte) (s : State) : (s.setOp v).busy = s.busy := rfl
@[simp] theorem State.setOp_done (v : Option Byte) (s : State) : (s.setOp v).done = s.done := rfl

@[simp] theorem State.setHost_par (v : List HostLine) (s : State) : (s.setHost v).par = s.par := rfl
@[simp] theorem State.setHost_status (v : List HostLine) (s : State) : (s.setHost v).status = s.status := rfl
@[simp] theorem State.setHost_resultLen (v : List HostLine) (s : State) : (s.setHost v).resultLen = s.resultLen := rfl
@[simp] theorem State.setHost_seq (v : List HostLine) (s : State) : (s.setHost v).seq = s.seq := rfl
@[simp] theorem State.setHost_cmd (v : List HostLine) (s : State) : (s.setHost v).cmd = s.cmd := rfl
@[simp] theorem State.setHost_srcLen (v : List HostLine) (s : State) : (s.setHost v).srcLen = s.srcLen := rfl
@[simp] theorem State.setHost_src (v : List HostLine) (s : State) : (s.setHost v).src = s.src := rfl
@[simp] theorem State.setHost_dst (v : List HostLine) (s : State) : (s.setHost v).dst = s.dst := rfl
@[simp] theorem State.setHost_dictC (v : List HostLine) (s : State) : (s.setHost v).dictC = s.dictC := rfl
@[simp] theorem State.setHost_dictD (v : List HostLine) (s : State) : (s.setHost v).dictD = s.dictD := rfl
@[simp] theorem State.setHost_comp (v : List HostLine) (s : State) : (s.setHost v).comp = s.comp := rfl
@[simp] theorem State.setHost_dec (v : List HostLine) (s : State) : (s.setHost v).dec = s.dec := rfl
@[simp] theorem State.setHost_hdr (v : List HostLine) (s : State) : (s.setHost v).hdr = s.hdr := rfl
@[simp] theorem State.setHost_acc (v : List HostLine) (s : State) : (s.setHost v).acc = s.acc := rfl
@[simp] theorem State.setHost_stuck (v : List HostLine) (s : State) : (s.setHost v).stuck = s.stuck := rfl
@[simp] theorem State.setHost_ports (v : List HostLine) (s : State) : (s.setHost v).ports = s.ports := rfl
@[simp] theorem State.setHost_op (v : List HostLine) (s : State) : (s.setHost v).op = s.op := rfl
@[simp] theorem State.setHost_host (v : List HostLine) (s : State) : (s.setHost v).host = v := rfl
@[simp] theorem State.setHost_busData (v : List HostLine) (s : State) : (s.setHost v).busData = s.busData := rfl
@[simp] theorem State.setHost_turn (v : List HostLine) (s : State) : (s.setHost v).turn = s.turn := rfl
@[simp] theorem State.setHost_free (v : List HostLine) (s : State) : (s.setHost v).free = s.free := rfl
@[simp] theorem State.setHost_busy (v : List HostLine) (s : State) : (s.setHost v).busy = s.busy := rfl
@[simp] theorem State.setHost_done (v : List HostLine) (s : State) : (s.setHost v).done = s.done := rfl

@[simp] theorem State.setBusData_par (v : Word32) (s : State) : (s.setBusData v).par = s.par := rfl
@[simp] theorem State.setBusData_status (v : Word32) (s : State) : (s.setBusData v).status = s.status := rfl
@[simp] theorem State.setBusData_resultLen (v : Word32) (s : State) : (s.setBusData v).resultLen = s.resultLen := rfl
@[simp] theorem State.setBusData_seq (v : Word32) (s : State) : (s.setBusData v).seq = s.seq := rfl
@[simp] theorem State.setBusData_cmd (v : Word32) (s : State) : (s.setBusData v).cmd = s.cmd := rfl
@[simp] theorem State.setBusData_srcLen (v : Word32) (s : State) : (s.setBusData v).srcLen = s.srcLen := rfl
@[simp] theorem State.setBusData_src (v : Word32) (s : State) : (s.setBusData v).src = s.src := rfl
@[simp] theorem State.setBusData_dst (v : Word32) (s : State) : (s.setBusData v).dst = s.dst := rfl
@[simp] theorem State.setBusData_dictC (v : Word32) (s : State) : (s.setBusData v).dictC = s.dictC := rfl
@[simp] theorem State.setBusData_dictD (v : Word32) (s : State) : (s.setBusData v).dictD = s.dictD := rfl
@[simp] theorem State.setBusData_comp (v : Word32) (s : State) : (s.setBusData v).comp = s.comp := rfl
@[simp] theorem State.setBusData_dec (v : Word32) (s : State) : (s.setBusData v).dec = s.dec := rfl
@[simp] theorem State.setBusData_hdr (v : Word32) (s : State) : (s.setBusData v).hdr = s.hdr := rfl
@[simp] theorem State.setBusData_acc (v : Word32) (s : State) : (s.setBusData v).acc = s.acc := rfl
@[simp] theorem State.setBusData_stuck (v : Word32) (s : State) : (s.setBusData v).stuck = s.stuck := rfl
@[simp] theorem State.setBusData_ports (v : Word32) (s : State) : (s.setBusData v).ports = s.ports := rfl
@[simp] theorem State.setBusData_op (v : Word32) (s : State) : (s.setBusData v).op = s.op := rfl
@[simp] theorem State.setBusData_host (v : Word32) (s : State) : (s.setBusData v).host = s.host := rfl
@[simp] theorem State.setBusData_busData (v : Word32) (s : State) : (s.setBusData v).busData = v := rfl
@[simp] theorem State.setBusData_turn (v : Word32) (s : State) : (s.setBusData v).turn = s.turn := rfl
@[simp] theorem State.setBusData_free (v : Word32) (s : State) : (s.setBusData v).free = s.free := rfl
@[simp] theorem State.setBusData_busy (v : Word32) (s : State) : (s.setBusData v).busy = s.busy := rfl
@[simp] theorem State.setBusData_done (v : Word32) (s : State) : (s.setBusData v).done = s.done := rfl

@[simp] theorem State.setTurn_par (v : Nat) (s : State) : (s.setTurn v).par = s.par := rfl
@[simp] theorem State.setTurn_status (v : Nat) (s : State) : (s.setTurn v).status = s.status := rfl
@[simp] theorem State.setTurn_resultLen (v : Nat) (s : State) : (s.setTurn v).resultLen = s.resultLen := rfl
@[simp] theorem State.setTurn_seq (v : Nat) (s : State) : (s.setTurn v).seq = s.seq := rfl
@[simp] theorem State.setTurn_cmd (v : Nat) (s : State) : (s.setTurn v).cmd = s.cmd := rfl
@[simp] theorem State.setTurn_srcLen (v : Nat) (s : State) : (s.setTurn v).srcLen = s.srcLen := rfl
@[simp] theorem State.setTurn_src (v : Nat) (s : State) : (s.setTurn v).src = s.src := rfl
@[simp] theorem State.setTurn_dst (v : Nat) (s : State) : (s.setTurn v).dst = s.dst := rfl
@[simp] theorem State.setTurn_dictC (v : Nat) (s : State) : (s.setTurn v).dictC = s.dictC := rfl
@[simp] theorem State.setTurn_dictD (v : Nat) (s : State) : (s.setTurn v).dictD = s.dictD := rfl
@[simp] theorem State.setTurn_comp (v : Nat) (s : State) : (s.setTurn v).comp = s.comp := rfl
@[simp] theorem State.setTurn_dec (v : Nat) (s : State) : (s.setTurn v).dec = s.dec := rfl
@[simp] theorem State.setTurn_hdr (v : Nat) (s : State) : (s.setTurn v).hdr = s.hdr := rfl
@[simp] theorem State.setTurn_acc (v : Nat) (s : State) : (s.setTurn v).acc = s.acc := rfl
@[simp] theorem State.setTurn_stuck (v : Nat) (s : State) : (s.setTurn v).stuck = s.stuck := rfl
@[simp] theorem State.setTurn_ports (v : Nat) (s : State) : (s.setTurn v).ports = s.ports := rfl
@[simp] theorem State.setTurn_op (v : Nat) (s : State) : (s.setTurn v).op = s.op := rfl
@[simp] theorem State.setTurn_host (v : Nat) (s : State) : (s.setTurn v).host = s.host := rfl
@[simp] theorem State.setTurn_busData (v : Nat) (s : State) : (s.setTurn v).busData = s.busData := rfl
@[simp] theorem State.setTurn_turn (v : Nat) (s : State) : (s.setTurn v).turn = v := rfl
@[simp] theorem State.setTurn_free (v : Nat) (s : State) : (s.setTurn v).free = s.free := rfl
@[simp] theorem State.setTurn_busy (v : Nat) (s : State) : (s.setTurn v).busy = s.busy := rfl
@[simp] theorem State.setTurn_done (v : Nat) (s : State) : (s.setTurn v).done = s.done := rfl

@[simp] theorem State.setFree_par (v : Nat) (s : State) : (s.setFree v).par = s.par := rfl
@[simp] theorem State.setFree_status (v : Nat) (s : State) : (s.setFree v).status = s.status := rfl
@[simp] theorem State.setFree_resultLen (v : Nat) (s : State) : (s.setFree v).resultLen = s.resultLen := rfl
@[simp] theorem State.setFree_seq (v : Nat) (s : State) : (s.setFree v).seq = s.seq := rfl
@[simp] theorem State.setFree_cmd (v : Nat) (s : State) : (s.setFree v).cmd = s.cmd := rfl
@[simp] theorem State.setFree_srcLen (v : Nat) (s : State) : (s.setFree v).srcLen = s.srcLen := rfl
@[simp] theorem State.setFree_src (v : Nat) (s : State) : (s.setFree v).src = s.src := rfl
@[simp] theorem State.setFree_dst (v : Nat) (s : State) : (s.setFree v).dst = s.dst := rfl
@[simp] theorem State.setFree_dictC (v : Nat) (s : State) : (s.setFree v).dictC = s.dictC := rfl
@[simp] theorem State.setFree_dictD (v : Nat) (s : State) : (s.setFree v).dictD = s.dictD := rfl
@[simp] theorem State.setFree_comp (v : Nat) (s : State) : (s.setFree v).comp = s.comp := rfl
@[simp] theorem State.setFree_dec (v : Nat) (s : State) : (s.setFree v).dec = s.dec := rfl
@[simp] theorem State.setFree_hdr (v : Nat) (s : State) : (s.setFree v).hdr = s.hdr := rfl
@[simp] theorem State.setFree_acc (v : Nat) (s : State) : (s.setFree v).acc = s.acc := rfl
@[simp] theorem State.setFree_stuck (v : Nat) (s : State) : (s.setFree v).stuck = s.stuck := rfl
@[simp] theorem State.setFree_ports (v : Nat) (s : State) : (s.setFree v).ports = s.ports := rfl
@[simp] theorem State.setFree_op (v : Nat) (s : State) : (s.setFree v).op = s.op := rfl
@[simp] theorem State.setFree_host (v : Nat) (s : State) : (s.setFree v).host = s.host := rfl
@[simp] theorem State.setFree_busData (v : Nat) (s : State) : (s.setFree v).busData = s.busData := rfl
@[simp] theorem State.setFree_turn (v : Nat) (s : State) : (s.setFree v).turn = s.turn := rfl
@[simp] theorem State.setFree_free (v : Nat) (s : State) : (s.setFree v).free = v := rfl
@[simp] theorem State.setFree_busy (v : Nat) (s : State) : (s.setFree v).busy = s.busy := rfl
@[simp] theorem State.setFree_done (v : Nat) (s : State) : (s.setFree v).done = s.done := rfl

end Sys2Proof.Machine
end

