-- ==== Sys2Proof/Laws/Table.lean ====
section
/-! SUPPORT. The laws of tables and memories: a read after a write, the canonical form, and that equal
readings of canonical tables are equal tables. -/

namespace Sys2Proof.Machine

open Sys2Proof

variable {α : Type}

theorem Table.erase_eq_filter (m : List (Nat × α)) (i : Nat) :
    Table.erase m i = m.filter (fun c => decide (c.1 ≠ i)) := by
  induction m with
  | nil => rfl
  | cons c m ih =>
    obtain ⟨k, v⟩ := c
    by_cases h : k = i <;> simp [Table.erase, h, ih]

theorem Table.get_erase (d : α) (m : List (Nat × α)) (i j : Nat) :
    Table.get d (Table.erase m i) j = if i = j then d else Table.get d m j := by
  induction m with
  | nil => simp [Table.erase, Table.get]
  | cons c m ih =>
    obtain ⟨k, v⟩ := c
    by_cases h : k = i
    · subst h
      by_cases hj : k = j
      · subst hj; simpa [Table.erase] using ih
      · simpa [Table.erase, Table.get, hj] using ih
    · by_cases hj : k = j
      · subst hj
        have : ¬ i = k := fun e => h e.symm
        simp [Table.erase, Table.get, h, this]
      · simp [Table.erase, Table.get, h, hj, ih]

theorem Table.get_insert (d : α) (m : List (Nat × α)) (i : Nat) (v : α) (j : Nat)
    (hm : ∀ c ∈ m, c.1 ≠ i) :
    Table.get d (Table.insert i v m) j = if i = j then v else Table.get d m j := by
  induction m with
  | nil => simp [Table.insert, Table.get]
  | cons c m ih =>
    obtain ⟨k, w⟩ := c
    have hk : k ≠ i := hm (k, w) (by simp)
    have ih' := ih (fun c hc => hm c (by simp [hc]))
    by_cases hlt : i < k
    · simp [Table.insert, hlt, Table.get]
    · by_cases hj : k = j
      · subst hj
        have : ¬ i = k := fun e => hk e.symm
        simp [Table.insert, hlt, Table.get, this]
      · simp [Table.insert, hlt, Table.get, hj, ih']

theorem Table.mem_erase_ne (m : List (Nat × α)) (i : Nat) : ∀ c ∈ Table.erase m i, c.1 ≠ i := by
  intro c hc
  rw [Table.erase_eq_filter] at hc
  simpa using (List.mem_filter.mp hc).2

/-- A read after a write, at any index of any list. -/
theorem Table.get_put [DecidableEq α] (d : α) (m : List (Nat × α)) (i : Nat) (v : α) (j : Nat) :
    Table.get d (Table.put d m i v) j = if i = j then v else Table.get d m j := by
  unfold Table.put
  split
  · rename_i h; subst h; rw [Table.get_erase]
  · rw [Table.get_insert _ _ _ _ _ (Table.mem_erase_ne m i), Table.get_erase]
    split <;> rfl

/-- The canonical form, as sortedness and the absence of the unlisted value. -/
theorem Table.wf_iff [DecidableEq α] (d : α) (m : List (Nat × α)) :
    Table.wf d m = true ↔ m.Pairwise (fun a b => a.1 < b.1) ∧ ∀ c ∈ m, c.2 ≠ d := by
  induction m with
  | nil => simp [Table.wf]
  | cons c m ih =>
    cases m with
    | nil => simp [Table.wf]
    | cons c' m =>
      simp only [Table.wf, Bool.and_eq_true, decide_eq_true_eq]
      rw [ih]
      constructor
      · rintro ⟨⟨h1, h2⟩, h3, h4⟩
        refine ⟨List.pairwise_cons.mpr ⟨?_, h3⟩, ?_⟩
        · intro x hx
          rcases List.mem_cons.mp hx with rfl | hx
          · exact h2
          · exact Nat.lt_trans h2 ((List.pairwise_cons.mp h3).1 x hx)
        · intro x hx
          rcases List.mem_cons.mp hx with rfl | hx
          · exact h1
          · exact h4 x hx
      · rintro ⟨h1, h2⟩
        obtain ⟨h3, h4⟩ := List.pairwise_cons.mp h1
        exact ⟨⟨h2 c (by simp), h3 c' (by simp)⟩, h4, fun x hx => h2 x (by simp [hx])⟩

theorem Table.mem_insert (i : Nat) (v : α) (m : List (Nat × α)) (c : Nat × α) :
    c ∈ Table.insert i v m ↔ c = (i, v) ∨ c ∈ m := by
  induction m with
  | nil => simp [Table.insert]
  | cons e m ih =>
    obtain ⟨k, w⟩ := e
    by_cases h : i < k
    · simp [Table.insert, h]
    · simp only [Table.insert, h, if_false, List.mem_cons, ih]
      tauto

theorem Table.wf_erase [DecidableEq α] {d : α} {m : List (Nat × α)} (h : Table.wf d m = true)
    (i : Nat) : Table.wf d (Table.erase m i) = true := by
  rw [Table.wf_iff] at *
  rw [Table.erase_eq_filter]
  exact ⟨h.1.filter _, fun c hc => h.2 c (List.mem_filter.mp hc).1⟩

theorem Table.pairwise_insert {m : List (Nat × α)} (h : m.Pairwise (fun a b => a.1 < b.1))
    (i : Nat) (v : α) (hi : ∀ c ∈ m, c.1 ≠ i) :
    (Table.insert i v m).Pairwise (fun a b => a.1 < b.1) := by
  induction m with
  | nil => simp [Table.insert]
  | cons c m ih =>
    obtain ⟨k, w⟩ := c
    obtain ⟨h1, h2⟩ := List.pairwise_cons.mp h
    have hk : k ≠ i := hi (k, w) (by simp)
    by_cases hlt : i < k
    · simp only [Table.insert, hlt, if_true]
      refine List.pairwise_cons.mpr ⟨?_, h⟩
      intro x hx
      rcases List.mem_cons.mp hx with rfl | hx
      · exact hlt
      · exact Nat.lt_trans hlt (h1 x hx)
    · simp only [Table.insert, hlt, if_false]
      refine List.pairwise_cons.mpr ⟨?_, ih h2 (fun c hc => hi c (by simp [hc]))⟩
      intro x hx
      rcases (Table.mem_insert i v m x).mp hx with rfl | hx
      · show k < i; omega
      · exact h1 x hx

/-- A write keeps the canonical form. -/
theorem Table.wf_put [DecidableEq α] {d : α} {m : List (Nat × α)} (h : Table.wf d m = true)
    (i : Nat) (v : α) : Table.wf d (Table.put d m i v) = true := by
  unfold Table.put
  split
  · exact Table.wf_erase h i
  · rename_i hv
    have he := Table.wf_erase h i
    rw [Table.wf_iff] at he ⊢
    refine ⟨Table.pairwise_insert he.1 i v (Table.mem_erase_ne m i), ?_⟩
    intro c hc
    rcases (Table.mem_insert i v _ c).mp hc with rfl | hc
    · exact hv
    · exact he.2 c hc

theorem Table.get_of_lt (d : α) (m : List (Nat × α)) (i : Nat) (h : ∀ c ∈ m, i < c.1) :
    Table.get d m i = d := by
  induction m with
  | nil => rfl
  | cons c m ih =>
    obtain ⟨k, v⟩ := c
    have : i < k := h (k, v) (by simp)
    have hne : ¬ k = i := by omega
    simp [Table.get, hne, ih (fun c hc => h c (by simp [hc]))]

/-- Canonical tables that read the same are the same list. -/
theorem Table.ext_of_wf [DecidableEq α] {d : α} {m m' : List (Nat × α)} (h : Table.wf d m = true)
    (h' : Table.wf d m' = true) (hg : ∀ i, Table.get d m i = Table.get d m' i) : m = m' := by
  rw [Table.wf_iff] at h h'
  induction m generalizing m' with
  | nil =>
    cases m' with
    | nil => rfl
    | cons c m' =>
      obtain ⟨k, v⟩ := c
      exact absurd (by simpa [Table.get] using (hg k).symm) (h'.2 (k, v) (by simp))
  | cons c m ih =>
    obtain ⟨k, v⟩ := c
    obtain ⟨hp, hs⟩ := List.pairwise_cons.mp h.1
    have hv : v ≠ d := h.2 (k, v) (by simp)
    cases m' with
    | nil => exact absurd (by simpa [Table.get] using hg k) hv
    | cons c' m' =>
      obtain ⟨k', v'⟩ := c'
      obtain ⟨hp', hs'⟩ := List.pairwise_cons.mp h'.1
      have hv' : v' ≠ d := h'.2 (k', v') (by simp)
      have hk : k = k' := by
        rcases Nat.lt_trichotomy k k' with hlt | heq | hlt
        · have := hg k
          rw [Table.get_of_lt d ((k', v') :: m') k (by
            intro c hc
            rcases List.mem_cons.mp hc with rfl | hc
            · exact hlt
            · exact Nat.lt_trans hlt (hp' c hc))] at this
          exact absurd (by simpa [Table.get] using this) hv
        · exact heq
        · have := hg k'
          rw [Table.get_of_lt d ((k, v) :: m) k' (by
            intro c hc
            rcases List.mem_cons.mp hc with rfl | hc
            · exact hlt
            · exact Nat.lt_trans hlt (hp c hc))] at this
          exact absurd (by simpa [Table.get] using this.symm) hv'
      subst hk
      have hvv : v = v' := by simpa [Table.get] using hg k
      subst hvv
      congr 1
      refine ih ⟨hs, fun c hc => h.2 c (by simp [hc])⟩ ⟨hs', fun c hc => h'.2 c (by simp [hc])⟩ ?_
      intro i
      by_cases hi : k = i
      · subst hi
        rw [Table.get_of_lt d m k (fun c hc => hp c hc), Table.get_of_lt d m' k (fun c hc => hp' c hc)]
      · simpa [Table.get, hi] using hg i

/-! ### Memories -/

/-- A read after a write of a byte. -/
theorem Memory.read_write (m : List Host.Cell) (a : Nat) (b : Byte) (x : Nat) :
    Memory.read (Memory.write m a b) x = if a = x then b else Memory.read m x :=
  Table.get_put _ m a b x

theorem Memory.wf_write {m : List Host.Cell} (h : Memory.wf m = true) (a : Nat) (b : Byte) :
    Memory.wf (Memory.write m a b) = true := Table.wf_put h a b

theorem Memory.read_fill (b : Byte) (k a : Nat) (m : List Host.Cell) (x : Nat) :
    Memory.read (Memory.fill b k a m) x = if a ≤ x ∧ x < a + k then b else Memory.read m x := by
  induction k generalizing a m with
  | zero => simp [Memory.fill]
  | succ k ih =>
    rw [Memory.fill, ih, Memory.read_write]
    by_cases h1 : a + 1 ≤ x ∧ x < a + 1 + k
    · rw [if_pos h1, if_pos (by omega)]
    · rw [if_neg h1]
      by_cases h2 : a = x
      · rw [if_pos h2, if_pos (by omega)]
      · rw [if_neg h2, if_neg (by omega)]

theorem Memory.wf_fill (b : Byte) (k a : Nat) {m : List Host.Cell} (h : Memory.wf m = true) :
    Memory.wf (Memory.fill b k a m) = true := by
  induction k generalizing a m with
  | zero => exact h
  | succ k ih => exact ih _ (Memory.wf_write h a b)

theorem Memory.read_writeList (bs : List Byte) (a : Nat) (m : List Host.Cell) (x : Nat) :
    Memory.read (Memory.writeList bs a m) x
      = if a ≤ x ∧ x < a + bs.length then bs.getD (x - a) 0 else Memory.read m x := by
  induction bs generalizing a m with
  | nil => simp [Memory.writeList]
  | cons b bs ih =>
    rw [Memory.writeList, ih, Memory.read_write]
    simp only [List.length_cons]
    by_cases h1 : a + 1 ≤ x ∧ x < a + 1 + bs.length
    · rw [if_pos h1, if_pos (by omega)]
      have : x - a = (x - (a + 1)) + 1 := by omega
      rw [this, List.getD_cons_succ]
    · rw [if_neg h1]
      by_cases h2 : a = x
      · subst h2
        rw [if_pos rfl, if_pos (by omega)]
        simp
      · rw [if_neg h2, if_neg (by omega)]

theorem Memory.wf_writeList (bs : List Byte) (a : Nat) {m : List Host.Cell}
    (h : Memory.wf m = true) : Memory.wf (Memory.writeList bs a m) = true := by
  induction bs generalizing a m with
  | nil => exact h
  | cons b bs ih => exact ih _ (Memory.wf_write h a b)

theorem Memory.length_readList (m : List Host.Cell) (k a : Nat) :
    (Memory.readList m k a).length = k := by
  induction k generalizing a with
  | zero => rfl
  | succ k ih => simp [Memory.readList, ih]

theorem Memory.getD_readList (m : List Host.Cell) (k a i : Nat) (h : i < k) :
    (Memory.readList m k a).getD i 0 = Memory.read m (a + i) := by
  induction k generalizing a i with
  | zero => omega
  | succ k ih =>
    cases i with
    | zero => simp [Memory.readList]
    | succ i =>
      rw [Memory.readList, List.getD_cons_succ, ih (a + 1) i (by omega)]
      congr 1
      omega

theorem Memory.read_writeFree (k a i : Nat) (m : List Host.Cell) (x : Nat) :
    Memory.read (Memory.writeFree k a i m) x
      = if a ≤ x ∧ x < a + k then Config.freeByte (i + (x - a)) else Memory.read m x := by
  induction k generalizing a i m with
  | zero => simp [Memory.writeFree]
  | succ k ih =>
    rw [Memory.writeFree, ih, Memory.read_write]
    by_cases h1 : a + 1 ≤ x ∧ x < a + 1 + k
    · rw [if_pos h1, if_pos (by omega)]
      congr 1
      omega
    · rw [if_neg h1]
      by_cases h2 : a = x
      · subst h2
        rw [if_pos rfl, if_pos (by omega)]
        simp
      · rw [if_neg h2, if_neg (by omega)]

theorem Memory.wf_writeFree (k a i : Nat) {m : List Host.Cell} (h : Memory.wf m = true) :
    Memory.wf (Memory.writeFree k a i m) = true := by
  induction k generalizing a i m with
  | zero => exact h
  | succ k ih => exact ih _ _ (Memory.wf_write h a _)

end Sys2Proof.Machine
end

