-- ==== Sys2Proof/Laws/Operands.lean ====
section
/-! SUPPORT. What each operand form can do, once: when it answers and what it then is. -/

namespace Sys2Proof.Machine

open Sys2Proof Sys2Proof.Safety

/-- An engine operation answers exactly when its first part does and its second part does after it. -/
theorem Res.bind_eq_ok {α β : Type} {x : Res α} {f : α → Res β} {b : β} :
    (x >>= f) = Except.ok b ↔ ∃ a, x = Except.ok a ∧ f a = Except.ok b := by
  cases x with
  | error e => simp [bind, Except.bind]
  | ok a => simp [bind, Except.bind]

@[simp] theorem Res.ok_bind {α β : Type} (a : α) (f : α → Res β) :
    ((Except.ok a : Res α) >>= f) = f a := rfl

/-- An engine operation gets stuck when its first part does, or its second part does after it. -/
theorem Res.bind_eq_stuck {α β : Type} {x : Res α} {f : α → Res β} {t : State} :
    (x >>= f) = Except.error (.stuck t)
      ↔ x = Except.error (.stuck t) ∨ ∃ a, x = Except.ok a ∧ f a = Except.error (.stuck t) := by
  cases x with
  | error e => simp [bind, Except.bind]
  | ok a => simp [bind, Except.bind]

/-- An engine operation faults when its first part does, or its second part does after it. -/
theorem Res.bind_eq_fault {α β : Type} {x : Res α} {f : α → Res β} {e : Fault} :
    (x >>= f) = Except.error (.fault e)
      ↔ x = Except.error (.fault e) ∨ ∃ a, x = Except.ok a ∧ f a = Except.error (.fault e) := by
  cases x with
  | error e => simp [bind, Except.bind]
  | ok a => simp [bind, Except.bind]

@[simp] theorem Res.error_bind {α β : Type} (e : Halt) (f : α → Res β) :
    ((Except.error e : Res α) >>= f) = Except.error e := rfl

@[simp] theorem toOutcome_ok (s : State) : toOutcome (.ok s) = .next s := rfl

@[simp] theorem toOutcome_stuck (s : State) : toOutcome (.error (.stuck s)) = .next s := rfl

@[simp] theorem toOutcome_fault (f : Fault) : toOutcome (.error (.fault f)) = .fault f := rfl

theorem toOutcome_of_ok {r : Res State} {t : State} (h : r = .ok t) : toOutcome r = .next t := by
  rw [h]; rfl

/-- Of an operation that answers, a next state is the answer. -/
theorem toOutcome_next_of_ok {r : Res State} {t u : State} (h : r = .ok u) (h' : toOutcome r = .next t) :
    r = .ok t := by
  subst h
  cases h'
  rfl

/-- A next state is what the operation gives, or the state in which it gets the engine stuck. -/
theorem toOutcome_eq_next {r : Res State} {t : State} :
    toOutcome r = .next t ↔ r = .ok t ∨ r = .error (.stuck t) := by
  rcases r with (_ | _) | _ <;> simp [toOutcome]

theorem toOutcome_eq_fault {r : Res State} {f : Fault} :
    toOutcome r = .fault f ↔ r = .error (.fault f) := by
  rcases r with (_ | _) | _ <;> simp [toOutcome]

theorem toOutcome_ne_refused (r : Res State) (q : Refusal) : toOutcome r ≠ .refused q := by
  rcases r with (_ | _) | _ <;> simp [toOutcome]

theorem readSrc_eq {a : Nat} {s : State} (h : a < srcSize s) : readSrc a s = .ok (srcByte s a) := by
  simp [readSrc, h, srcByte]

theorem readSrc_stuck {a : Nat} {s : State} (h : ¬ a < srcSize s) :
    readSrc a s = .error (stuckAt .access s) := by
  simp [readSrc, h]

theorem writeDst_eq {a : Nat} {b : Byte} {s : State} (h : a < s.par.dstCap) :
    writeDst a b s = .ok (s.setDst (Memory.write s.dst a b)) := by
  simp [writeDst, h]

/-- The `n` bytes of a number, least significant first. -/
def leBytes : Nat → Nat → List Byte
  | 0, _ => []
  | n + 1, v => BitVec.ofNat 8 (v % 256) :: leBytes n (v / 256)

theorem length_leBytes (n v : Nat) : (leBytes n v).length = n := by
  induction n generalizing v with
  | zero => rfl
  | succ n ih => simp [leBytes, ih]

theorem State.setDst_setDst (m m' : List Host.Cell) (s : State) :
    (s.setDst m).setDst m' = s.setDst m' := rfl

theorem memWriteDst_eq (n a v : Nat) (s : State) (h : a + n ≤ s.par.dstCap) :
    memWriteDst n a v s = .ok (s.setDst (Memory.writeList (leBytes n v) a s.dst)) := by
  induction n generalizing a v s with
  | zero => rfl
  | succ n ih =>
    rw [memWriteDst, writeDst_eq (by omega), Res.ok_bind, ih _ _ _ (by simp; omega)]
    rfl

theorem copySrcToDst_eq (n a d : Nat) (s : State) (hs : a + n ≤ srcSize s)
    (hd : d + n ≤ s.par.dstCap) :
    copySrcToDst n a d s = .ok (s.setDst (Memory.writeList (Memory.readList s.src n a) d s.dst)) := by
  induction n generalizing a d s with
  | zero => rfl
  | succ n ih =>
    rw [copySrcToDst, readSrc_eq (by omega), Res.ok_bind, writeDst_eq (by omega), Res.ok_bind,
      ih _ _ _ (by simp only [srcSize, State.setDst_srcLen, State.setDst_par] at *; omega)
        (by simp; omega)]
    rfl

theorem memReadSrc_one (a : Nat) (s : State) (h : a + 1 ≤ srcSize s) :
    memReadSrc 1 a s = .ok (srcByte s a).toNat := by
  simp [memReadSrc, readSrc_eq (show a < srcSize s by omega)]

theorem memReadSrc_four (a : Nat) (s : State) (h : a + 4 ≤ srcSize s) :
    memReadSrc 4 a s = .ok (word32At (srcByte s) a) := by
  simp only [memReadSrc, readSrc_eq (show a < srcSize s by omega),
    readSrc_eq (show a + 1 < srcSize s by omega), readSrc_eq (show a + 1 + 1 < srcSize s by omega),
    readSrc_eq (show a + 1 + 1 + 1 < srcSize s by omega), Res.ok_bind, word32At]
  congr 1
  have e2 : a + 1 + 1 = a + 2 := rfl
  have e3 : a + 1 + 1 + 1 = a + 3 := rfl
  rw [e2, e3]
  omega

theorem word32At_lt (f : Nat → Byte) (a : Nat) : word32At f a < 2 ^ 32 := by
  have h0 := (f a).isLt
  have h1 := (f (a + 1)).isLt
  have h2 := (f (a + 2)).isLt
  have h3 := (f (a + 3)).isLt
  unfold word32At
  omega

/-- Four little-endian bytes read back as the number they were written from. -/
theorem word32At_writeList_self (v a : Nat) (m : List Host.Cell) (hv : v < 2 ^ 32) :
    word32At (Memory.read (Memory.writeList (leBytes 4 v) a m)) a = v := by
  simp only [word32At, Memory.read_writeList, length_leBytes]
  rw [if_pos (by omega), if_pos (by omega), if_pos (by omega), if_pos (by omega)]
  have e0 : a - a = 0 := by omega
  have e1 : a + 1 - a = 1 := by omega
  have e2 : a + 2 - a = 2 := by omega
  have e3 : a + 3 - a = 3 := by omega
  rw [e0, e1, e2, e3]
  simp only [leBytes, List.getD_cons_zero, List.getD_cons_succ, BitVec.toNat_ofNat]
  omega

/-! ### Bytes of the accumulator -/

theorem getLsbD_setByte (v : Word32) (b : Byte) (a j : Nat) (hj : j < 32) :
    ((v &&& ~~~((0xFF : Word32) <<< (8 * a))) ||| (b.setWidth 32 <<< (8 * a))).getLsbD j
      = if 8 * a ≤ j ∧ j < 8 * a + 8 then b.getLsbD (j - 8 * a) else v.getLsbD j := by
  simp only [BitVec.getLsbD_or, BitVec.getLsbD_and, BitVec.getLsbD_not, BitVec.getLsbD_shiftLeft,
    BitVec.getLsbD_setWidth, hj, decide_true, Bool.true_and]
  have hff : ∀ k, (0xFF : Word32).getLsbD k = decide (k < 8) := by
    intro k
    by_cases h : k < 8
    · have : k = 0 ∨ k = 1 ∨ k = 2 ∨ k = 3 ∨ k = 4 ∨ k = 5 ∨ k = 6 ∨ k = 7 := by omega
      rcases this with rfl | rfl | rfl | rfl | rfl | rfl | rfl | rfl <;> decide
    · simp only [h, decide_false]
      have e : (0xFF : Word32) = (0xFF : BitVec 8).setWidth 32 := by decide
      rw [e, BitVec.getLsbD_setWidth, BitVec.getLsbD_of_ge _ _ (by omega)]
      simp
  rw [hff]
  by_cases h1 : 8 * a ≤ j
  · by_cases h2 : j < 8 * a + 8
    · rw [if_pos ⟨h1, h2⟩]
      have e1 : ¬ j < 8 * a := by omega
      have e2 : j - 8 * a < 8 := by omega
      have e3 : j - 8 * a < 32 := by omega
      simp [e1, e2, e3]
    · rw [if_neg (by omega)]
      have e1 : ¬ j < 8 * a := by omega
      have e2 : ¬ j - 8 * a < 8 := by omega
      rw [BitVec.getLsbD_of_ge b _ (by omega)]
      simp [e1, e2]
  · rw [if_neg (by omega)]
    have e1 : j < 8 * a := by omega
    simp [e1]

end Sys2Proof.Machine
end

