-- ==== Sys2Proof/Laws/BitField.lean ====
section
/-! SUPPORT. What each operation of the BitField unit can do, once. -/

namespace Sys2Proof.Machine

open Sys2Proof Sys2Proof.Safety

theorem readBuf_eq {M : Buffer} {a : Nat} {s : State} (h : a < bufSize M s) :
    readBuf M a s = .ok (bufByte M s a) := by
  cases M
  · exact readSrc_eq h
  · have h' : a < s.par.dstCap := h
    simp [readBuf, readDst, h', bufByte, dstByte]
  · have h' : a < 4 := h
    simp [readBuf, h', bufByte]

theorem readBuf_stuck {M : Buffer} {a : Nat} {s : State} (h : ¬ a < bufSize M s) :
    readBuf M a s = .error (stuckAt .access s) := by
  cases M
  · exact readSrc_stuck h
  · have h' : ¬ a < s.par.dstCap := h
    simp [readBuf, readDst, h']
  · have h' : ¬ a < 4 := h
    simp [readBuf, h']

theorem getBit_eq {M : Buffer} {n : Nat} {s : State} (h : n / 8 < bufSize M s) :
    getBit M n s = .ok (bufBit M s n) := by
  simp [getBit, readBuf_eq h, bufBit]

theorem getBit_stuck {M : Buffer} {n : Nat} {s : State} (h : ¬ n / 8 < bufSize M s) :
    getBit M n s = .error (stuckAt .access s) := by
  simp [getBit, readBuf_stuck h]

theorem writeBuf_dst {a : Nat} {b : Byte} {s : State} (h : a < s.par.dstCap) :
    writeBuf .dst a b s = .ok (s.setDst (Memory.write s.dst a b)) := writeDst_eq h

/-- A byte with one bit set. -/
theorem getLsbD_or_one (b : Byte) (k j : Nat) (hk : k < 8) (hj : j < 8) :
    (b ||| ((1 : Byte) <<< k)).getLsbD j = (b.getLsbD j || decide (j = k)) := by
  simp only [BitVec.getLsbD_or, BitVec.getLsbD_shiftLeft, hj, decide_true, Bool.true_and]
  have e : ∀ i, (1 : Byte).getLsbD i = decide (i = 0) := by
    intro i
    cases i with
    | zero => decide
    | succ i => simp [BitVec.getLsbD_one]
  rw [e]
  by_cases h : j < k
  · have : ¬ j = k := by omega
    simp [h, this]
  · by_cases h2 : j = k
    · subst h2; simp
    · have : ¬ j - k = 0 := by omega
      simp [h, h2, this]

theorem bufBit_acc (s : State) (n : Nat) : bufBit .acc s n = s.acc.getLsbD n := by
  simp only [bufBit, bufByte, BitVec.getLsbD_extractLsb']
  have h1 : n % 8 < 8 := Nat.mod_lt _ (by omega)
  have h2 : 8 * (n / 8) + n % 8 = n := by omega
  simp [h1, h2]

theorem bufBit_dst_write (s : State) (a : Nat) (b : Byte) (n : Nat) :
    bufBit .dst (s.setDst (Memory.write s.dst a b)) n
      = if a = n / 8 then b.getLsbD (n % 8) else bufBit .dst s n := by
  simp only [bufBit, bufByte, dstByte, State.setDst_dst, Memory.read_write]
  split <;> rfl

/-- SET_BIT on DST. -/
theorem setBit_dst {n : Nat} {s : State} (h : n / 8 < s.par.dstCap) :
    setBit .dst n s = .ok (bufBit .dst s n, s.setDst (Memory.write s.dst (n / 8)
      (dstByte s (n / 8) ||| ((1 : Byte) <<< (n % 8))))) := by
  simp [setBit, readBuf_eq (M := .dst) (show n / 8 < bufSize .dst s from h), writeBuf, writeDst_eq h,
    bufBit, bufByte]

/-- SET_BIT on the accumulator sets the one bit of it. -/
theorem setBit_acc {n : Nat} {s : State} (h : n < 32) :
    ∃ v : Word32, setBit .acc n s = .ok (s.acc.getLsbD n, s.setAcc v)
      ∧ ∀ j, j < 32 → v.getLsbD j = (s.acc.getLsbD j || decide (j = n)) := by
  have h4 : n / 8 < 4 := by omega
  refine ⟨(s.acc &&& ~~~((0xFF : Word32) <<< (8 * (n / 8))))
    ||| ((bufByte .acc s (n / 8) ||| ((1 : Byte) <<< (n % 8))).setWidth 32 <<< (8 * (n / 8))), ?_, ?_⟩
  · simp only [setBit, readBuf_eq (M := .acc) (show n / 8 < bufSize .acc s from h4), writeBuf, h4,
      if_true, Res.ok_bind]
    congr 2
    exact bufBit_acc s n
  · intro j hj
    rw [getLsbD_setByte _ _ _ _ hj]
    by_cases hb : 8 * (n / 8) ≤ j ∧ j < 8 * (n / 8) + 8
    · rw [if_pos hb, getLsbD_or_one _ _ _ (Nat.mod_lt _ (by omega)) (by omega)]
      simp only [bufByte, BitVec.getLsbD_extractLsb']
      have e1 : j - 8 * (n / 8) < 8 := by omega
      have e2 : 8 * (n / 8) + (j - 8 * (n / 8)) = j := by omega
      have e3 : (j - 8 * (n / 8) = n % 8) ↔ j = n := by omega
      simp [e1, e2, e3]
    · rw [if_neg hb]
      have : ¬ j = n := by omega
      simp [this]

/-- The loop of EXTRACT_U32 on a buffer it does not write. -/
theorem extractBits_eq {M : Buffer} (hM : M ≠ .acc) (o k i : Nat) (s : State) (hi : i + k ≤ 32)
    (hr : ∀ j, i ≤ j → j < i + k → (o + j) / 8 < bufSize M s) :
    ∃ v : Word32, extractBits M o k i s = .ok (s.setAcc v)
      ∧ ∀ j, j < 32 → v.getLsbD j
          = (s.acc.getLsbD j || (decide (i ≤ j ∧ j < i + k) && bufBit M s (o + j))) := by
  induction k generalizing i s with
  | zero =>
    refine ⟨s.acc, rfl, ?_⟩
    intro j hj
    simp
  | succ k ih =>
    have hb : (o + i) / 8 < bufSize M s := hr i (by omega) (by omega)
    rw [extractBits, getBit_eq hb, Res.ok_bind]
    have hacc : ∀ (v : Word32) n, bufBit M (s.setAcc v) n = bufBit M s n := by
      intro v n
      cases M <;> first | rfl | exact absurd rfl hM
    have hsz : ∀ v : Word32, bufSize M (s.setAcc v) = bufSize M s := by
      intro v
      cases M <;> rfl
    cases hbit : bufBit M s (o + i) with
    | false =>
      simp only [Bool.false_eq_true, if_false]
      obtain ⟨v, hv1, hv2⟩ := ih (i + 1) s (by omega) (fun j h1 h2 => hr j (by omega) (by omega))
      refine ⟨v, hv1, ?_⟩
      intro j hj
      rw [hv2 j hj]
      by_cases hji : j = i
      · subst hji
        simp [hbit]
      · have e1 : (i + 1 ≤ j ∧ j < i + 1 + k) ↔ (i ≤ j ∧ j < i + (k + 1)) := by omega
        simp only [e1]
    | true =>
      simp only [if_true]
      obtain ⟨w, hw1, hw2⟩ := setBit_acc (n := i) (s := s) (by omega)
      rw [hw1, Res.ok_bind]
      obtain ⟨v, hv1, hv2⟩ := ih (i + 1) (s.setAcc w) (by omega)
        (fun j h1 h2 => by rw [hsz]; exact hr j (by omega) (by omega))
      refine ⟨v, hv1, ?_⟩
      intro j hj
      rw [hv2 j hj, State.setAcc_acc, hw2 j hj, hacc]
      by_cases hji : j = i
      · subst hji
        simp [hbit]
      · have e1 : (i + 1 ≤ j ∧ j < i + 1 + k) ↔ (i ≤ j ∧ j < i + (k + 1)) := by omega
        simp only [e1, hji, decide_false, Bool.or_false]

/-- EXTRACT_U32 on SRC or DST: the field, zero-extended, in the accumulator, and nothing else. -/
theorem extractU32_eq {M : Buffer} (hM : M ≠ .acc) (o n : Nat) (s : State) (hn : n ≤ 32)
    (hr : ∀ j, j < n → (o + j) / 8 < bufSize M s) :
    ∃ v : Word32, extractU32 M o n s = .ok (s.setAcc v)
      ∧ ∀ j, j < 32 → v.getLsbD j = (decide (j < n) && bufBit M s (o + j)) := by
  have hsz : bufSize M (s.setAcc 0) = bufSize M s := by cases M <;> rfl
  obtain ⟨v, hv1, hv2⟩ := extractBits_eq hM o n 0 (s.setAcc 0) (by omega)
    (fun j _ h => by rw [hsz]; exact hr j (by omega))
  refine ⟨v, by rw [extractU32, if_pos hn, hv1]; rfl, ?_⟩
  intro j hj
  rw [hv2 j hj]
  have e : bufBit M (s.setAcc 0) (o + j) = bufBit M s (o + j) := by
    cases M <;> first | rfl | exact absurd rfl hM
  rw [e]
  simp

/-- A field of `n` bits is below `2^n`. -/
theorem toNat_lt_of_bits {v : Word32} {n : Nat} (h : ∀ j, j < 32 → n ≤ j → v.getLsbD j = false) :
    v.toNat < 2 ^ n := by
  by_cases hn : 32 ≤ n
  · exact Nat.lt_of_lt_of_le v.isLt (Nat.pow_le_pow_right (by omega) hn)
  · apply Nat.lt_pow_two_of_testBit
    intro i hi
    by_cases h32 : i < 32
    · have := h i h32 hi
      rwa [BitVec.getLsbD] at this
    · exact Nat.testBit_lt_two_pow (Nat.lt_of_lt_of_le v.isLt (Nat.pow_le_pow_right (by omega) (by omega)))

/-- Four bytes of a memory, each by OR with a byte of `x`. -/
def orWord (b : Nat) (x : Word32) (m : List Host.Cell) : List Host.Cell :=
  let m0 := Memory.write m (b + 0) (Memory.read m (b + 0) ||| x.extractLsb' (8 * 0) 8)
  let m1 := Memory.write m0 (b + (0 + 1)) (Memory.read m0 (b + (0 + 1)) ||| x.extractLsb' (8 * (0 + 1)) 8)
  let m2 := Memory.write m1 (b + (0 + 1 + 1))
    (Memory.read m1 (b + (0 + 1 + 1)) ||| x.extractLsb' (8 * (0 + 1 + 1)) 8)
  Memory.write m2 (b + (0 + 1 + 1 + 1))
    (Memory.read m2 (b + (0 + 1 + 1 + 1)) ||| x.extractLsb' (8 * (0 + 1 + 1 + 1)) 8)

/-- OR_U32_AT on DST: four bytes, each by OR, and nothing else. -/
theorem orU32At_dst (o : Nat) (p : Word32) (s : State) (h : o / 8 + 4 ≤ s.par.dstCap) :
    ∃ m : List Host.Cell, orU32At .dst o p s = .ok (s.setDst m)
      ∧ (∀ x, Memory.read m x = if o / 8 ≤ x ∧ x < o / 8 + 4
            then dstByte s x ||| (p <<< (o % 8)).extractLsb' (8 * (x - o / 8)) 8 else dstByte s x)
      ∧ (Memory.wf s.dst = true → Memory.wf m = true) := by
  have hb : ∀ m' : List Host.Cell, ∀ k, k < 4 →
      readBuf .dst (o / 8 + k) (s.setDst m') = .ok (Memory.read m' (o / 8 + k)) := by
    intro m' k hk
    exact readBuf_eq (M := .dst) (show o / 8 + k < (s.setDst m').par.dstCap by simp; omega)
  have hw : ∀ m' : List Host.Cell, ∀ k b, k < 4 →
      writeBuf .dst (o / 8 + k) b (s.setDst m')
        = .ok (s.setDst (Memory.write m' (o / 8 + k) b)) := by
    intro m' k b hk
    exact writeDst_eq (show o / 8 + k < (s.setDst m').par.dstCap by simp; omega)
  have e0 : s = s.setDst s.dst := rfl
  refine ⟨orWord (o / 8) (p <<< (o % 8)) s.dst, ?_, ?_, ?_⟩
  · rw [orU32At, if_pos (show o / 8 + 4 ≤ bufSize .dst s from h), e0]
    simp only [orBytes, hb _ 0 (by omega), hw _ 0 _ (by omega), hb _ (0 + 1) (by omega),
      hw _ (0 + 1) _ (by omega), hb _ (0 + 1 + 1) (by omega), hw _ (0 + 1 + 1) _ (by omega),
      hb _ (0 + 1 + 1 + 1) (by omega), hw _ (0 + 1 + 1 + 1) _ (by omega), Res.ok_bind]
    rfl
  · intro x
    simp only [orWord, Memory.read_write, dstByte]
    by_cases hx : o / 8 ≤ x ∧ x < o / 8 + 4
    · rw [if_pos hx]
      obtain ⟨k, hk, rfl⟩ : ∃ k, k < 4 ∧ x = o / 8 + k := ⟨x - o / 8, by omega, by omega⟩
      have hk' : k = 0 ∨ k = 1 ∨ k = 2 ∨ k = 3 := by omega
      rcases hk' with rfl | rfl | rfl | rfl <;> simp
    · rw [if_neg hx]
      rw [if_neg (by omega), if_neg (by omega), if_neg (by omega), if_neg (by omega)]
  · intro hwf
    exact Memory.wf_write (Memory.wf_write (Memory.wf_write (Memory.wf_write hwf _ _) _ _) _ _) _ _

/-- The bits OR_U32_AT sets in DST (41_bitfield R114). -/
theorem orU32At_dst_bits (o : Nat) (p : Word32) (s : State) (h : o / 8 + 4 ≤ s.par.dstCap) :
    ∃ m : List Host.Cell, orU32At .dst o p s = .ok (s.setDst m)
      ∧ (∀ n, bufBit .dst (s.setDst m) n = (bufBit .dst s n
            || (decide (o ≤ n ∧ n < o + (32 - o % 8)) && p.getLsbD (n - o))))
      ∧ (Memory.wf s.dst = true → Memory.wf m = true) := by
  obtain ⟨m, hm1, hm2, hm3⟩ := orU32At_dst o p s h
  refine ⟨m, hm1, ?_, hm3⟩
  intro n
  simp only [bufBit, bufByte]
  rw [show dstByte (s.setDst m) (n / 8) = _ from hm2 (n / 8)]
  by_cases hx : o / 8 ≤ n / 8 ∧ n / 8 < o / 8 + 4
  · rw [if_pos hx, BitVec.getLsbD_or]
    simp only [BitVec.getLsbD_extractLsb', BitVec.getLsbD_shiftLeft]
    have h1 : n % 8 < 8 := Nat.mod_lt _ (by omega)
    by_cases hlo : o ≤ n
    · have e1 : 8 * (n / 8 - o / 8) + n % 8 < 32 := by omega
      have e2 : ¬ 8 * (n / 8 - o / 8) + n % 8 < o % 8 := by omega
      have e3 : 8 * (n / 8 - o / 8) + n % 8 - o % 8 = n - o := by omega
      have e4 : o ≤ n ∧ n < o + (32 - o % 8) := by omega
      simp [h1, e1, e2, e3, e4]
    · have e2 : 8 * (n / 8 - o / 8) + n % 8 < o % 8 := by omega
      have e4 : ¬ (o ≤ n ∧ n < o + (32 - o % 8)) := by omega
      simp [h1, e2, e4]
  · rw [if_neg hx]
    have e4 : ¬ (o ≤ n ∧ n < o + (32 - o % 8)) := by omega
    simp [e4]

theorem orU32At_stuck (M : Buffer) (o : Nat) (p : Word32) (s : State)
    (h : ¬ o / 8 + 4 ≤ bufSize M s) : orU32At M o p s = .error (stuckAt .orRoom s) := by
  simp [orU32At, h]

/-- EXTRACT_U32 of the accumulator, once cleared, finds only zeros. -/
theorem extractBits_acc_zero (o k i : Nat) (s : State) (h0 : s.acc = 0) (h : ∀ j, i ≤ j → j < i + k → (o + j) / 8 < 4) :
    extractBits .acc o k i s = .ok s := by
  induction k generalizing i with
  | zero => rfl
  | succ k ih =>
    have : getBit .acc (o + i) s = .ok false := by
      rw [getBit_eq (show (o + i) / 8 < bufSize .acc s from h i (by omega) (by omega)), bufBit_acc, h0]; simp
    simp only [extractBits, this, Res.ok_bind]
    exact ih _ (fun j a b => h j (by omega) (by omega))

/-- The loop of EXTRACT_U32 gets stuck at the first bit outside the buffer, with the bits before it read. -/
theorem extractBits_stuck {M : Buffer} (hM : M ≠ .acc) (o k i : Nat) (s : State) (hi : i + k ≤ 32)
    (h : ∃ j, i ≤ j ∧ j < i + k ∧ bufSize M s ≤ (o + j) / 8) :
    ∃ v : Word32, extractBits M o k i s = .error (stuckAt .access (s.setAcc v))
      ∧ ∀ j, j < 32 → v.getLsbD j
          = (s.acc.getLsbD j
            || (decide (i ≤ j ∧ (o + j) / 8 < bufSize M s) && bufBit M s (o + j))) := by
  induction k generalizing i s with
  | zero => obtain ⟨j, a, b, c⟩ := h; omega
  | succ k ih =>
    obtain ⟨j, a, b, c⟩ := h
    by_cases hb : (o + i) / 8 < bufSize M s
    · have hj : i + 1 ≤ j := by
        rcases Nat.lt_or_ge i j with h | h
        · omega
        · have : i = j := by omega
          subst this; omega
      rw [extractBits, getBit_eq hb, Res.ok_bind]
      have hacc : ∀ (v : Word32) n, bufBit M (s.setAcc v) n = bufBit M s n := by
        intro v n
        cases M <;> first | rfl | exact absurd rfl hM
      have hsz : ∀ v : Word32, bufSize M (s.setAcc v) = bufSize M s := by
        intro v
        cases M <;> rfl
      cases hbit : bufBit M s (o + i) with
      | false =>
        simp only [Bool.false_eq_true, if_false]
        obtain ⟨v, hv1, hv2⟩ := ih (i + 1) s (by omega) ⟨j, hj, by omega, c⟩
        refine ⟨v, hv1, ?_⟩
        intro n hn
        rw [hv2 n hn]
        by_cases hni : n = i
        · subst hni
          simp [hbit]
        · have e1 : i + 1 ≤ n ↔ i ≤ n := by omega
          simp only [e1]
      | true =>
        simp only [if_true]
        obtain ⟨w, hw1, hw2⟩ := setBit_acc (n := i) (s := s) (by omega)
        rw [hw1, Res.ok_bind]
        obtain ⟨v, hv1, hv2⟩ := ih (i + 1) (s.setAcc w) (by omega) ⟨j, hj, by omega, by rw [hsz]; exact c⟩
        refine ⟨v, hv1, ?_⟩
        intro n hn
        rw [hv2 n hn, State.setAcc_acc, hw2 n hn, hacc, hsz]
        by_cases hni : n = i
        · subst hni
          simp [hbit, hb]
        · have e1 : i + 1 ≤ n ↔ i ≤ n := by omega
          simp only [e1, hni, decide_false, Bool.or_false]
    · refine ⟨s.acc, ?_, ?_⟩
      · rw [extractBits, getBit_stuck hb, Res.error_bind]
        rfl
      · intro n hn
        by_cases hin : i ≤ n
        · have : ¬ (o + n) / 8 < bufSize M s := by
            have : (o + i) / 8 ≤ (o + n) / 8 := Nat.div_le_div_right (by omega)
            omega
          simp [this]
        · simp [hin]

/-- EXTRACT_U32 of the accumulator, once cleared, gets stuck with nothing read. -/
theorem extractBits_acc_stuck (o k i : Nat) (s : State) (h0 : s.acc = 0)
    (h : ∃ j, i ≤ j ∧ j < i + k ∧ 4 ≤ (o + j) / 8) :
    extractBits .acc o k i s = .error (stuckAt .access s) := by
  induction k generalizing i with
  | zero => obtain ⟨j, a, b, c⟩ := h; omega
  | succ k ih =>
    obtain ⟨j, a, b, c⟩ := h
    by_cases hb : (o + i) / 8 < 4
    · have hj : i + 1 ≤ j := by
        rcases Nat.lt_or_ge i j with h | h
        · omega
        · have : i = j := by omega
          subst this; omega
      have : getBit .acc (o + i) s = .ok false := by
        rw [getBit_eq (show (o + i) / 8 < bufSize .acc s from hb), bufBit_acc, h0]; simp
      simp only [extractBits, this, Res.ok_bind]
      exact ih _ ⟨j, hj, by omega, c⟩
    · rw [extractBits, getBit_stuck (M := .acc) hb, Res.error_bind]

/-- One byte of the accumulator, by OR. -/
theorem orByte_acc (k : Nat) (x v : Word32) :
    ((v &&& ~~~((0xFF : Word32) <<< (8 * k)))
        ||| ((v.extractLsb' (8 * k) 8 ||| x.extractLsb' (8 * k) 8).setWidth 32 <<< (8 * k)))
      = v ||| (x &&& ((0xFF : Word32) <<< (8 * k))) := by
  apply BitVec.eq_of_getLsbD_eq
  intro j hj
  rw [getLsbD_setByte _ _ _ _ hj]
  have e : ∀ n, (0xFF : Word32).getLsbD n = decide (n < 8) := by
    intro n
    by_cases h : n < 32
    · interval_cases n <;> rfl
    · rw [BitVec.getLsbD_of_ge _ _ (by omega)]; simp; omega
  simp only [BitVec.getLsbD_or, BitVec.getLsbD_and, BitVec.getLsbD_shiftLeft, BitVec.getLsbD_extractLsb', hj, e]
  split
  · rename_i h
    have h1 : j - 8 * k < 8 := by omega
    have h2 : ¬ j < 8 * k := by omega
    have h3 : 8 * k + (j - 8 * k) = j := by omega
    simp [h1, h2, h3]
  · rename_i h
    by_cases h2 : j < 8 * k
    · simp [h2]
    · have h1 : ¬ j - 8 * k < 8 := by omega
      simp [h1]

/-- The loop of OR_U32_AT on the accumulator. -/
theorem orBytes_acc (x : Word32) (n k : Nat) (s : State) (h : k + n ≤ 4) :
    ∃ v, orBytes .acc 0 x n k s = .ok (s.setAcc v) ∧
     ∀ j, j < 32 → v.getLsbD j = (s.acc.getLsbD j || (decide (8 * k ≤ j ∧ j < 8 * (k + n)) && x.getLsbD j)) := by
  induction n generalizing k s with
  | zero => exact ⟨s.acc, rfl, fun j hj => by simp⟩
  | succ n ih =>
    have hk : k < 4 := by omega
    obtain ⟨v, h1, h2⟩ := ih (k + 1) (s.setAcc (s.acc ||| (x &&& ((0xFF : Word32) <<< (8 * k))))) (by omega)
    refine ⟨v, ?_, ?_⟩
    · simp only [orBytes, Nat.zero_add, readBuf, hk, if_true, Res.ok_bind, writeBuf]
      rw [orByte_acc k]
      exact h1
    · intro j hj
      rw [h2 j hj]
      have e : ∀ n, (0xFF : Word32).getLsbD n = decide (n < 8) := by
        intro n
        by_cases h : n < 32
        · interval_cases n <;> rfl
        · rw [BitVec.getLsbD_of_ge _ _ (by omega)]; simp; omega
      simp only [State.setAcc_acc, BitVec.getLsbD_or, BitVec.getLsbD_and, BitVec.getLsbD_shiftLeft, hj, e, decide_true, Bool.true_and]
      rw [Bool.or_assoc]
      congr 1
      cases x.getLsbD j
      · simp
      · simp only [Bool.true_and, Bool.and_true]
        rw [Bool.eq_iff_iff]
        simp
        omega

/-- OR_U32_AT on the accumulator, which is one word. -/
theorem orU32At_acc (o : Nat) (p : Word32) (s : State) (h : o < 8) :
    orU32At .acc o p s = .ok (s.setAcc (s.acc ||| (p <<< o))) := by
  have e : o / 8 = 0 := by omega
  have e2 : o % 8 = o := by omega
  obtain ⟨v, h1, h2⟩ := orBytes_acc (p <<< o) 4 0 s (by omega)
  rw [orU32At, e, e2, if_pos (by simp [bufSize]), h1]
  congr 2
  apply BitVec.eq_of_getLsbD_eq
  intro i hi
  rw [h2 i hi, BitVec.getLsbD_or]
  have : 8 * 0 ≤ i ∧ i < 8 * (0 + 4) := by omega
  simp [this, -BitVec.getLsbD_shiftLeft]

end Sys2Proof.Machine
end

