-- ==== Sys2Proof/Laws/Dictionary.lean ====
section
/-! SUPPORT. What the operations on a dictionary do: its arrays after a write, the width, the walk of a
chain, the circular scan, unlinking and inserting. -/

namespace Sys2Proof.Machine

open Sys2Proof Sys2Proof.Safety

/-! ### Arrays -/

theorem Dict.pfxAt_putPfx (d : Dict) (s : Nat) (v : BitVec 16) (x : Nat) :
    (d.putPfx s v).pfxAt x = if s = x then v else d.pfxAt x := Table.get_put _ _ _ _ _

theorem Dict.trailingAt_putTrailing (d : Dict) (s : Nat) (v : Byte) (x : Nat) :
    (d.putTrailing s v).trailingAt x = if s = x then v else d.trailingAt x := Table.get_put _ _ _ _ _

theorem Dict.linkAt_putLink (d : Dict) (s : Nat) (v : Option Code) (x : Nat) :
    (d.putLink s v).linkAt x = if s = x then v else d.linkAt x := Table.get_put _ _ _ _ _

theorem Dict.headAt_putHead (d : Dict) (s : Nat) (v : Option Code) (x : Nat) :
    (d.putHead s v).headAt x = if s = x then v else d.headAt x := Table.get_put _ _ _ _ _

/-- The arrays of a table after `placeEntry`. -/
theorem placeEntry_pfxAt (s P : Code) (B : Byte) (d : Dict) (x : Nat) :
    (placeEntry s P B d).pfxAt x = if s.toNat = x then P.setWidth 16 else d.pfxAt x :=
  Dict.pfxAt_putPfx d s.toNat _ x

theorem placeEntry_trailingAt (s P : Code) (B : Byte) (d : Dict) (x : Nat) :
    (placeEntry s P B d).trailingAt x = if s.toNat = x then B else d.trailingAt x :=
  Dict.trailingAt_putTrailing d s.toNat _ x

theorem placeEntry_linkAt (s P : Code) (B : Byte) (d : Dict) (x : Nat) :
    (placeEntry s P B d).linkAt x = if s.toNat = x then d.headAt P.toNat else d.linkAt x :=
  Dict.linkAt_putLink d s.toNat _ x

theorem placeEntry_headAt (s P : Code) (B : Byte) (d : Dict) (x : Nat) :
    (placeEntry s P B d).headAt x = if P.toNat = x then some s else d.headAt x :=
  Dict.headAt_putHead d P.toNat _ x

/-- `placeEntry` writes the four arrays only. -/
theorem placeEntry_eq (s P : Code) (B : Byte) (d : Dict) :
    placeEntry s P B d = { d with
      pfx := (placeEntry s P B d).pfx, trailing := (placeEntry s P B d).trailing
      link := (placeEntry s P B d).link, head := (placeEntry s P B d).head } := rfl

/-- GROW writes the width, the ceiling, `next_free` and `full` only. -/
theorem grow_eq (d : Dict) :
    grow d = { d with
      codeWidth := (grow d).codeWidth, ceiling := (grow d).ceiling
      nextFree := d.nextFree + 1, full := (grow d).full } := by
  have hw : ∀ e : Dict, ∃ a b, growWidth e = { e with codeWidth := a, ceiling := b } := by
    intro e
    unfold growWidth
    split
    · exact ⟨_, _, rfl⟩
    · exact ⟨_, _, rfl⟩
  obtain ⟨a, b, hx⟩ := hw { d with nextFree := d.nextFree + 1 }
  have hg : ∃ f, grow d = { growWidth { d with nextFree := d.nextFree + 1 } with full := f } := by
    unfold grow
    dsimp only
    split
    · exact ⟨_, rfl⟩
    · exact ⟨_, rfl⟩
  obtain ⟨f, hg⟩ := hg
  rw [hg, hx]

/-! ### Widths -/

/-- `bitlen(n)` is the least width that holds `n`. -/
theorem bitlen_le_iff (n w : Nat) : bitlen n ≤ w ↔ n < 2 ^ w := by
  unfold bitlen
  split
  · rename_i h; subst h; simp
  · rename_i h; rw [Nat.succ_le_iff, Nat.log2_lt h]

/-- A width that holds `n` is at least DICT_WIDTH's, and the cap is never passed. -/
theorem dictWidth_le_iff (n w : Nat) : dictWidth n ≤ w ↔ n < 2 ^ w ∨ 12 ≤ w := by
  unfold dictWidth
  rw [min_le_iff, bitlen_le_iff]
  simp only [Config.maxWidth]
  exact or_comm

theorem dictWidth_le (n : Nat) : dictWidth n ≤ 12 := (dictWidth_le_iff n 12).2 (.inr (Nat.le_refl _))

/-- DICT_WIDTH is determined by the two powers of two around `n`. -/
theorem dictWidth_eq {n w : Nat} (hw : w ≤ 12) (h1 : ∀ v, v < w → 2 ^ v ≤ n)
    (h2 : n < 2 ^ w ∨ w = 12) : dictWidth n = w := by
  apply Nat.le_antisymm
  · rw [dictWidth_le_iff]; omega
  · by_contra hc
    have hlt : dictWidth n < w := by omega
    have h3 := (dictWidth_le_iff n (dictWidth n)).1 (Nat.le_refl _)
    have h4 := h1 _ hlt
    omega

theorem Dict.base_le_of_legal {d : Dict} (h : minBitsLegal d.minBits) :
    d.base = 128 ∨ d.base = 256 := by
  unfold Dict.base
  rcases h with h | h <;> rw [h] <;> simp

/-- DICT_INIT with a legal MIN_BITS leaves legal registers. -/
theorem dictRegs_dictInit {mb : BitVec 4} (h : minBitsLegal mb) (d : Dict) :
    dictRegs (dictInit mb d) := by
  rcases h with rfl | rfl <;> (simp only [dictRegs, dictInit, Dict.base]; decide)

/-- The width after GROW: one more exactly at the ceiling. -/
theorem dictRegs_growth {d : Dict} (h : dictRegs d) (hf : d.full = false) :
    d.nextFree.toNat < 4096
      ∧ (if d.nextFree.toNat + 1 = d.ceiling.toNat ∧ d.codeWidth.toNat < 12
          then d.codeWidth.toNat + 1 else d.codeWidth.toNat) = dictWidth (d.nextFree.toNat + 1) := by
  obtain ⟨h1, h2, h3, h4, h5⟩ := h
  have hlt : d.nextFree.toNat < 4096 := by
    have : d.nextFree.toNat ≠ 4096 := fun h => by rw [h5.2 h] at hf; cases hf
    omega
  refine ⟨hlt, ?_⟩
  have hw := dictWidth_le d.nextFree.toNat
  have hx := (dictWidth_le_iff d.nextFree.toNat (dictWidth d.nextFree.toNat)).1 (Nat.le_refl _)
  have hy : ∀ v, v < dictWidth d.nextFree.toNat → 2 ^ v ≤ d.nextFree.toNat := by
    intro v hv
    by_contra hc
    have := (dictWidth_le_iff d.nextFree.toNat v).2 (.inl (by omega))
    omega
  rw [← h1] at hw hx hy
  symm
  split
  · rename_i hh
    apply dictWidth_eq (by omega)
    · intro v hv
      rcases Nat.lt_or_ge v d.codeWidth.toNat with hv' | hv'
      · have := hy v hv'; omega
      · have : v = d.codeWidth.toNat := by omega
        subst this; omega
    · left; rw [pow_succ]; have : 0 < 2 ^ d.codeWidth.toNat := Nat.two_pow_pos _; omega
  · rename_i hh
    apply dictWidth_eq hw
    · intro v hv; have := hy v hv; omega
    · rcases hx with hx | hx
      · by_cases h12 : d.codeWidth.toNat = 12
        · right; exact h12
        · left; omega
      · right; omega

/-- The registers after GROW, from legal ones in the growth phase (42_dictionary R137). -/
theorem grow_regs {d : Dict} (h : dictRegs d) (hf : d.full = false) :
    (grow d).nextFree.toNat = d.nextFree.toNat + 1
      ∧ (grow d).codeWidth.toNat = (if d.nextFree.toNat + 1 = d.ceiling.toNat ∧ d.codeWidth.toNat < 12
          then d.codeWidth.toNat + 1 else d.codeWidth.toNat)
      ∧ (grow d).ceiling.toNat = (if d.nextFree.toNat + 1 = d.ceiling.toNat ∧ d.codeWidth.toNat < 12
          then 2 * d.ceiling.toNat else d.ceiling.toNat)
      ∧ (grow d).full = decide (d.nextFree.toNat + 1 = 4096) := by
  have hlt := (dictRegs_growth h hf).1
  have hn : (d.nextFree + 1).toNat = d.nextFree.toNat + 1 := by
    rw [BitVec.toNat_add]; simp; omega
  have hc : d.codeWidth.toNat < 12 → (d.codeWidth + 1).toNat = d.codeWidth.toNat + 1 := by
    intro hc; rw [BitVec.toNat_add]; simp; omega
  have hceil : d.codeWidth.toNat < 12 → (BitVec.ofNat 13 (2 * d.ceiling.toNat)).toNat = 2 * d.ceiling.toNat := by
    intro hc
    rw [BitVec.toNat_ofNat, Nat.mod_eq_of_lt]
    rw [h.2.1]
    have : 2 ^ d.codeWidth.toNat ≤ 2 ^ 11 := Nat.pow_le_pow_right (by omega) (by omega)
    omega
  have hiff : (d.nextFree + 1 = d.ceiling ∧ d.codeWidth.toNat < Config.maxWidth)
      ↔ (d.nextFree.toNat + 1 = d.ceiling.toNat ∧ d.codeWidth.toNat < 12) := by
    rw [← BitVec.toNat_inj, hn]; rfl
  unfold grow growWidth
  by_cases hh : d.nextFree.toNat + 1 = d.ceiling.toNat ∧ d.codeWidth.toNat < 12
  · rw [if_pos (hiff.2 hh)]
    by_cases h4 : d.nextFree.toNat + 1 = 4096
    · rw [if_pos (by show (d.nextFree + 1).toNat = 4096; omega)]
      exact ⟨hn, by rw [if_pos hh]; exact hc hh.2, by rw [if_pos hh]; exact hceil hh.2, by simp [h4]⟩
    · rw [if_neg (by show ¬ (d.nextFree + 1).toNat = 4096; omega)]
      exact ⟨hn, by rw [if_pos hh]; exact hc hh.2, by rw [if_pos hh]; exact hceil hh.2, by simp [h4, hf]⟩
  · rw [if_neg (fun x => hh (hiff.1 x))]
    by_cases h4 : d.nextFree.toNat + 1 = 4096
    · rw [if_pos (by show (d.nextFree + 1).toNat = 4096; omega)]
      exact ⟨hn, by rw [if_neg hh], by rw [if_neg hh], by simp [h4]⟩
    · rw [if_neg (by show ¬ (d.nextFree + 1).toNat = 4096; omega)]
      exact ⟨hn, by rw [if_neg hh], by rw [if_neg hh], by simp [h4, hf]⟩

/-- GROW keeps legal registers legal. -/
theorem dictRegs_grow {d : Dict} (h : dictRegs d) (hf : d.full = false) :
    dictRegs (grow d) := by
  obtain ⟨g1, g2, g3, g4⟩ := grow_regs h hf
  obtain ⟨e1, e2⟩ := dictRegs_growth h hf
  have hb : (grow d).base = d.base := by rw [Dict.base, grow_eq]; rfl
  refine ⟨by rw [g2, g1, e2], ?_, by rw [hb, g1]; have := h.2.2.1; omega, by omega, by rw [g4, g1]; simp⟩
  rw [g3, g2]
  split
  · rw [pow_succ, h.2.1]; omega
  · exact h.2.1

/-! ### Chains -/

/-- The walk of DICT_LOOKUP is the search of the chain's members, in chain order. -/
theorem chainFind_eq (d : Dict) (B : Byte) (fuel : Nat) (e : Option Code) :
    chainFind d B fuel e
      = (chainFrom d fuel e).find? (fun x => decide (d.trailingAt x.toNat = B)) := by
  induction fuel generalizing e with
  | zero => rfl
  | succ fuel ih =>
    cases e with
    | none => rfl
    | some e =>
      simp only [chainFind, chainFrom, List.find?_cons]
      by_cases h : d.trailingAt e.toNat = B
      · simp [h]
      · simp [h, ih]

/-- A chain depends on the links of its members only. -/
theorem chainIs_congr {d d' : Dict} {l : List Code} {e : Option Code}
    (h : ∀ x ∈ l, d'.linkAt x.toNat = d.linkAt x.toNat) (hc : chainIs d e l) : chainIs d' e l := by
  induction l generalizing e with
  | nil => exact hc
  | cons x l ih =>
    refine ⟨hc.1, ?_⟩
    rw [h x (by simp)]
    exact ih (fun y hy => h y (by simp [hy])) hc.2

/-- `unlinkFrom` writes links only. -/
theorem unlinkFrom_eq (s : Code) (fuel : Nat) (e : Option Code) (d : Dict) :
    unlinkFrom s fuel e d = { d with link := (unlinkFrom s fuel e d).link } := by
  induction fuel generalizing e d with
  | zero => rfl
  | succ fuel ih =>
    cases e with
    | none => rfl
    | some e =>
      simp only [unlinkFrom]
      split
      · rfl
      · exact ih _ _

/-- The walk of DICT_UNLINK takes `s` out of a chain that holds it past its first member. -/
theorem unlinkFrom_chain (s : Code) (fuel : Nat) (e : Option Code) (d : Dict) (l : List Code)
    (hc : chainIs d e l) (hn : l.Nodup) (hs : s ∈ l) (he : e ≠ some s) (hf : l.length ≤ fuel) :
    chainIs (unlinkFrom s fuel e d) e (l.erase s)
      ∧ (∀ x, (∀ y ∈ l, y.toNat ≠ x) → (unlinkFrom s fuel e d).linkAt x = d.linkAt x)
      ∧ (unlinkFrom s fuel e d).linkAt s.toNat = d.linkAt s.toNat := by
  induction fuel generalizing e l with
  | zero => cases l <;> simp_all
  | succ fuel ih =>
    cases l with
    | nil => simp at hs
    | cons a l =>
      obtain ⟨rfl, hc⟩ := hc
      have hne : a ≠ s := fun h => he (by rw [h])
      have hnat : a.toNat ≠ s.toNat := fun h => hne (BitVec.eq_of_toNat_eq h)
      simp only [unlinkFrom]
      have hs' : s ∈ l := by simpa [Ne.symm hne] using hs
      rw [List.erase_cons_tail (by simpa using hne)]
      have hn' := List.nodup_cons.mp hn
      split
      · rename_i hl
        have hget : ∀ x, (d.putLink a.toNat (d.linkAt s.toNat)).linkAt x
            = if a.toNat = x then d.linkAt s.toNat else d.linkAt x :=
          fun x => Dict.linkAt_putLink d a.toNat _ x
        refine ⟨⟨rfl, ?_⟩, ?_, ?_⟩
        · rw [hget, if_pos rfl]
          cases l with
          | nil => simp at hs'
          | cons b l =>
            rw [hl] at hc
            obtain ⟨hb, hc⟩ := hc
            cases hb
            simp only [List.erase_cons_head]
            refine chainIs_congr ?_ hc
            intro x hx
            rw [hget, if_neg]
            intro hh
            have : a = x := BitVec.eq_of_toNat_eq hh
            subst this
            exact hn'.1 (by simp [hx])
        · intro x hx
          rw [hget, if_neg (hx a (by simp))]
        · rw [hget, if_neg hnat]
      · rename_i hl
        obtain ⟨i1, i2, i3⟩ := ih (d.linkAt a.toNat) l hc hn'.2 hs' hl (by simpa using hf)
        refine ⟨⟨rfl, ?_⟩, fun x hx => i2 x (fun y hy => hx y (by simp [hy])), i3⟩
        rw [i2 a.toNat]
        · exact i1
        · intro y hy hh
          have : y = a := BitVec.eq_of_toNat_eq hh
          subst this
          exact hn'.1 hy

/-! ### The circular scan -/

/-- A slot that the scan answers may be recycled for the prefix (42_dictionary R133). -/
theorem dictEligible_iff (d : Dict) (s P : Code) :
    dictEligible d s P = true ↔ recyclable d P.toNat s.toNat := by
  unfold dictEligible recyclable
  rw [Bool.and_eq_true, decide_eq_true_iff, decide_eq_true_iff, Ne, Ne, BitVec.toNat_inj]

/-- One place further on the circle. -/
theorem slotAfter_toNat {d : Dict} (hb : d.base < 4096) (c : Code) (hc : d.base ≤ c.toNat) :
    (slotAfter d c).toNat = slotOnCircle d.base c.toNat 1 ∧ d.base ≤ (slotAfter d c).toNat := by
  have hlt := c.isLt
  have e4095 : (4095 : Code).toNat = 4095 := rfl
  unfold slotAfter slotOnCircle
  split
  · rename_i h
    subst h
    rw [e4095, BitVec.toNat_ofNat, Nat.mod_eq_of_lt hb]
    have : 4095 - d.base + 1 = 4096 - d.base := by omega
    rw [this, Nat.mod_self]; omega
  · rename_i h
    have : c.toNat ≠ 4095 := fun hh => h (BitVec.eq_of_toNat_eq (by rw [hh, e4095]))
    rw [BitVec.toNat_add]
    have e1 : (1 : Code).toNat = 1 := rfl
    rw [e1, Nat.mod_eq_of_lt (by omega), Nat.mod_eq_of_lt (by omega)]; omega

/-- `k` places after the place after `c` is `k + 1` places after `c`. -/
theorem slotOnCircle_succ (base c k : Nat) :
    slotOnCircle base (slotOnCircle base c 1) k = slotOnCircle base c (k + 1) := by
  unfold slotOnCircle
  have h : base + (c - base + 1) % (4096 - base) - base = (c - base + 1) % (4096 - base) := by omega
  rw [h, Nat.mod_add_mod]
  congr 2
  omega

/-- The circular scan finds the first slot that may be recycled, or there is none among `fuel`. -/
theorem scanSlots_spec {d : Dict} (hb : d.base < 4096) (P : Code) (fuel : Nat) (c : Code)
    (hc : d.base ≤ c.toNat) :
    (∀ r, scanSlots d P fuel c = some r → ∃ k, 1 ≤ k ∧ k ≤ fuel
        ∧ r.toNat = slotOnCircle d.base c.toNat k ∧ recyclable d P.toNat r.toNat
        ∧ ∀ j, 1 ≤ j → j < k → ¬ recyclable d P.toNat (slotOnCircle d.base c.toNat j))
      ∧ (scanSlots d P fuel c = none → ∀ j, 1 ≤ j → j ≤ fuel →
          ¬ recyclable d P.toNat (slotOnCircle d.base c.toNat j)) := by
  induction fuel generalizing c with
  | zero => exact ⟨fun r h => by simp [scanSlots] at h, fun _ j h1 h2 => by omega⟩
  | succ fuel ih =>
    obtain ⟨e1, e2⟩ := slotAfter_toNat hb c hc
    obtain ⟨i1, i2⟩ := ih (slotAfter d c) e2
    simp only [scanSlots]
    by_cases hel : dictEligible d (slotAfter d c) P = true
    · rw [if_pos hel]
      refine ⟨?_, fun h => by cases h⟩
      rintro r h
      cases h
      exact ⟨1, by omega, by omega, e1, (dictEligible_iff _ _ _).1 hel, fun j h1 h2 => by omega⟩
    · rw [if_neg hel]
      have hne : ¬ recyclable d P.toNat (slotOnCircle d.base c.toNat 1) := by
        rw [← e1, ← dictEligible_iff]; exact hel
      have hs : ∀ j, slotOnCircle d.base (slotAfter d c).toNat j = slotOnCircle d.base c.toNat (j + 1) := by
        intro j; rw [e1, slotOnCircle_succ]
      have hlow : ∀ (j : Nat), 1 ≤ j →
          (∀ i, 1 ≤ i → i < j → ¬ recyclable d P.toNat (slotOnCircle d.base (slotAfter d c).toNat i)) →
          ∀ i, 1 ≤ i → i < j + 1 → ¬ recyclable d P.toNat (slotOnCircle d.base c.toNat i) := by
        intro j hj h i hi1 hi2
        by_cases hi : i = 1
        · subst hi; exact hne
        · have := h (i - 1) (by omega) (by omega)
          rw [hs, Nat.sub_add_cancel hi1] at this
          exact this
      constructor
      · intro r h
        obtain ⟨k, k1, k2, k3, k4, k5⟩ := i1 r h
        exact ⟨k + 1, by omega, by omega, by rw [k3, hs], k4, hlow k k1 k5⟩
      · intro h j h1 h2
        exact hlow (fuel + 1) (by omega) (fun i hi1 hi2 => i2 h i hi1 (by omega)) j h1 (by omega)

/-- Every slot of the circle is met within one round. -/
theorem slotOnCircle_surj {base c x : Nat} (hc : base ≤ c) (hc' : c < 4096)
    (hx : base ≤ x) (hx' : x < 4096) :
    ∃ k, 1 ≤ k ∧ k ≤ 4096 - base ∧ slotOnCircle base c k = x := by
  unfold slotOnCircle
  by_cases h : c < x
  · refine ⟨x - c, by omega, by omega, ?_⟩
    rw [Nat.mod_eq_of_lt (by omega)]; omega
  · refine ⟨x + (4096 - base) - c, by omega, by omega, ?_⟩
    have : c - base + (x + (4096 - base) - c) = (x - base) + (4096 - base) := by omega
    rw [this, Nat.add_mod_right, Nat.mod_eq_of_lt (by omega)]; omega

/-! ### Insertion -/

/-- DICT_INSERT while the table grows. -/
theorem dictInsert_growth {d : Dict} (hf : d.full = false) (P : Code) (B : Byte) :
    dictInsert P B d = (some (d.nextFree.setWidth 12), grow (placeEntry (d.nextFree.setWidth 12) P B d)) := by
  simp [dictInsert, dictNextSlot, hf]

/-- DICT_INSERT once the table is full. -/
theorem dictInsert_recycling {d : Dict} (hf : d.full = true) (P : Code) (B : Byte) :
    (dictNextSlot d P = none → dictInsert P B d = (none, d))
      ∧ (∀ c, dictNextSlot d P = some c → dictInsert P B d = (some c, placeEntry c P B (evict c d))) := by
  constructor
  · intro h; simp [dictInsert, h]
  · intro c h; simp [dictInsert, h, hf]

/-- DICT_UNLINK writes links and heads only. -/
theorem dictUnlink_eq (s : Code) (d : Dict) :
    dictUnlink s d = { d with link := (dictUnlink s d).link, head := (dictUnlink s d).head } := by
  unfold dictUnlink
  dsimp only
  split
  · rfl
  · rw [unlinkFrom_eq]

/-! ### What GROW and DICT_UNLINK leave alone -/

@[simp] theorem grow_minBits (d : Dict) : (grow d).minBits = d.minBits := by rw [grow_eq]

@[simp] theorem grow_recycleCursor (d : Dict) : (grow d).recycleCursor = d.recycleCursor := by rw [grow_eq]

@[simp] theorem grow_pfxAt (d : Dict) (x : Nat) : (grow d).pfxAt x = d.pfxAt x := by rw [grow_eq]; rfl

@[simp] theorem grow_trailingAt (d : Dict) (x : Nat) : (grow d).trailingAt x = d.trailingAt x := by rw [grow_eq]; rfl

@[simp] theorem grow_linkAt (d : Dict) (x : Nat) : (grow d).linkAt x = d.linkAt x := by rw [grow_eq]; rfl

@[simp] theorem grow_headAt (d : Dict) (x : Nat) : (grow d).headAt x = d.headAt x := by rw [grow_eq]; rfl

@[simp] theorem dictUnlink_minBits (s : Code) (d : Dict) : (dictUnlink s d).minBits = d.minBits := by
  rw [dictUnlink_eq]

@[simp] theorem dictUnlink_codeWidth (s : Code) (d : Dict) : (dictUnlink s d).codeWidth = d.codeWidth := by
  rw [dictUnlink_eq]

@[simp] theorem dictUnlink_ceiling (s : Code) (d : Dict) : (dictUnlink s d).ceiling = d.ceiling := by
  rw [dictUnlink_eq]

@[simp] theorem dictUnlink_nextFree (s : Code) (d : Dict) : (dictUnlink s d).nextFree = d.nextFree := by
  rw [dictUnlink_eq]

@[simp] theorem dictUnlink_full (s : Code) (d : Dict) : (dictUnlink s d).full = d.full := by
  rw [dictUnlink_eq]

@[simp] theorem dictUnlink_recycleCursor (s : Code) (d : Dict) : (dictUnlink s d).recycleCursor = d.recycleCursor := by
  rw [dictUnlink_eq]

@[simp] theorem dictUnlink_pfxAt (s : Code) (d : Dict) (x : Nat) : (dictUnlink s d).pfxAt x = d.pfxAt x := by
  rw [dictUnlink_eq]; rfl

@[simp] theorem dictUnlink_trailingAt (s : Code) (d : Dict) (x : Nat) : (dictUnlink s d).trailingAt x = d.trailingAt x := by
  rw [dictUnlink_eq]; rfl

@[simp] theorem evict_minBits (s : Code) (d : Dict) : (evict s d).minBits = d.minBits := by
  rw [evict, dictUnlink_eq]

@[simp] theorem evict_codeWidth (s : Code) (d : Dict) : (evict s d).codeWidth = d.codeWidth := by
  rw [evict, dictUnlink_eq]

@[simp] theorem evict_ceiling (s : Code) (d : Dict) : (evict s d).ceiling = d.ceiling := by
  rw [evict, dictUnlink_eq]

@[simp] theorem evict_nextFree (s : Code) (d : Dict) : (evict s d).nextFree = d.nextFree := by
  rw [evict, dictUnlink_eq]

@[simp] theorem evict_full (s : Code) (d : Dict) : (evict s d).full = d.full := by
  rw [evict, dictUnlink_eq]

@[simp] theorem evict_pfxAt (s : Code) (d : Dict) (x : Nat) : (evict s d).pfxAt x = d.pfxAt x := by
  rw [evict, dictUnlink_eq]; rfl

@[simp] theorem evict_trailingAt (s : Code) (d : Dict) (x : Nat) : (evict s d).trailingAt x = d.trailingAt x := by
  rw [evict, dictUnlink_eq]; rfl

@[simp] theorem evict_linkAt (s : Code) (d : Dict) (x : Nat) :
    (evict s d).linkAt x = (dictUnlink s d).linkAt x := rfl

@[simp] theorem evict_headAt (s : Code) (d : Dict) (x : Nat) :
    (evict s d).headAt x = (dictUnlink s d).headAt x := rfl

/-- DICT_INSERT keeps MIN_BITS. -/
theorem dictInsert_minBits (P : Code) (B : Byte) (d : Dict) : (dictInsert P B d).2.minBits = d.minBits := by
  cases hf : d.full with
  | false => rw [dictInsert_growth hf, grow_minBits]; rfl
  | true =>
    cases hs : dictNextSlot d P with
    | none => rw [(dictInsert_recycling hf P B).1 hs]
    | some c =>
      rw [(dictInsert_recycling hf P B).2 c hs]
      exact evict_minBits c d

theorem unlinkFrom_headAt (s : Code) (fuel : Nat) (e : Option Code) (d : Dict) (x : Nat) :
    (unlinkFrom s fuel e d).headAt x = d.headAt x := by
  rw [unlinkFrom_eq]; rfl

/-- DICT_INSERT keeps legal registers legal, and MIN_BITS. -/
theorem dictRegs_dictInsert {d : Dict} (h : dictRegs d) (P : Code) (B : Byte) :
    dictRegs (dictInsert P B d).2 ∧ (dictInsert P B d).2.minBits = d.minBits := by
  cases hf : d.full with
  | false =>
    rw [dictInsert_growth hf]
    refine ⟨dictRegs_grow (d := placeEntry (d.nextFree.setWidth 12) P B d) h hf, ?_⟩
    rw [grow_eq]; rfl
  | true =>
    cases hs : dictNextSlot d P with
    | none => rw [(dictInsert_recycling hf P B).1 hs]; exact ⟨h, rfl⟩
    | some c =>
      rw [(dictInsert_recycling hf P B).2 c hs, evict, dictUnlink_eq]
      exact ⟨h, rfl⟩

/-- DICT_READ_WIDTH is the width one insertion ahead (42_dictionary R139). -/
theorem dictReadWidth_eq {d : Dict} (h : dictRegs d) :
    dictReadWidth d = (if d.full = true then 12
      else if d.nextFree.toNat + 1 = d.ceiling.toNat ∧ d.codeWidth.toNat < 12
        then d.codeWidth.toNat + 1 else d.codeWidth.toNat) := by
  unfold dictReadWidth
  cases hf : d.full with
  | true => rfl
  | false => simp only [Bool.false_eq_true, if_false]; exact ((dictRegs_growth h hf).2).symm

theorem dictReadWidth_le (d : Dict) : dictReadWidth d ≤ 12 := by
  unfold dictReadWidth
  split
  · exact Nat.le_refl _
  · exact dictWidth_le _

end Sys2Proof.Machine
end

