-- ==== Sys2Proof/Laws/Live.lean ====
section
/-! SUPPORT. The live slots of an initialised dictionary: chains stay among them, and what an operation
answers and does depends on them alone, whatever the other slots hold. -/

namespace Sys2Proof.Machine

open Sys2Proof Sys2Proof.Safety

/-- Slot `x` holds an entry. -/
def Dict.live (d : Dict) (x : Nat) : Prop := d.base ≤ x ∧ x < d.nextFree.toNat

/-- Chains stay among the live slots, and the registers are legal. -/
structure Dict.Closed (d : Dict) : Prop where
  /-- MIN_BITS is legal -/
  bits : minBitsLegal d.minBits
  /-- the registers are legal -/
  regs : dictRegs d
  /-- the cursor is a slot -/
  cursor : d.base ≤ d.recycleCursor.toNat
  /-- a bucket's first member is live -/
  head : ∀ p e, d.headAt p = some e → d.live e.toNat
  /-- the member after a live slot is live -/
  link : ∀ x, d.live x → ∀ e, d.linkAt x = some e → d.live e.toNat

/-- Two dictionaries that agree on their registers, their buckets and their live slots. -/
structure Dict.Same (d d' : Dict) : Prop where
  minBits : d.minBits = d'.minBits
  codeWidth : d.codeWidth = d'.codeWidth
  ceiling : d.ceiling = d'.ceiling
  nextFree : d.nextFree = d'.nextFree
  full : d.full = d'.full
  cursor : d.recycleCursor = d'.recycleCursor
  head : ∀ p, d.headAt p = d'.headAt p
  pfx : ∀ x, d.live x → d.pfxAt x = d'.pfxAt x
  trailing : ∀ x, d.live x → d.trailingAt x = d'.trailingAt x
  link : ∀ x, d.live x → d.linkAt x = d'.linkAt x

theorem Dict.Same.refl (d : Dict) : Dict.Same d d :=
  ⟨rfl, rfl, rfl, rfl, rfl, rfl, fun _ => rfl, fun _ _ => rfl, fun _ _ => rfl, fun _ _ => rfl⟩

theorem Dict.Same.base {d d' : Dict} (h : Dict.Same d d') : d.base = d'.base := by
  unfold Dict.base; rw [h.minBits]

theorem Dict.Closed.base_lt {d : Dict} (h : d.Closed) : 128 ≤ d.base ∧ d.base ≤ 256 := by
  rcases Dict.base_le_of_legal h.bits with h | h <;> omega

theorem Dict.Closed.full_iff {d : Dict} (h : d.Closed) : d.full = true ↔ d.nextFree.toNat = 4096 :=
  h.regs.2.2.2.2

/-- DICT_INIT starts a closed table, whatever was there. -/
theorem Dict.closed_dictInit {mb : BitVec 4} (h : minBitsLegal mb) (d : Dict) : (dictInit mb d).Closed := by
  have hn : ∀ x, ¬ (dictInit mb d).live x := by
    intro x hx
    unfold Dict.live at hx
    rcases h with rfl | rfl
    · have h1 : (dictInit 7 d).base = 128 := rfl
      have h2 : (dictInit 7 d).nextFree.toNat = 128 := rfl
      omega
    · have h1 : (dictInit 8 d).base = 256 := rfl
      have h2 : (dictInit 8 d).nextFree.toNat = 256 := rfl
      omega
  refine ⟨h, dictRegs_dictInit h d, ?_, fun p e he => ?_, fun x hx => absurd hx (hn x)⟩
  · rcases h with rfl | rfl
    · exact (by decide : 2 ^ (7 : BitVec 4).toNat ≤ (4095 : Code).toNat)
    · exact (by decide : 2 ^ (8 : BitVec 4).toNat ≤ (4095 : Code).toNat)
  · have : (dictInit mb d).headAt p = none := rfl
    rw [this] at he
    cases he

theorem Dict.same_dictInit {mb : BitVec 4} (h : minBitsLegal mb) (d d' : Dict) :
    Dict.Same (dictInit mb d) (dictInit mb d') := by
  have hn : ∀ x, ¬ (dictInit mb d).live x := by
    intro x hx
    unfold Dict.live at hx
    rcases h with rfl | rfl
    · have h1 : (dictInit 7 d).base = 128 := rfl
      have h2 : (dictInit 7 d).nextFree.toNat = 128 := rfl
      omega
    · have h1 : (dictInit 8 d).base = 256 := rfl
      have h2 : (dictInit 8 d).nextFree.toNat = 256 := rfl
      omega
  exact ⟨rfl, rfl, rfl, rfl, rfl, rfl, fun _ => rfl, fun x hx => absurd hx (hn x),
    fun x hx => absurd hx (hn x), fun x hx => absurd hx (hn x)⟩

/-! ### Lookup and the insertion cursor -/

/-- A match that a lookup finds is live. -/
theorem chainFind_live {d : Dict} (h : d.Closed) (B : Byte) (fuel : Nat) (e : Option Code)
    (he : ∀ c, e = some c → d.live c.toNat) (r : Code) (hr : chainFind d B fuel e = some r) :
    d.live r.toNat := by
  induction fuel generalizing e with
  | zero => cases hr
  | succ fuel ih =>
    cases e with
    | none => cases hr
    | some c =>
      simp only [chainFind] at hr
      split at hr
      · cases hr; exact he _ rfl
      · exact ih _ (h.link _ (he c rfl)) hr

theorem dictLookup_live {d : Dict} (h : d.Closed) {P : Code} {B : Byte} {r : Code}
    (hr : dictLookup d P B = some r) : d.live r.toNat :=
  chainFind_live h B _ _ (fun _ hc => h.head _ _ hc) r hr

theorem chainFind_same {d d' : Dict} (h : d.Closed) (hs : Dict.Same d d') (B : Byte) (fuel : Nat)
    (e : Option Code) (he : ∀ c, e = some c → d.live c.toNat) :
    chainFind d B fuel e = chainFind d' B fuel e := by
  induction fuel generalizing e with
  | zero => rfl
  | succ fuel ih =>
    cases e with
    | none => rfl
    | some c =>
      simp only [chainFind]
      rw [hs.trailing _ (he c rfl), hs.link _ (he c rfl)]
      split
      · rfl
      · rw [← hs.link _ (he c rfl)]
        exact ih _ (h.link _ (he c rfl))

theorem dictLookup_same {d d' : Dict} (h : d.Closed) (hs : Dict.Same d d') (P : Code) (B : Byte) :
    dictLookup d P B = dictLookup d' P B := by
  unfold dictLookup
  rw [← hs.base, ← hs.head]
  exact chainFind_same h hs B _ _ (h.head _)

theorem scanSlots_same {d d' : Dict} (hs : Dict.Same d d') (P : Code) (fuel : Nat) (c : Code) :
    scanSlots d P fuel c = scanSlots d' P fuel c := by
  induction fuel generalizing c with
  | zero => rfl
  | succ fuel ih =>
    have h1 : ∀ c, slotAfter d c = slotAfter d' c := fun c => by unfold slotAfter; rw [hs.base]
    have h2 : ∀ x, dictEligible d x P = dictEligible d' x P := fun x => by
      unfold dictEligible; rw [hs.head]
    simp only [scanSlots, h1, h2, ih]

theorem dictNextSlot_same {d d' : Dict} (hs : Dict.Same d d') (P : Code) :
    dictNextSlot d P = dictNextSlot d' P := by
  unfold dictNextSlot
  rw [hs.full, hs.base, hs.cursor, hs.nextFree, scanSlots_same hs]

/-- A slot chosen for recycling is a leaf other than the prefix, and a slot of the table. -/
theorem dictNextSlot_recycling {d : Dict} (h : d.Closed) (hf : d.full = true) {P c : Code}
    (hc : dictNextSlot d P = some c) :
    d.live c.toNat ∧ d.headAt c.toNat = none ∧ c ≠ P := by
  have hb := h.base_lt
  have hn := h.full_iff.1 hf
  have : scanSlots d P (4096 - d.base) d.recycleCursor = some c := by
    rw [← hc]; simp [dictNextSlot, hf, Config.dictCapacity]
  obtain ⟨k, k1, k2, k3, k4, _⟩ := (scanSlots_spec (by omega) P _ _ h.cursor).1 c this
  refine ⟨⟨?_, by have := c.isLt; omega⟩, k4.1, fun he => k4.2 (by rw [he])⟩
  rw [k3]
  unfold slotOnCircle
  omega

/-- The slot of a growth-phase insertion. -/
theorem dictNextSlot_growth {d : Dict} (h : d.Closed) (hf : d.full = false) (P : Code) :
    dictNextSlot d P = some (d.nextFree.setWidth 12)
      ∧ (d.nextFree.setWidth 12 : Code).toNat = d.nextFree.toNat ∧ d.nextFree.toNat < 4096 := by
  have hlt := (dictRegs_growth h.regs hf).1
  refine ⟨by simp [dictNextSlot, hf], ?_, hlt⟩
  rw [BitVec.toNat_setWidth]
  omega

/-! ### Unlinking -/

/-- The walk of DICT_UNLINK stays among the live slots. -/
theorem unlinkFrom_closed {d : Dict} (h : d.Closed) {s : Code} (hs : d.live s.toNat) (fuel : Nat)
    (e : Option Code) (he : ∀ c, e = some c → d.live c.toNat) :
    (unlinkFrom s fuel e d).Closed := by
  induction fuel generalizing e with
  | zero => exact h
  | succ fuel ih =>
    cases e with
    | none => exact h
    | some c =>
      simp only [unlinkFrom]
      split
      · refine ⟨h.bits, h.regs, h.cursor, h.head, ?_⟩
        intro x hx e' he'
        rw [Dict.linkAt_putLink] at he'
        split at he'
        · exact h.link _ hs _ he'
        · exact h.link x hx _ he'
      · exact ih _ (h.link _ (he c rfl))

theorem dictUnlink_closed {d : Dict} (h : d.Closed) {s : Code} (hs : d.live s.toNat) :
    (dictUnlink s d).Closed := by
  unfold dictUnlink
  dsimp only
  split
  · refine ⟨h.bits, h.regs, h.cursor, ?_, h.link⟩
    intro p e he
    rw [Dict.headAt_putHead] at he
    split at he
    · exact h.link _ hs _ he
    · exact h.head p _ he
  · exact unlinkFrom_closed h hs _ _ (h.head _)

theorem unlinkFrom_same {d d' : Dict} (h : d.Closed) (hs : Dict.Same d d') {s : Code}
    (hl : d.live s.toNat) (fuel : Nat) (e : Option Code) (he : ∀ c, e = some c → d.live c.toNat) :
    Dict.Same (unlinkFrom s fuel e d) (unlinkFrom s fuel e d') := by
  induction fuel generalizing e with
  | zero => exact hs
  | succ fuel ih =>
    cases e with
    | none => exact hs
    | some c =>
      simp only [unlinkFrom]
      rw [← hs.link _ (he c rfl), ← hs.link _ hl]
      split
      · refine ⟨hs.minBits, hs.codeWidth, hs.ceiling, hs.nextFree, hs.full, hs.cursor, hs.head, hs.pfx,
          hs.trailing, ?_⟩
        intro x hx
        rw [Dict.linkAt_putLink, Dict.linkAt_putLink]
        split
        · rfl
        · exact hs.link x hx
      · exact ih _ (h.link _ (he c rfl))

theorem dictUnlink_same {d d' : Dict} (h : d.Closed) (hs : Dict.Same d d') {s : Code}
    (hl : d.live s.toNat) : Dict.Same (dictUnlink s d) (dictUnlink s d') := by
  unfold dictUnlink
  dsimp only
  rw [← hs.pfx _ hl, ← hs.head, ← hs.link _ hl, ← hs.base]
  split
  · refine ⟨hs.minBits, hs.codeWidth, hs.ceiling, hs.nextFree, hs.full, hs.cursor, ?_, hs.pfx,
      hs.trailing, hs.link⟩
    intro p
    rw [Dict.headAt_putHead, Dict.headAt_putHead]
    split
    · rfl
    · exact hs.head p
  · exact unlinkFrom_same h hs hl _ _ (h.head _)

/-! ### Insertion -/

theorem grow_base (d : Dict) : (grow d).base = d.base := by unfold Dict.base; rw [grow_minBits]

/-- The registers of GROW depend on the registers alone. -/
theorem grow_congr {d d' : Dict} (h1 : d.codeWidth = d'.codeWidth) (h2 : d.ceiling = d'.ceiling)
    (h3 : d.nextFree = d'.nextFree) (h4 : d.full = d'.full) :
    (grow d).codeWidth = (grow d').codeWidth ∧ (grow d).ceiling = (grow d').ceiling
      ∧ (grow d).nextFree = (grow d').nextFree ∧ (grow d).full = (grow d').full := by
  cases d
  cases d'
  dsimp only at h1 h2 h3 h4
  subst h1 h2 h3 h4
  unfold grow growWidth
  dsimp only
  split <;> split <;> exact ⟨rfl, rfl, rfl, rfl⟩

theorem placeEntry_minBits (s P : Code) (B : Byte) (d : Dict) :
    (placeEntry s P B d).minBits = d.minBits := by rw [placeEntry_eq]

theorem placeEntry_codeWidth (s P : Code) (B : Byte) (d : Dict) :
    (placeEntry s P B d).codeWidth = d.codeWidth := by rw [placeEntry_eq]

theorem placeEntry_ceiling (s P : Code) (B : Byte) (d : Dict) :
    (placeEntry s P B d).ceiling = d.ceiling := by rw [placeEntry_eq]

theorem placeEntry_nextFree (s P : Code) (B : Byte) (d : Dict) :
    (placeEntry s P B d).nextFree = d.nextFree := by rw [placeEntry_eq]

theorem placeEntry_full (s P : Code) (B : Byte) (d : Dict) :
    (placeEntry s P B d).full = d.full := by rw [placeEntry_eq]

theorem placeEntry_recycleCursor (s P : Code) (B : Byte) (d : Dict) :
    (placeEntry s P B d).recycleCursor = d.recycleCursor := by rw [placeEntry_eq]

theorem placeEntry_live (s P : Code) (B : Byte) (d : Dict) (x : Nat) :
    (placeEntry s P B d).live x ↔ d.live x := by
  unfold Dict.live Dict.base
  rw [placeEntry_minBits, placeEntry_nextFree]

theorem dictUnlink_live (c : Code) (d : Dict) (x : Nat) : (dictUnlink c d).live x ↔ d.live x := by
  unfold Dict.live Dict.base
  rw [dictUnlink_minBits, dictUnlink_nextFree]

theorem evict_live (c : Code) (d : Dict) (x : Nat) : (evict c d).live x ↔ d.live x := by
  unfold Dict.live Dict.base
  rw [evict_minBits, evict_nextFree]

/-- DICT_INSERT keeps a table closed. -/
theorem dictInsert_closed {d : Dict} (h : d.Closed) (P : Code) (B : Byte) :
    (dictInsert P B d).2.Closed := by
  have hr := (dictRegs_dictInsert h.regs P B).1
  have hm := dictInsert_minBits P B d
  have hbase : (dictInsert P B d).2.base = d.base := by unfold Dict.base; rw [hm]
  cases hf : d.full with
  | false =>
    obtain ⟨_, e2, e3⟩ := dictNextSlot_growth h hf P
    rw [dictInsert_growth hf] at hr hm hbase ⊢
    dsimp only at hr hm hbase ⊢
    generalize hc : (d.nextFree.setWidth 12 : Code) = c at *
    have hn : (grow (placeEntry c P B d)).nextFree.toNat = d.nextFree.toNat + 1 :=
      (grow_regs (d := placeEntry c P B d) h.regs hf).1
    have hlive : ∀ x, d.live x → (grow (placeEntry c P B d)).live x := by
      intro x hx
      unfold Dict.live at *
      omega
    have hcl : (grow (placeEntry c P B d)).live c.toNat := by
      have := h.regs.2.2.1
      unfold Dict.live
      omega
    refine ⟨by rw [hm]; exact h.bits, hr, ?_, ?_, ?_⟩
    · rw [hbase, grow_recycleCursor]; exact h.cursor
    · intro p e he
      rw [grow_headAt, placeEntry_headAt] at he
      split at he
      · cases he; exact hcl
      · exact hlive _ (h.head p e he)
    · intro x hx e he
      rw [grow_linkAt, placeEntry_linkAt] at he
      split at he
      · exact hlive _ (h.head _ e he)
      · have hx' : d.live x := by
          unfold Dict.live at *
          omega
        exact hlive _ (h.link x hx' e he)
  | true =>
    cases hs : dictNextSlot d P with
    | none => rw [(dictInsert_recycling hf P B).1 hs]; exact h
    | some c =>
      obtain ⟨c1, c2, c3⟩ := dictNextSlot_recycling h hf hs
      have hu := dictUnlink_closed h c1
      rw [(dictInsert_recycling hf P B).2 c hs] at hr hm hbase ⊢
      dsimp only at hr hm hbase ⊢
      have hlive : ∀ x, (dictUnlink c d).live x ↔ (placeEntry c P B (evict c d)).live x := fun x =>
        (dictUnlink_live c d x).trans ((evict_live c d x).symm.trans (placeEntry_live c P B _ x).symm)
      have hlive' := dictUnlink_live c d
      refine ⟨by rw [hm]; exact h.bits, hr, ?_, ?_, ?_⟩
      · rw [hbase, placeEntry_recycleCursor]; exact c1.1
      · intro p e he
        rw [placeEntry_headAt] at he
        split at he
        · cases he; exact (hlive _).1 ((hlive' _).2 c1)
        · exact (hlive _).1 (hu.head p e he)
      · intro x hx e he
        rw [placeEntry_linkAt] at he
        split at he
        · exact (hlive _).1 (hu.head _ e he)
        · exact (hlive _).1 (hu.link x ((hlive _).2 hx) e he)

/-- The same entry put into two dictionaries that agree. -/
theorem placeEntry_same {e e' : Dict} (h : Dict.Same e e') (c P : Code) (B : Byte) :
    Dict.Same (placeEntry c P B e) (placeEntry c P B e') := by
  have hl := fun x => (placeEntry_live c P B e x).1
  constructor
  · rw [placeEntry_minBits, placeEntry_minBits, h.minBits]
  · rw [placeEntry_codeWidth, placeEntry_codeWidth, h.codeWidth]
  · rw [placeEntry_ceiling, placeEntry_ceiling, h.ceiling]
  · rw [placeEntry_nextFree, placeEntry_nextFree, h.nextFree]
  · rw [placeEntry_full, placeEntry_full, h.full]
  · rw [placeEntry_recycleCursor, placeEntry_recycleCursor, h.cursor]
  · intro p
    rw [placeEntry_headAt, placeEntry_headAt, h.head]
  · intro x hx
    rw [placeEntry_pfxAt, placeEntry_pfxAt, h.pfx x (hl x hx)]
  · intro x hx
    rw [placeEntry_trailingAt, placeEntry_trailingAt, h.trailing x (hl x hx)]
  · intro x hx
    rw [placeEntry_linkAt, placeEntry_linkAt, h.head, h.link x (hl x hx)]

/-- What DICT_INSERT does depends on the live slots alone. -/
theorem dictInsert_same {d d' : Dict} (h : d.Closed) (hs : Dict.Same d d') (P : Code) (B : Byte) :
    (dictInsert P B d).1 = (dictInsert P B d').1
      ∧ Dict.Same (dictInsert P B d).2 (dictInsert P B d').2 := by
  cases hf : d.full with
  | false =>
    have hf' : d'.full = false := by rw [← hs.full]; exact hf
    obtain ⟨_, e2, e3⟩ := dictNextSlot_growth h hf P
    rw [dictInsert_growth hf, dictInsert_growth hf', ← hs.nextFree]
    dsimp only
    generalize hc : (d.nextFree.setWidth 12 : Code) = c at *
    have hn : (grow (placeEntry c P B d)).nextFree.toNat = d.nextFree.toNat + 1 :=
      (grow_regs (d := placeEntry c P B d) h.regs hf).1
    have hb : (grow (placeEntry c P B d)).base = d.base := grow_base _
    have hlive : ∀ x, (grow (placeEntry c P B d)).live x → c.toNat ≠ x → d.live x := by
      intro x hx hne
      unfold Dict.live at *
      omega
    obtain ⟨g1, g2, g3, g4⟩ := grow_congr (d := placeEntry c P B d) (d' := placeEntry c P B d')
      (by rw [placeEntry_codeWidth, placeEntry_codeWidth, hs.codeWidth])
      (by rw [placeEntry_ceiling, placeEntry_ceiling, hs.ceiling])
      (by rw [placeEntry_nextFree, placeEntry_nextFree, hs.nextFree])
      (by rw [placeEntry_full, placeEntry_full, hs.full])
    refine ⟨rfl, ?_⟩
    constructor
    · rw [grow_minBits, grow_minBits, placeEntry_minBits, placeEntry_minBits, hs.minBits]
    · exact g1
    · exact g2
    · exact g3
    · exact g4
    · rw [grow_recycleCursor, grow_recycleCursor, placeEntry_recycleCursor, placeEntry_recycleCursor,
        hs.cursor]
    · intro p
      rw [grow_headAt, grow_headAt, placeEntry_headAt, placeEntry_headAt, hs.head]
    · intro x hx
      rw [grow_pfxAt, grow_pfxAt, placeEntry_pfxAt, placeEntry_pfxAt]
      split
      · rfl
      · exact hs.pfx x (hlive x hx ‹_›)
    · intro x hx
      rw [grow_trailingAt, grow_trailingAt, placeEntry_trailingAt, placeEntry_trailingAt]
      split
      · rfl
      · exact hs.trailing x (hlive x hx ‹_›)
    · intro x hx
      rw [grow_linkAt, grow_linkAt, placeEntry_linkAt, placeEntry_linkAt, hs.head]
      split
      · rfl
      · exact hs.link x (hlive x hx ‹_›)
  | true =>
    have hf' : d'.full = true := by rw [← hs.full]; exact hf
    have hns := dictNextSlot_same hs P
    cases hc : dictNextSlot d P with
    | none =>
      rw [(dictInsert_recycling hf P B).1 hc, (dictInsert_recycling hf' P B).1 (by rw [← hns]; exact hc)]
      exact ⟨rfl, hs⟩
    | some c =>
      obtain ⟨c1, c2, c3⟩ := dictNextSlot_recycling h hf hc
      have hu := dictUnlink_same h hs c1
      rw [(dictInsert_recycling hf P B).2 c hc, (dictInsert_recycling hf' P B).2 c (by rw [← hns]; exact hc)]
      have he : Dict.Same (evict c d) (evict c d') := by
        refine ⟨?_, ?_, ?_, ?_, ?_, rfl, ?_, ?_, ?_, ?_⟩
        · rw [evict_minBits, evict_minBits, hs.minBits]
        · rw [evict_codeWidth, evict_codeWidth, hs.codeWidth]
        · rw [evict_ceiling, evict_ceiling, hs.ceiling]
        · rw [evict_nextFree, evict_nextFree, hs.nextFree]
        · rw [evict_full, evict_full, hs.full]
        · intro p
          rw [evict_headAt, evict_headAt, hu.head]
        · intro x hx
          exact hu.pfx x hx
        · intro x hx
          exact hu.trailing x hx
        · intro x hx
          exact hu.link x hx
      exact ⟨rfl, placeEntry_same he c P B⟩

/-- A code below `next_free` fits in the code width. -/
theorem Dict.Closed.code_lt {d : Dict} (h : d.Closed) {x : Nat} (hx : x < d.nextFree.toNat) :
    x < 2 ^ d.codeWidth.toNat := by
  have h1 := h.regs.1
  have h2 := (dictWidth_le_iff d.nextFree.toNat _).1 (Nat.le_refl (dictWidth d.nextFree.toNat))
  rw [← h1] at h2
  rcases h2 with h2 | h2
  · omega
  · have h3 : 2 ^ 12 ≤ 2 ^ d.codeWidth.toNat := Nat.pow_le_pow_right (by omega) h2
    have := h.regs.2.2.2.1
    omega

/-- `next_free` never falls. -/
theorem dictInsert_nextFree_le {d : Dict} (h : d.Closed) (P : Code) (B : Byte) :
    d.nextFree.toNat ≤ (dictInsert P B d).2.nextFree.toNat := by
  cases hf : d.full with
  | false =>
    rw [dictInsert_growth hf]
    have := (grow_regs (d := placeEntry (d.nextFree.setWidth 12) P B d) h.regs hf).1
    have h2 : (placeEntry (d.nextFree.setWidth 12) P B d).nextFree = d.nextFree := rfl
    rw [h2] at this
    dsimp only
    omega
  | true =>
    cases hs : dictNextSlot d P with
    | none => rw [(dictInsert_recycling hf P B).1 hs]
    | some c =>
      rw [(dictInsert_recycling hf P B).2 c hs]
      have : (placeEntry c P B (evict c d)).nextFree = d.nextFree := evict_nextFree c d
      rw [this]

end Sys2Proof.Machine
end

