-- ==== Sys2Proof/Laws/Chains.lean ====
section
/-! SUPPORT. The chains of a dictionary that was filled by insertions: each holds exactly the live slots of its
prefix, and each live slot spells a string (00_scope R19, 42_dictionary R132 to R136). -/

namespace Sys2Proof.Machine

open Sys2Proof Sys2Proof.Safety

/-- Each bucket's chain holds, once each, the slots in `L` whose prefix it is. -/
def ChainsOf (d : Dict) (L : Nat → Prop) : Prop :=
  ∀ p, ∃ l, chainIs d (d.headAt p) l ∧ l.Nodup
    ∧ ∀ e : Code, e ∈ l ↔ L e.toNat ∧ (d.pfxAt e.toNat).toNat = p

/-- Code `x` spells the bytes `bs`, newest first. -/
inductive Dict.Spells (d : Dict) : Nat → List Byte → Prop
  /-- a literal -/
  | lit (x : Nat) : x < d.base → Dict.Spells d x [BitVec.ofNat 8 x]
  /-- an entry -/
  | node (x : Nat) (bs : List Byte) : d.live x → Dict.Spells d (d.pfxAt x).toNat bs →
      Dict.Spells d x (d.trailingAt x :: bs)

/-- A dictionary that was filled by insertions. -/
structure Dict.Chained (d : Dict) : Prop where
  closed : d.Closed
  chains : ChainsOf d d.live
  spells : ∀ x, d.live x → ∃ bs, d.Spells x bs

/-! ### Spelling -/

theorem Dict.Spells.unique {d : Dict} {x : Nat} {bs cs : List Byte} (h : d.Spells x bs)
    (h' : d.Spells x cs) : bs = cs := by
  induction h generalizing cs with
  | lit x hx =>
    cases h' with
    | lit _ _ => rfl
    | node _ _ hl _ => exact absurd hx (by have := hl.1; omega)
  | node x bs hl _ ih =>
    cases h' with
    | lit _ hx => exact absurd hx (by have := hl.1; omega)
    | node _ _ _ h2 => rw [ih h2]

theorem Dict.Spells.ne_nil {d : Dict} {x : Nat} {bs : List Byte} (h : d.Spells x bs) : bs ≠ [] := by
  cases h <;> simp

theorem Dict.Spells.range {d : Dict} {x : Nat} {bs : List Byte} (h : d.Spells x bs) :
    x < d.base ∨ d.live x := by
  cases h with
  | lit _ hx => exact .inl hx
  | node _ _ hl _ => exact .inr hl

theorem Dict.Spells.lt {d : Dict} (hd : d.Closed) {x : Nat} {bs : List Byte} (h : d.Spells x bs) :
    x < d.nextFree.toNat := by
  have := hd.regs.2.2.1
  rcases h.range with h | h
  · omega
  · exact h.2

/-- The walk of an expansion gives what a code spells. -/
theorem Dict.Spells.expansionRev {d : Dict} {x : Nat} {bs : List Byte} (h : d.Spells x bs) {fuel : Nat}
    (hf : bs.length ≤ fuel + 1) : Safety.expansionRev d fuel x = some bs := by
  induction h generalizing fuel with
  | lit x hx => cases fuel <;> simp [Safety.expansionRev, hx]
  | node x bs hl h2 ih =>
    have hne := List.length_pos_of_ne_nil h2.ne_nil
    rw [List.length_cons] at hf
    obtain ⟨fuel, rfl⟩ : ∃ n, fuel = n + 1 := ⟨fuel - 1, by omega⟩
    have := hl.1
    rw [Safety.expansionRev, if_neg (by omega), ih (by omega)]

/-- The entries that an expansion meets are distinct. -/
theorem Dict.Spells.path {d : Dict} {x : Nat} {bs : List Byte} (h : d.Spells x bs) :
    ∃ l : List Nat, l.length + 1 = bs.length ∧ l.Nodup ∧ (∀ y ∈ l, d.live y)
      ∧ ∀ y ∈ l, ∃ cs, d.Spells y cs ∧ cs.length ≤ bs.length := by
  induction h with
  | lit x _ => exact ⟨[], by simp⟩
  | node x bs hl h2 ih =>
    obtain ⟨l, l1, l2, l3, l4⟩ := ih
    refine ⟨x :: l, by simp [l1], List.nodup_cons.2 ⟨fun hx => ?_, l2⟩, ?_, ?_⟩
    · obtain ⟨cs, c1, c2⟩ := l4 x hx
      have := c1.unique (.node x bs hl h2)
      rw [this, List.length_cons] at c2
      omega
    · intro y hy
      rcases List.mem_cons.1 hy with rfl | hy
      · exact hl
      · exact l3 y hy
    · intro y hy
      rcases List.mem_cons.1 hy with rfl | hy
      · exact ⟨_, .node y bs hl h2, Nat.le_refl _⟩
      · obtain ⟨cs, c1, c2⟩ := l4 y hy
        exact ⟨cs, c1, by rw [List.length_cons]; omega⟩

/-- Distinct live slots are at most as many as the table has. -/
theorem Dict.Closed.length_le {d : Dict} (h : d.Closed) {l : List Nat} (hn : l.Nodup)
    (hl : ∀ y ∈ l, d.live y) : l.length ≤ 4096 - d.base := by
  have hs : l ⊆ List.range' d.base (4096 - d.base) := by
    intro y hy
    have h1 := hl y hy
    have h2 := h.regs.2.2.2.1
    have h3 := h.base_lt
    unfold Dict.live at h1
    rw [List.mem_range'_1]
    omega
  have := (List.subperm_of_subset hn hs).length_le
  rwa [List.length_range'] at this

theorem Dict.Spells.length_le {d : Dict} (hd : d.Closed) {x : Nat} {bs : List Byte} (h : d.Spells x bs) :
    bs.length ≤ 4096 - d.base + 1 := by
  obtain ⟨l, l1, l2, l3, _⟩ := h.path
  have := hd.length_le l2 l3
  omega

/-! ### Chains -/

theorem ChainsOf.congr {d d' : Dict} {L L' : Nat → Prop} (h : ChainsOf d L)
    (h1 : ∀ p, d'.headAt p = d.headAt p) (h2 : ∀ x, d'.linkAt x = d.linkAt x)
    (h3 : ∀ x, d'.pfxAt x = d.pfxAt x) (h4 : ∀ x : Code, L' x.toNat ↔ L x.toNat) : ChainsOf d' L' := by
  intro p
  obtain ⟨l, l1, l2, l3⟩ := h p
  refine ⟨l, ?_, l2, fun e => ?_⟩
  · rw [h1]
    exact chainIs_congr (fun x _ => h2 x.toNat) l1
  · rw [l3, h3, h4]

theorem chainIs_none {d : Dict} {l : List Code} (h : chainIs d none l) : l = [] := by
  cases l with
  | nil => rfl
  | cons a l => cases h.1

/-- A slot with an empty bucket is no entry's prefix. -/
theorem Dict.Chained.leaf {d : Dict} (h : d.Chained) {p : Nat} (hp : d.headAt p = none) {x : Nat}
    (hx : d.live x) : (d.pfxAt x).toNat ≠ p := by
  intro he
  obtain ⟨l, l1, _, l3⟩ := h.chains p
  rw [hp] at l1
  have hn := chainIs_none l1
  have hlt : x < 4096 := by
    have := hx.2
    have := h.closed.regs.2.2.2.1
    omega
  have e : (BitVec.ofNat 12 x).toNat = x := by rw [BitVec.toNat_ofNat, Nat.mod_eq_of_lt (by omega)]
  have := (l3 (BitVec.ofNat 12 x)).2 (by rw [e]; exact ⟨hx, he⟩)
  rw [hn] at this
  cases this

/-- The entry that is placed becomes the head of its chain. -/
theorem ChainsOf.place {d : Dict} {L : Nat → Prop} (h : ChainsOf d L) {c : Code} (hc : ¬ L c.toNat)
    (P : Code) (B : Byte) : ChainsOf (placeEntry c P B d) (fun x => L x ∨ x = c.toNat) := by
  intro p
  obtain ⟨l, l1, l2, l3⟩ := h p
  have hcl : c ∉ l := fun hm => hc ((l3 c).1 hm).1
  have hne : ∀ x ∈ l, c.toNat ≠ x.toNat := fun x hx he => hcl (by rw [BitVec.eq_of_toNat_eq he]; exact hx)
  have hlk : ∀ x ∈ l, (placeEntry c P B d).linkAt x.toNat = d.linkAt x.toNat := fun x hx => by
    rw [placeEntry_linkAt, if_neg (hne x hx)]
  have hP : (P.setWidth 16 : BitVec 16).toNat = P.toNat := by
    rw [BitVec.toNat_setWidth, Nat.mod_eq_of_lt (by have := P.isLt; omega)]
  by_cases hp : P.toNat = p
  · refine ⟨c :: l, ⟨?_, ?_⟩, List.nodup_cons.2 ⟨hcl, l2⟩, fun e => ?_⟩
    · rw [placeEntry_headAt, if_pos hp]
    · rw [placeEntry_linkAt, if_pos rfl, hp]
      exact chainIs_congr hlk l1
    · rw [List.mem_cons, l3, placeEntry_pfxAt]
      by_cases he : c.toNat = e.toNat
      · have : c = e := BitVec.eq_of_toNat_eq he
        subst this
        rw [if_pos rfl, hP]
        simp [hp]
      · have h1 : e ≠ c := fun x => he (by rw [x])
        have h2 : e.toNat ≠ c.toNat := fun x => he x.symm
        rw [if_neg he]
        simp [h1, h2]
  · refine ⟨l, ?_, l2, fun e => ?_⟩
    · rw [placeEntry_headAt, if_neg hp]
      exact chainIs_congr hlk l1
    · rw [l3, placeEntry_pfxAt]
      by_cases he : c.toNat = e.toNat
      · have : c = e := BitVec.eq_of_toNat_eq he
        subst this
        rw [if_pos rfl, hP]
        constructor
        · intro hx; exact absurd hx.1 hc
        · intro hx; exact absurd hx.2 hp
      · have h2 : e.toNat ≠ c.toNat := fun x => he x.symm
        rw [if_neg he]
        simp [h2]

/-- DICT_UNLINK takes a live slot out of its chain. -/
theorem Dict.Chained.unlink {d : Dict} (h : d.Chained) {c : Code} (hc : d.live c.toNat) :
    ChainsOf (dictUnlink c d) (fun x => d.live x ∧ x ≠ c.toNat) := by
  obtain ⟨l, l1, l2, l3⟩ := h.chains (d.pfxAt c.toNat).toNat
  have hcl : c ∈ l := (l3 c).2 ⟨hc, rfl⟩
  have hnat : ∀ e : Code, e.toNat ≠ c.toNat ↔ e ≠ c := fun e => by
    rw [Ne, Ne, BitVec.toNat_inj]
  have hlen : l.length ≤ 4096 - d.base := by
    have := h.closed.length_le (l := l.map BitVec.toNat)
      (l2.map (fun a b hab => BitVec.eq_of_toNat_eq hab)) (by
        intro y hy
        obtain ⟨e, he, rfl⟩ := List.mem_map.1 hy
        exact ((l3 e).1 he).1)
    rwa [List.length_map] at this
  -- the chain of another prefix
  have other : ∀ d' : Dict, (∀ p, p ≠ (d.pfxAt c.toNat).toNat → d'.headAt p = d.headAt p) →
      (∀ x : Nat, (∀ y ∈ l, y.toNat ≠ x) → d'.linkAt x = d.linkAt x) →
      (∀ x, d'.pfxAt x = d.pfxAt x) →
      chainIs d' (d'.headAt (d.pfxAt c.toNat).toNat) (l.erase c) →
      ChainsOf d' (fun x => d.live x ∧ x ≠ c.toNat) := by
    intro d' h1 h2 h3 h4 p
    by_cases hp : p = (d.pfxAt c.toNat).toNat
    · subst hp
      refine ⟨l.erase c, h4, l2.erase c, fun e => ?_⟩
      have := hnat e
      dsimp only
      rw [l2.mem_erase_iff, l3, h3]
      tauto
    · obtain ⟨m, m1, m2, m3⟩ := h.chains p
      refine ⟨m, ?_, m2, fun e => ?_⟩
      · rw [h1 p hp]
        refine chainIs_congr (fun x hx => h2 _ fun y hy he => hp ?_) m1
        have e1 := ((m3 x).1 hx).2
        have e2 := ((l3 y).1 hy).2
        rw [← e1, ← e2, he]
      · rw [m3, h3]
        constructor
        · rintro ⟨a, b⟩
          exact ⟨⟨a, fun he => hp (by rw [← b, he])⟩, b⟩
        · rintro ⟨⟨a, _⟩, b⟩
          exact ⟨a, b⟩
  apply other
  · intro p hp
    unfold dictUnlink
    dsimp only
    split
    · rw [Dict.headAt_putHead, if_neg (Ne.symm hp)]
    · rw [unlinkFrom_headAt]
  · intro x hx
    unfold dictUnlink
    dsimp only
    split
    · rfl
    · exact (unlinkFrom_chain c _ _ d l l1 l2 hcl ‹_› hlen).2.1 x hx
  · exact fun x => dictUnlink_pfxAt c d x
  · unfold dictUnlink
    dsimp only
    split
    · rename_i hh
      rw [hh] at l1
      cases l with
      | nil => cases hcl
      | cons a l =>
        obtain ⟨l1, l4⟩ := l1
        cases l1
        rw [Dict.headAt_putHead, if_pos rfl, List.erase_cons_head]
        exact chainIs_congr (d := d) (fun _ _ => rfl) l4
    · rw [unlinkFrom_headAt]
      exact (unlinkFrom_chain c _ _ d l l1 l2 hcl ‹_› hlen).1

/-- DICT_INIT starts a table without entries. -/
theorem Dict.chained_dictInit {mb : BitVec 4} (h : minBitsLegal mb) (d : Dict) :
    (dictInit mb d).Chained := by
  have hn : ∀ x, ¬ (dictInit mb d).live x := by
    intro x hx
    unfold Dict.live at hx
    rcases h with rfl | rfl
    · have h1 : (dictInit 7 d).base = 128 := rfl
      have h2 : (dictInit 7 d).nextFree.toNat = 128 := rfl
      omega
    · have h1 : (dictInit 8 d).base = 256 := rfl
      have h2 : (dictInit 8 d).nextFree.toNat = 256 := rfl
      omega
  refine ⟨Dict.closed_dictInit h d, fun p => ⟨[], rfl, List.nodup_nil, fun e => ?_⟩, fun x hx => absurd hx (hn x)⟩
  constructor
  · intro he; cases he
  · intro he; exact absurd he.1 (hn _)

/-! ### Insertion -/

/-- What an insertion of `{P, B}` into slot `c` makes of a dictionary. -/
structure Inserted (d : Dict) (P : Code) (B : Byte) (c : Code) (d' : Dict) : Prop where
  base : d'.base = d.base
  live : ∀ x, d'.live x ↔ d.live x ∨ x = c.toNat
  slot : d.base ≤ c.toNat
  ne : c.toNat ≠ P.toNat
  leaf : ∀ x, d.live x → (d.pfxAt x).toNat ≠ c.toNat
  pfx : ∀ x, d'.pfxAt x = if c.toNat = x then P.setWidth 16 else d.pfxAt x
  trailing : ∀ x, d'.trailingAt x = if c.toNat = x then B else d.trailingAt x

theorem Code.toNat_setWidth16 (P : Code) : (P.setWidth 16 : BitVec 16).toNat = P.toNat := by
  rw [BitVec.toNat_setWidth, Nat.mod_eq_of_lt (by have := P.isLt; omega)]

/-- The other codes spell what they did. -/
theorem Inserted.spells {d d' : Dict} {P c : Code} {B : Byte} (h : Inserted d P B c d') {x : Nat}
    (hx : x ≠ c.toNat) {bs : List Byte} : d'.Spells x bs ↔ d.Spells x bs := by
  constructor
  · intro hs
    induction hs with
    | lit x hb => exact .lit x (by rw [← h.base]; exact hb)
    | node x bs hl _ ih =>
      have hl' : d.live x := by
        rcases (h.live x).1 hl with hl | hl
        · exact hl
        · exact absurd hl hx
      have e := h.pfx x
      rw [if_neg (Ne.symm hx)] at e
      rw [h.trailing, if_neg (Ne.symm hx)]
      refine .node x bs hl' ?_
      rw [← e]
      exact ih (by rw [e]; exact h.leaf x hl')
  · intro hs
    induction hs with
    | lit x hb => exact .lit x (by rw [h.base]; exact hb)
    | node x bs hl _ ih =>
      have e := h.pfx x
      rw [if_neg (Ne.symm hx)] at e
      have e2 := h.trailing x
      rw [if_neg (Ne.symm hx)] at e2
      rw [← e2]
      refine .node x bs ((h.live x).2 (.inl hl)) ?_
      rw [e]
      exact ih (h.leaf x hl)

/-- The slot filled spells its prefix and one byte more. -/
theorem Inserted.spells_slot {d d' : Dict} {P c : Code} {B : Byte} (h : Inserted d P B c d')
    {bs : List Byte} (hs : d.Spells P.toNat bs) : d'.Spells c.toNat (B :: bs) := by
  have e1 := h.pfx c.toNat
  have e2 := h.trailing c.toNat
  rw [if_pos rfl] at e1 e2
  rw [← e2]
  refine .node _ _ ((h.live _).2 (.inr rfl)) ?_
  rw [e1, Code.toNat_setWidth16]
  exact (h.spells (Ne.symm h.ne)).2 hs

theorem dictInsert_inserted {d : Dict} (h : d.Chained) {P : Code} (hP : P.toNat < d.nextFree.toNat)
    (B : Byte) {c : Code} (hc : dictNextSlot d P = some c) :
    Inserted d P B c (dictInsert P B d).2 ∧ ChainsOf (dictInsert P B d).2 (dictInsert P B d).2.live := by
  have hbase : (dictInsert P B d).2.base = d.base := by unfold Dict.base; rw [dictInsert_minBits]
  have hge := h.closed.regs.2.2.1
  cases hf : d.full with
  | false =>
    obtain ⟨e1, e2, e3⟩ := dictNextSlot_growth h.closed hf P
    have hcc : c = d.nextFree.setWidth 12 := by rw [hc] at e1; exact Option.some.inj e1
    rw [dictInsert_growth hf] at hbase ⊢
    rw [← hcc] at e2 hbase ⊢
    dsimp only at hbase ⊢
    have hn : (grow (placeEntry c P B d)).nextFree.toNat = d.nextFree.toNat + 1 :=
      (grow_regs (d := placeEntry c P B d) h.closed.regs hf).1
    have hlive : ∀ x, (grow (placeEntry c P B d)).live x ↔ d.live x ∨ x = c.toNat := by
      intro x
      unfold Dict.live
      rw [hbase, hn]
      omega
    refine ⟨⟨hbase, hlive, by omega, by omega, ?_, ?_, ?_⟩, ?_⟩
    · intro x hx
      obtain ⟨bs, hs⟩ := h.spells x hx
      cases hs with
      | lit _ hb => exact absurd hx.1 (by omega)
      | node _ _ _ h2 => have := h2.lt h.closed; omega
    · intro x; rw [grow_pfxAt, placeEntry_pfxAt]
    · intro x; rw [grow_trailingAt, placeEntry_trailingAt]
    · have hnl : ¬ d.live c.toNat := by unfold Dict.live; omega
      exact (h.chains.place hnl P B).congr (fun p => grow_headAt _ p) (fun x => grow_linkAt _ x)
        (fun x => grow_pfxAt _ x) (fun x => hlive x.toNat)
  | true =>
    obtain ⟨c1, c2, c3⟩ := dictNextSlot_recycling h.closed hf hc
    rw [(dictInsert_recycling hf P B).2 c hc] at hbase ⊢
    dsimp only at hbase ⊢
    have hlive : ∀ x, (placeEntry c P B (evict c d)).live x ↔ d.live x := fun x =>
      (placeEntry_live c P B _ x).trans (evict_live c d x)
    have hor : ∀ x, d.live x ↔ d.live x ∨ x = c.toNat := by
      intro x
      constructor
      · exact .inl
      · rintro (hx | rfl)
        · exact hx
        · exact c1
    refine ⟨⟨hbase, fun x => (hlive x).trans (hor x), c1.1, fun he => c3 (BitVec.eq_of_toNat_eq he), ?_, ?_, ?_⟩, ?_⟩
    · exact fun x hx => h.leaf c2 hx
    · intro x; rw [placeEntry_pfxAt, evict_pfxAt]
    · intro x; rw [placeEntry_trailingAt, evict_trailingAt]
    · have he : ChainsOf (evict c d) (fun x => d.live x ∧ x ≠ c.toNat) :=
        (h.unlink c1).congr (fun p => evict_headAt c d p) (fun x => evict_linkAt c d x)
          (fun x => (evict_pfxAt c d x).trans (dictUnlink_pfxAt c d x).symm) (fun x => Iff.rfl)
      refine (he.place (fun x => x.2 rfl) P B).congr (fun _ => rfl) (fun _ => rfl) (fun _ => rfl) (fun x => ?_)
      rw [hlive]
      by_cases hx : x.toNat = c.toNat
      · simp [hx, c1]
      · simp [hx]

theorem dictInsert_none {d : Dict} {P : Code} (h : dictNextSlot d P = none) (B : Byte) :
    dictInsert P B d = (none, d) := by
  unfold dictInsert
  rw [h]

/-- DICT_INSERT of a code that spells a string keeps the dictionary chained. -/
theorem dictInsert_chained {d : Dict} (h : d.Chained) {P : Code} {bs : List Byte}
    (hP : d.Spells P.toNat bs) (B : Byte) : (dictInsert P B d).2.Chained := by
  cases hc : dictNextSlot d P with
  | none => rw [dictInsert_none hc]; exact h
  | some c =>
    obtain ⟨h1, h2⟩ := dictInsert_inserted h (hP.lt h.closed) B hc
    refine ⟨dictInsert_closed h.closed P B, h2, fun x hx => ?_⟩
    by_cases hxc : x = c.toNat
    · subst hxc; exact ⟨_, h1.spells_slot hP⟩
    · have : d.live x := by
        rcases (h1.live x).1 hx with hx | hx
        · exact hx
        · exact absurd hx hxc
      obtain ⟨cs, hs⟩ := h.spells x this
      exact ⟨cs, (h1.spells hxc).2 hs⟩

/-! ### Lookup -/

/-- What the walk of a chain finds is a member with the byte. -/
theorem chainFind_mem {d : Dict} {B : Byte} {fuel : Nat} {e : Option Code} {l : List Code} {r : Code}
    (hl : chainIs d e l) (hr : chainFind d B fuel e = some r) : r ∈ l ∧ d.trailingAt r.toNat = B := by
  induction fuel generalizing e l with
  | zero => cases hr
  | succ fuel ih =>
    cases l with
    | nil =>
      rw [show e = none from hl] at hr
      cases hr
    | cons a l =>
      obtain ⟨rfl, hl⟩ := hl
      simp only [chainFind] at hr
      split at hr
      · cases hr; exact ⟨List.mem_cons_self, ‹_›⟩
      · obtain ⟨i1, i2⟩ := ih hl hr
        exact ⟨List.mem_cons_of_mem _ i1, i2⟩

/-- The entry that DICT_LOOKUP finds spells the prefix's string and the byte. -/
theorem dictLookup_spells {d : Dict} (h : d.Chained) {P e : Code} {B : Byte} {bs : List Byte}
    (hP : d.Spells P.toNat bs) (he : dictLookup d P B = some e) : d.Spells e.toNat (B :: bs) := by
  obtain ⟨l, l1, _, l3⟩ := h.chains P.toNat
  obtain ⟨m1, m2⟩ := chainFind_mem l1 he
  obtain ⟨n1, n2⟩ := (l3 e).1 m1
  rw [← m2]
  exact .node _ _ n1 (by rw [n2]; exact hP)

/-- What a code spells depends on the live slots alone. -/
theorem Dict.Spells.same {d d' : Dict} (hs : Dict.Same d d') {x : Nat} {bs : List Byte}
    (h : d.Spells x bs) : d'.Spells x bs := by
  induction h with
  | lit x hx => exact .lit x (by rw [← hs.base]; exact hx)
  | node x bs hl _ ih =>
    rw [hs.trailing x hl]
    refine .node x bs ?_ (by rw [← hs.pfx x hl]; exact ih)
    unfold Dict.live at *
    rw [← hs.base, ← hs.nextFree]
    exact hl

end Sys2Proof.Machine
end

