-- ==== Sys2Proof/Laws/Compressor.lean ====
section
/-! SUPPORT. What the shared operations of the Compressor do: the prescan, the zeroing of DST, and the
emission of a code. -/

namespace Sys2Proof.Machine

open Sys2Proof Sys2Proof.Safety

/-- The prescan of bytes that all exist finds a high bit exactly when there is one. -/
theorem scanHigh_eq (k i : Nat) (s : State) (h : i + k ≤ srcSize s) :
    ∃ b, scanHigh k i s = .ok b
      ∧ (b = true ↔ ∃ j, i ≤ j ∧ j < i + k ∧ 0x80 ≤ (srcByte s j).toNat) := by
  induction k generalizing i with
  | zero => exact ⟨false, rfl, by simp; omega⟩
  | succ k ih =>
    obtain ⟨b, h1, h2⟩ := ih (i + 1) (by omega)
    refine ⟨decide (0x80 ≤ (srcByte s i).toNat) || b, by
      simp only [scanHigh, readSrc_eq (show i < srcSize s by omega), h1, Res.ok_bind], ?_⟩
    rw [Bool.or_eq_true, h2, decide_eq_true_iff]
    constructor
    · rintro (h | ⟨j, a, b, c⟩)
      · exact ⟨i, by omega, by omega, h⟩
      · exact ⟨j, by omega, by omega, c⟩
    · rintro ⟨j, a, b, c⟩
      by_cases hj : j = i
      · subst hj; exact .inl c
      · exact .inr ⟨j, by omega, by omega, c⟩

/-- The zeroing of DST bytes that all exist. -/
theorem zeroDst_eq (count : Nat) (s : State) (h : count ≤ s.par.dstCap) :
    zeroDst count s = .ok (s.setDst (Memory.fill 0x00 count 0 s.dst)) := by
  simp [zeroDst, h]

/-- COMP_START when DST has room. -/
theorem compStart_eq (s : State) (h : s.srcLen.toNat + 21 ≤ s.par.dstCap) :
    compStart s = .ok (((s.setDst (Memory.fill 0x00 (s.srcLen.toNat + 21) 0 s.dst)).setDictC
      (dictInit s.ports.minBits s.dictC)).setComp
        { s.comp with
          state := .awaitFirstByte, basecodeValid := false, srcIndex := 0, srcLen := s.srcLen
          outBit := 136#35, capBits := BitVec.ofNat 35 (8 * (s.srcLen.toNat + 17)) }) := by
  simp only [compStart, Config.headerSize, Config.orHeadroom]
  rw [zeroDst_eq _ _ (by omega)]
  rfl

/-- COMP_EMIT of a code that does not fit gives FAIL and writes nothing. -/
theorem compEmit_fail {c : Code} {s : State}
    (h : s.comp.capBits.toNat - s.comp.outBit.toNat < s.dictC.codeWidth.toNat) :
    compEmit c s = .ok (false, s) := by
  simp [compEmit, h]

/-- The bits a code adds to DST from bit `o` on. -/
def emitBit (c : Code) (o k : Nat) : Bool := decide (o ≤ k) && c.getLsbD (k - o)

/-- COMP_EMIT of a code that fits, four bytes of DST being there: the code's bits go in by OR at
`out_bit`, which advances by the code width, and nothing else changes. -/
theorem compEmit_ok {c : Code} {s : State}
    (h : s.dictC.codeWidth.toNat ≤ s.comp.capBits.toNat - s.comp.outBit.toNat)
    (hr : s.comp.outBit.toNat / 8 + 4 ≤ s.par.dstCap) :
    ∃ m : List Host.Cell,
      compEmit c s = .ok (true, (s.setDst m).setComp { s.comp with
          outBit := BitVec.ofNat 35 (s.comp.outBit.toNat + s.dictC.codeWidth.toNat) })
        ∧ (∀ k, bufBit .dst (s.setDst m) k = (bufBit .dst s k || emitBit c s.comp.outBit.toNat k))
        ∧ (Memory.wf s.dst = true → Memory.wf m = true) := by
  obtain ⟨m, h1, h2, h3⟩ := orU32At_dst_bits s.comp.outBit.toNat (c.setWidth 32) s hr
  refine ⟨m, ?_, ?_, h3⟩
  · simp only [compEmit]
    rw [if_neg (by omega), h1]
    rfl
  · intro k
    rw [h2 k, emitBit]
    congr 1
    rw [BitVec.getLsbD_setWidth]
    by_cases hk : s.comp.outBit.toNat ≤ k
    · by_cases h12 : k - s.comp.outBit.toNat < 12
      · have e1 : k < s.comp.outBit.toNat + (32 - s.comp.outBit.toNat % 8) := by omega
        have e2 : k - s.comp.outBit.toNat < 32 := by omega
        simp [hk, e1, e2]
      · rw [BitVec.getLsbD_of_ge c _ (by omega)]; simp
    · simp [hk]

end Sys2Proof.Machine
end

