-- ==== Sys2Proof/Laws/Codes.lean ====
section
/-! SUPPORT. The codes that the compressor emits for a source, each with its width (43_compressor R162 to
R165), as a function of the dictionary and the bytes, and the bits they take. -/

namespace Sys2Proof.Machine

open Sys2Proof Sys2Proof.Safety

/-- The codes from dictionary `d` and `basecode` `b` on, for the bytes still to come. -/
def codesFrom (d : Dict) (b : Code) : List Byte → List (Code × Nat)
  | [] => [(b, d.codeWidth.toNat)]
  | x :: xs =>
    match dictLookup d b x with
    | some e => codesFrom d e xs
    | none => (b, d.codeWidth.toNat) :: codesFrom (dictInsert b x d).2 (x.setWidth 12) xs

/-- The codes of a whole source from an initialised dictionary. -/
def codesOf (d : Dict) : List Byte → List (Code × Nat)
  | [] => []
  | x :: xs => codesFrom d (x.setWidth 12) xs

/-- The bits that codes take. -/
def totalBits : List (Code × Nat) → Nat
  | [] => 0
  | c :: l => c.2 + totalBits l

/-- Bit `k` of codes packed from bit `o` on. -/
def packedBit : List (Code × Nat) → Nat → Nat → Bool
  | [], _, _ => false
  | c :: l, o, k => emitBit c.1 o k || packedBit l (o + c.2) k

/-- Each code fits its width, which is between 8 and 12. -/
def Fit (l : List (Code × Nat)) : Prop := ∀ c ∈ l, c.1.toNat < 2 ^ c.2 ∧ 8 ≤ c.2 ∧ c.2 ≤ 12

theorem emitBit_of_fit {c : Code} {w o k : Nat} (h : c.toNat < 2 ^ w) (hb : emitBit c o k = true) :
    o ≤ k ∧ k < o + w := by
  unfold emitBit at hb
  rw [Bool.and_eq_true, decide_eq_true_iff] at hb
  refine ⟨hb.1, ?_⟩
  by_contra hc
  have : c.getLsbD (k - o) = false := by
    rw [BitVec.getLsbD, Nat.testBit_lt_two_pow]
    exact Nat.lt_of_lt_of_le h (Nat.pow_le_pow_right (by omega) (by omega))
  rw [this] at hb
  cases hb.2

/-- Packed codes touch only the bits that they take. -/
theorem packedBit_range {l : List (Code × Nat)} {o k : Nat} (h : Fit l)
    (hb : packedBit l o k = true) : o ≤ k ∧ k < o + totalBits l := by
  induction l generalizing o with
  | nil => cases hb
  | cons c l ih =>
    unfold packedBit at hb
    unfold totalBits
    rw [Bool.or_eq_true] at hb
    rcases hb with hb | hb
    · have := emitBit_of_fit (h c List.mem_cons_self).1 hb
      omega
    · have := ih (fun x hx => h x (List.mem_cons_of_mem _ hx)) hb
      omega

theorem packedBit_out {l : List (Code × Nat)} {o k : Nat} (h : Fit l)
    (hk : k < o ∨ o + totalBits l ≤ k) : packedBit l o k = false := by
  cases hb : packedBit l o k with
  | false => rfl
  | true => have := packedBit_range h hb; omega

/-- The bits of the first of the packed codes. -/
theorem packedBit_head {c : Code × Nat} {l : List (Code × Nat)} {o j : Nat} (h : Fit (c :: l))
    (hj : j < c.2) : packedBit (c :: l) o (o + j) = c.1.getLsbD j := by
  have h2 : packedBit l (o + c.2) (o + j) = false :=
    packedBit_out (fun x hx => h x (List.mem_cons_of_mem _ hx)) (.inl (by omega))
  unfold packedBit
  rw [h2, Bool.or_false, emitBit]
  have e : o + j - o = j := by omega
  simp [e]

/-- The bits after the first of the packed codes. -/
theorem packedBit_tail {c : Code × Nat} {l : List (Code × Nat)} {o k : Nat} (h : Fit (c :: l))
    (hk : o + c.2 ≤ k) : packedBit (c :: l) o k = packedBit l (o + c.2) k := by
  have : emitBit c.1 o k = false := by
    cases hb : emitBit c.1 o k with
    | false => rfl
    | true => have := emitBit_of_fit (h c List.mem_cons_self).1 hb; omega
  show (emitBit c.1 o k || packedBit l (o + c.2) k) = _
  rw [this, Bool.false_or]

theorem Fit.of_pre {l l' : List (Code × Nat)} (h : Fit l) (hp : l' <+: l) : Fit l' :=
  fun c hc => h c (hp.subset hc)

theorem Dict.Closed.width_le {d : Dict} (h : d.Closed) :
    8 ≤ d.codeWidth.toNat ∧ d.codeWidth.toNat ≤ 12 := by
  have h1 := h.regs.1
  rw [h1]
  refine ⟨?_, dictWidth_le _⟩
  by_contra hc
  have h2 := (dictWidth_le_iff d.nextFree.toNat 7).1 (by omega)
  have h3 := h.regs.2.2.1
  have h4 := h.base_lt
  omega

/-- The codes of a source fit their widths. -/
theorem codesFrom_fit {xs : List Byte} {d : Dict} {b : Code} (h : d.Closed)
    (hb : b.toNat < d.nextFree.toNat) (hx : ∀ x ∈ xs, x.toNat < d.base) : Fit (codesFrom d b xs) := by
  induction xs generalizing d b with
  | nil =>
    intro c hc
    simp only [codesFrom, List.mem_singleton] at hc
    subst hc
    exact ⟨h.code_lt hb, h.width_le⟩
  | cons x xs ih =>
    unfold codesFrom
    cases hl : dictLookup d b x with
    | some e =>
      exact ih h (dictLookup_live h hl).2 (fun y hy => hx y (List.mem_cons_of_mem _ hy))
    | none =>
      intro c hc
      dsimp only at hc
      rw [List.mem_cons] at hc
      rcases hc with rfl | hc
      · exact ⟨h.code_lt hb, h.width_le⟩
      · have hbase : (dictInsert b x d).2.base = d.base := by
          unfold Dict.base; rw [dictInsert_minBits]
        refine ih (dictInsert_closed h b x) ?_ ?_ c hc
        · have h1 := hx x List.mem_cons_self
          have h2 := dictInsert_nextFree_le h b x
          have h3 := h.regs.2.2.1
          have : (x.setWidth 12 : Code).toNat = x.toNat := by
            rw [BitVec.toNat_setWidth]; have := x.isLt; omega
          omega
        · intro y hy
          rw [hbase]
          exact hx y (List.mem_cons_of_mem _ hy)

/-- The codes of a source depend on the live slots alone. -/
theorem codesFrom_same {xs : List Byte} {d d' : Dict} {b : Code} (h : d.Closed) (hs : Dict.Same d d') :
    codesFrom d b xs = codesFrom d' b xs := by
  induction xs generalizing d d' b with
  | nil => simp only [codesFrom, hs.codeWidth]
  | cons x xs ih =>
    unfold codesFrom
    rw [← dictLookup_same h hs]
    cases hl : dictLookup d b x with
    | some e => exact ih h hs
    | none =>
      dsimp only
      rw [hs.codeWidth, ih (dictInsert_closed h b x) (dictInsert_same h hs b x).2]

theorem codesOf_same {xs : List Byte} {d d' : Dict} (h : d.Closed) (hs : Dict.Same d d') :
    codesOf d xs = codesOf d' xs := by
  cases xs with
  | nil => rfl
  | cons x xs => exact codesFrom_same h hs

theorem byte_toNat_setWidth (x : Byte) : (x.setWidth 12 : Code).toNat = x.toNat := by
  rw [BitVec.toNat_setWidth]; have := x.isLt; omega

theorem codesOf_fit {xs : List Byte} {d : Dict} (h : d.Closed) (hx : ∀ x ∈ xs, x.toNat < d.base) :
    Fit (codesOf d xs) := by
  cases xs with
  | nil => intro c hc; cases hc
  | cons x xs =>
    refine codesFrom_fit h ?_ (fun y hy => hx y (List.mem_cons_of_mem _ hy))
    have h1 := hx x List.mem_cons_self
    have h2 := h.regs.2.2.1
    rw [byte_toNat_setWidth]
    omega

end Sys2Proof.Machine
end

