-- ==== Sys2Proof/Laws/Container.lean ====
section
/-! SUPPORT. What the shared operations of the Container unit do. -/

namespace Sys2Proof.Machine

open Sys2Proof Sys2Proof.Safety

/-- A word is read from its own four bytes. -/
theorem word32At_congr {f g : Nat → Byte} {a : Nat} (h : ∀ x, a ≤ x → x < a + 4 → f x = g x) :
    word32At f a = word32At g a := by
  unfold word32At
  rw [h a (by omega) (by omega), h (a + 1) (by omega) (by omega), h (a + 2) (by omega) (by omega),
    h (a + 3) (by omega) (by omega)]

/-- Bytes outside a written list read as before. -/
theorem Memory.read_writeList_out {bs : List Byte} {a : Nat} {m : List Host.Cell} {x : Nat}
    (h : x < a ∨ a + bs.length ≤ x) : Memory.read (Memory.writeList bs a m) x = Memory.read m x := by
  rw [Memory.read_writeList, if_neg (by omega)]

/-- The bytes of a header (45_container R230). -/
theorem writeHeader_eq (cs es : Nat) (t : Byte) (s : State) (hd : 17 ≤ s.par.dstCap)
    (hcs : cs < 2 ^ 32) (hes : es < 2 ^ 32) :
    ∃ m : List Host.Cell, writeHeader cs es t s = .ok (s.setDst m)
      ∧ word32At (Memory.read m) 0 = cs ∧ word32At (Memory.read m) 4 = 0
      ∧ word32At (Memory.read m) 8 = es ∧ word32At (Memory.read m) 12 = 0
      ∧ Memory.read m 16 = t ∧ (∀ a, 17 ≤ a → Memory.read m a = dstByte s a)
      ∧ (Memory.wf s.dst = true → Memory.wf m = true) := by
  have hl : ∀ v, (leBytes 4 v).length = 4 := fun v => length_leBytes 4 v
  refine ⟨Memory.writeList (leBytes 1 t.toNat) 16 (Memory.writeList (leBytes 4 0) 12
    (Memory.writeList (leBytes 4 es) 8 (Memory.writeList (leBytes 4 0) 4
      (Memory.writeList (leBytes 4 cs) 0 s.dst)))), ?_, ?_, ?_, ?_, ?_, ?_, ?_, ?_⟩
  · unfold writeHeader
    have hc : ∀ m, (s.setDst m).par.dstCap = s.par.dstCap := fun _ => rfl
    rw [memWriteDst_eq 4 0 cs s (by omega), Res.ok_bind,
      memWriteDst_eq 4 4 0 _ (by rw [hc]; omega), Res.ok_bind, State.setDst_setDst, State.setDst_dst,
      memWriteDst_eq 4 8 es _ (by rw [hc]; omega), Res.ok_bind, State.setDst_setDst, State.setDst_dst,
      memWriteDst_eq 4 12 0 _ (by rw [hc]; omega), Res.ok_bind, State.setDst_setDst, State.setDst_dst,
      memWriteDst_eq 1 16 _ _ (by rw [hc]; omega), State.setDst_setDst, State.setDst_dst]
  · refine (word32At_congr ?_).trans (word32At_writeList_self cs 0 s.dst hcs)
    intro x h1 h2
    rw [Memory.read_writeList_out (.inl (by omega)), Memory.read_writeList_out (.inl (by omega)),
      Memory.read_writeList_out (.inl (by omega)), Memory.read_writeList_out (.inl (by omega))]
  · refine (word32At_congr ?_).trans (word32At_writeList_self 0 4 (Memory.writeList (leBytes 4 cs) 0 s.dst) (by omega))
    intro x h1 h2
    rw [Memory.read_writeList_out (.inl (by omega)), Memory.read_writeList_out (.inl (by omega)),
      Memory.read_writeList_out (.inl (by omega))]
  · refine (word32At_congr ?_).trans (word32At_writeList_self es 8 (Memory.writeList (leBytes 4 0) 4
      (Memory.writeList (leBytes 4 cs) 0 s.dst)) hes)
    intro x h1 h2
    rw [Memory.read_writeList_out (.inl (by omega)), Memory.read_writeList_out (.inl (by omega))]
  · refine (word32At_congr ?_).trans (word32At_writeList_self 0 12 (Memory.writeList (leBytes 4 es) 8
      (Memory.writeList (leBytes 4 0) 4 (Memory.writeList (leBytes 4 cs) 0 s.dst))) (by omega))
    intro x h1 h2
    rw [Memory.read_writeList_out (.inl (by omega))]
  · rw [Memory.read_writeList, if_pos (by rw [length_leBytes]; omega)]
    simp [leBytes]
    apply BitVec.eq_of_toNat_eq
    simpa using t.isLt
  · intro a ha
    rw [Memory.read_writeList_out (.inr (by rw [length_leBytes]; omega)),
      Memory.read_writeList_out (.inr (by rw [hl]; omega)),
      Memory.read_writeList_out (.inr (by rw [hl]; omega)),
      Memory.read_writeList_out (.inr (by rw [hl]; omega)),
      Memory.read_writeList_out (.inr (by rw [hl]; omega))]
    rfl
  · intro h
    exact Memory.wf_writeList _ _ (Memory.wf_writeList _ _ (Memory.wf_writeList _ _
      (Memory.wf_writeList _ _ (Memory.wf_writeList _ _ h))))

/-- A copy of SRC bytes to DST, all of them there. -/
theorem copySrcToDst_spec (n a d : Nat) (s : State) (hs : a + n ≤ srcSize s) (hd : d + n ≤ s.par.dstCap) :
    ∃ m : List Host.Cell, copySrcToDst n a d s = .ok (s.setDst m)
      ∧ (∀ i, i < n → Memory.read m (d + i) = srcByte s (a + i))
      ∧ (∀ x, x < d ∨ d + n ≤ x → Memory.read m x = dstByte s x)
      ∧ (Memory.wf s.dst = true → Memory.wf m = true) := by
  refine ⟨_, copySrcToDst_eq n a d s hs hd, ?_, ?_, fun h => Memory.wf_writeList _ _ h⟩
  · intro i hi
    rw [Memory.read_writeList, Memory.length_readList, if_pos (by omega),
      Memory.getD_readList _ _ _ _ (by omega)]
    congr 1
    omega
  · intro x hx
    rw [Memory.read_writeList_out (by rw [Memory.length_readList]; exact hx)]
    rfl

/-- CONT_STORED (45_container R231). -/
theorem contStored_eq (s : State) (h1 : s.comp.srcLen.toNat ≤ srcSize s)
    (h2 : s.comp.srcLen.toNat + 17 ≤ s.par.dstCap) (h3 : s.comp.srcLen.toNat + 17 < 2 ^ 32) :
    ∃ m : List Host.Cell,
      contStored s = .ok ((s.setDst m).setPorts
          { s.ports with length := BitVec.ofNat 32 (s.comp.srcLen.toNat + 17) })
      ∧ word32At (Memory.read m) 0 = s.comp.srcLen.toNat + 17 ∧ word32At (Memory.read m) 4 = 0
      ∧ word32At (Memory.read m) 8 = s.comp.srcLen.toNat ∧ word32At (Memory.read m) 12 = 0
      ∧ Memory.read m 16 = 1
      ∧ (∀ i, i < s.comp.srcLen.toNat → Memory.read m (17 + i) = srcByte s i)
      ∧ (∀ a, s.comp.srcLen.toNat + 17 ≤ a → Memory.read m a = dstByte s a)
      ∧ (Memory.wf s.dst = true → Memory.wf m = true) := by
  obtain ⟨m, w0, w1, w2, w3, w4, w5, w6, w7⟩ := writeHeader_eq (s.comp.srcLen.toNat + 17)
    s.comp.srcLen.toNat 1 s (by omega) h3 (by omega)
  obtain ⟨m', c0, c1, c2, c3⟩ := copySrcToDst_spec s.comp.srcLen.toNat 0 17 (s.setDst m)
    (by show 0 + _ ≤ srcSize s; omega) (by show 17 + _ ≤ s.par.dstCap; omega)
  have hlow : ∀ x, x < 17 → Memory.read m' x = Memory.read m x := fun x hx => c2 x (.inl hx)
  refine ⟨m', ?_, ?_, ?_, ?_, ?_, ?_, ?_, ?_, ?_⟩
  · unfold contStored
    dsimp only [Config.headerSize]
    rw [w0, Res.ok_bind, c0, Res.ok_bind]
    rfl
  · rw [← w1]; exact word32At_congr (fun x _ h => hlow x (by omega))
  · rw [← w2]; exact word32At_congr (fun x _ h => hlow x (by omega))
  · rw [← w3]; exact word32At_congr (fun x _ h => hlow x (by omega))
  · rw [← w4]; exact word32At_congr (fun x _ h => hlow x (by omega))
  · rw [hlow 16 (by omega), w5]
  · intro i hi
    have := c1 i hi
    rw [Nat.zero_add] at this
    exact this
  · intro a ha
    rw [c2 a (.inr (by omega))]
    exact w6 a (by omega)
  · exact fun h => c3 (w7 h)

theorem State.setHdr_setHdr (h h' : Header) (s : State) : (s.setHdr h).setHdr h' = s.setHdr h' := rfl

/-- CONT_PARSE_HEADER of a header that is there (45_container R232). -/
theorem contParseHeader_eq (s : State) (h : 17 ≤ srcSize s) :
    contParseHeader s = .ok (s.setHdr
      { cs := BitVec.ofNat 32 (word32At (srcByte s) 0)
        csHi := BitVec.ofNat 32 (word32At (srcByte s) 4)
        es := BitVec.ofNat 32 (word32At (srcByte s) 8)
        esHi := BitVec.ofNat 32 (word32At (srcByte s) 12)
        ctype := srcByte s 16 }) := by
  unfold contParseHeader
  have hs : ∀ h, srcSize (s.setHdr h) = srcSize s := fun _ => rfl
  have h4 : ∀ a h, a + 4 ≤ 17 → memReadSrc 4 a (s.setHdr h) = .ok (word32At (srcByte s) a) :=
    fun a h ha => memReadSrc_four a _ (by rw [hs]; omega)
  have h1 : ∀ h, memReadSrc 1 16 (s.setHdr h) = .ok (srcByte s 16).toNat :=
    fun h => memReadSrc_one 16 _ (by rw [hs]; omega)
  rw [memReadSrc_four 0 s (by omega), Res.ok_bind]
  dsimp only
  rw [h4 4 _ (by omega), Res.ok_bind]
  simp only [State.setHdr_setHdr, State.setHdr_hdr, h4 8 _ (by omega), h4 12 _ (by omega), h1, Res.ok_bind,
    BitVec.ofNat_toNat, BitVec.setWidth_eq]

theorem toNat_word32At (f : Nat → Byte) (a : Nat) :
    (BitVec.ofNat 32 (word32At f a)).toNat = word32At f a := by
  rw [BitVec.toNat_ofNat, Nat.mod_eq_of_lt (word32At_lt f a)]

/-- CONT_STORED_COPY (45_container R234). -/
theorem contStoredCopy_eq (s : State) (h1 : 17 + s.hdr.es.toNat ≤ srcSize s)
    (h2 : s.hdr.es.toNat ≤ s.par.dstCap) :
    ∃ m : List Host.Cell,
      contStoredCopy s = .ok ((s.setDst m).setPorts { s.ports with length := s.hdr.es })
      ∧ (∀ i, i < s.hdr.es.toNat → Memory.read m i = srcByte s (17 + i))
      ∧ (∀ a, s.hdr.es.toNat ≤ a → Memory.read m a = dstByte s a)
      ∧ (Memory.wf s.dst = true → Memory.wf m = true) := by
  obtain ⟨m, c0, c1, c2, c3⟩ := copySrcToDst_spec s.hdr.es.toNat 17 0 s (by omega) (by omega)
  refine ⟨m, ?_, ?_, ?_, c3⟩
  · unfold contStoredCopy
    dsimp only [Config.headerSize]
    rw [c0, Res.ok_bind]
    rfl
  · intro i hi
    have := c1 i hi
    rw [Nat.zero_add] at this
    exact this
  · intro a ha
    exact c2 a (.inr (by omega))

end Sys2Proof.Machine
end

