-- ==== Sys2Proof/Laws/CompressRun.lean ====
section
/-! SUPPORT. What the loop of COMPRESS does from any state in ACCUMULATE (43_compressor R167), and the state
in which COMPRESS wraps its container (45_container R240). -/

namespace Sys2Proof.Machine

open Sys2Proof Sys2Proof.Safety

/-- A byte is what its bits are. -/
theorem dstByte_ext {s t : State} {a : Nat}
    (h : ∀ j, j < 8 → bufBit .dst t (8 * a + j) = bufBit .dst s (8 * a + j)) :
    dstByte t a = dstByte s a := by
  apply BitVec.eq_of_getLsbD_eq
  intro j hj
  have := h j hj
  unfold bufBit bufByte at this
  have e1 : (8 * a + j) / 8 = a := by omega
  have e2 : (8 * a + j) % 8 = j := by omega
  rw [e1, e2] at this
  exact this

/-- The Compressor is in ACCUMULATE with the bytes `xs` of the source still to come. -/
structure Accum (s : State) (xs : List Byte) : Prop where
  state : s.comp.state = .accumulate
  index : s.comp.srcIndex.toNat + xs.length = s.comp.srcLen.toNat
  bytes : ∀ i, i < xs.length → srcByte s (s.comp.srcIndex.toNat + i) = xs.getD i 0
  size : s.comp.srcLen.toNat ≤ srcSize s
  cap : s.comp.capBits.toNat = 8 * (s.comp.srcLen.toNat + 17)
  room : s.comp.srcLen.toNat + 21 ≤ s.par.dstCap
  out : s.comp.outBit.toNat ≤ s.comp.capBits.toNat

/-- What the loop of COMPRESS gives: the codes that fit, packed from `out_bit` on. -/
structure Emitted (s t : State) (all l : List (Code × Nat)) : Prop where
  frame : t = { s with dst := t.dst, dictC := t.dictC, comp := t.comp }
  srcLen : t.comp.srcLen = s.comp.srcLen
  capBits : t.comp.capBits = s.comp.capBits
  outBit : t.comp.outBit.toNat = s.comp.outBit.toNat + totalBits l
  out : t.comp.outBit.toNat ≤ t.comp.capBits.toNat
  bits : ∀ k, bufBit .dst t k = (bufBit .dst s k || packedBit l s.comp.outBit.toNat k)
  pre : l <+: all
  ok : s.comp.outBit.toNat + totalBits all ≤ s.comp.capBits.toNat →
    t.comp.state = .exhausted ∧ l = all
  fail : ¬ s.comp.outBit.toNat + totalBits all ≤ s.comp.capBits.toNat → t.comp.state = .failed

/-- A state with other compressor registers, dictionary and DST is the same to the loop's frame. -/
theorem Emitted.of_frame {s u t : State} {all l : List (Code × Nat)} (h : Emitted u t all l)
    (hu : u = { s with dst := u.dst, dictC := u.dictC, comp := u.comp }) :
    t = { s with dst := t.dst, dictC := t.dictC, comp := t.comp } := by
  have h1 := h.frame
  rw [hu] at h1
  exact h1

theorem Accum.read {s : State} {x : Byte} {xs : List Byte} (h : Accum s (x :: xs)) :
    readSrc s.comp.srcIndex.toNat s = .ok x := by
  have hi := h.index
  have hs := h.size
  rw [List.length_cons] at hi
  rw [readSrc_eq (by omega)]
  have := h.bytes 0 (by simp)
  simpa using this

theorem totalBits_cons (c : Code × Nat) (l : List (Code × Nat)) :
    totalBits (c :: l) = c.2 + totalBits l := rfl

theorem packedBit_cons (c : Code × Nat) (l : List (Code × Nat)) (o k : Nat) :
    packedBit (c :: l) o k = (emitBit c.1 o k || packedBit l (o + c.2) k) := rfl

theorem Accum.succ_index {s : State} {x : Byte} {xs : List Byte} (h : Accum s (x :: xs)) :
    (s.comp.srcIndex + 1).toNat = s.comp.srcIndex.toNat + 1 := by
  have hi := h.index
  rw [List.length_cons] at hi
  have := s.comp.srcLen.isLt
  rw [BitVec.toNat_add]
  simp
  omega

/-- The loop of COMPRESS from ACCUMULATE. -/
theorem compLoop_spec {xs : List Byte} {s : State} {fuel : Nat} (h : Accum s xs)
    (hf : xs.length + 1 ≤ fuel) :
    ∃ t l, compLoop fuel s = .ok t ∧ Emitted s t (codesFrom s.dictC s.comp.basecode xs) l := by
  induction xs generalizing s fuel with
  | nil =>
    obtain ⟨fuel, rfl⟩ : ∃ n, fuel = n + 1 := ⟨fuel - 1, by simp at hf; omega⟩
    have hi := h.index
    simp only [List.length_nil, Nat.add_zero] at hi
    have hcap := h.cap
    have hout := h.out
    have hroom := h.room
    have hlt := s.comp.capBits.isLt
    have hstep : compUnitStep s = compFinish s := by
      unfold compUnitStep
      rw [if_neg (by omega)]
    have hstop : ∀ u : State, u.comp.state ≠ .accumulate → compLoop fuel u = .ok u := by
      intro u hu
      cases fuel <;> simp [compLoop, hu]
    have hloop : compLoop (fuel + 1) s = compFinish s >>= compLoop fuel := by
      unfold compLoop
      rw [if_pos h.state, hstep]
    by_cases hw : s.dictC.codeWidth.toNat ≤ s.comp.capBits.toNat - s.comp.outBit.toNat
    · obtain ⟨m, e1, e2, _⟩ := compEmit_ok (c := s.comp.basecode) hw (by omega)
      have ef : compFinish s = .ok (((s.setDst m).setComp { s.comp with
          outBit := BitVec.ofNat 35 (s.comp.outBit.toNat + s.dictC.codeWidth.toNat) }).setComp
          { s.comp with
            outBit := BitVec.ofNat 35 (s.comp.outBit.toNat + s.dictC.codeWidth.toNat)
            state := .exhausted }) := by
        unfold compFinish
        rw [e1, Res.ok_bind]
        rfl
      refine ⟨_, codesFrom s.dictC s.comp.basecode [],
        by rw [hloop, ef, Res.ok_bind, hstop _ (by simp)], ?_⟩
      have hadd : (BitVec.ofNat 35 (s.comp.outBit.toNat + s.dictC.codeWidth.toNat)).toNat
          = s.comp.outBit.toNat + s.dictC.codeWidth.toNat := by
        rw [BitVec.toNat_ofNat, Nat.mod_eq_of_lt (by omega)]
      exact {
        frame := rfl, srcLen := rfl, capBits := rfl
        outBit := by
          show (BitVec.ofNat 35 (s.comp.outBit.toNat + s.dictC.codeWidth.toNat)).toNat = _
          rw [hadd]
          rfl
        out := by
          show (BitVec.ofNat 35 (s.comp.outBit.toNat + s.dictC.codeWidth.toNat)).toNat
            ≤ s.comp.capBits.toNat
          omega
        bits := fun k => (e2 k).trans (by simp [codesFrom, packedBit])
        pre := List.prefix_refl _
        ok := fun _ => ⟨rfl, rfl⟩
        fail := fun hc => absurd (by simp only [codesFrom, totalBits]; omega) hc }
    · have e1 := compEmit_fail (c := s.comp.basecode) (s := s) (by omega)
      have ef : compFinish s = .ok (s.setComp { s.comp with state := .failed }) := by
        unfold compFinish
        rw [e1, Res.ok_bind]
        rfl
      refine ⟨_, [], by rw [hloop, ef, Res.ok_bind, hstop _ (by simp)], ?_⟩
      exact {
        frame := rfl, srcLen := rfl, capBits := rfl, outBit := rfl, out := hout
        bits := fun k => by simp [packedBit]; rfl
        pre := List.nil_prefix
        ok := fun hc => absurd hc (by simp only [codesFrom, totalBits]; omega)
        fail := fun _ => rfl }
  | cons x xs ih =>
    obtain ⟨fuel, rfl⟩ : ∃ n, fuel = n + 1 := ⟨fuel - 1, by omega⟩
    rw [List.length_cons] at hf
    have hi := h.index
    rw [List.length_cons] at hi
    have hcap := h.cap
    have hout := h.out
    have hroom := h.room
    have hsize := h.size
    have hlt := s.comp.capBits.isLt
    have hsucc := h.succ_index
    have hstep : compUnitStep s = compStep s := by
      unfold compUnitStep
      rw [if_pos (by omega)]
    have hloop : compLoop (fuel + 1) s = compStep s >>= compLoop fuel := by
      unfold compLoop
      rw [if_pos h.state, hstep]
    have hbytes : ∀ i, i < xs.length → srcByte s (s.comp.srcIndex.toNat + 1 + i) = xs.getD i 0 := by
      intro i hi'
      have := h.bytes (i + 1) (by simp; omega)
      rw [show s.comp.srcIndex.toNat + 1 + i = s.comp.srcIndex.toNat + (i + 1) by omega, this]
      simp
    cases hl : dictLookup s.dictC s.comp.basecode x with
    | some e =>
      have ec : codesFrom s.dictC s.comp.basecode (x :: xs) = codesFrom s.dictC e xs := by
        rw [codesFrom, hl]
      have es : compStep s = .ok (s.setComp
          { s.comp with basecode := e, srcIndex := s.comp.srcIndex + 1 }) := by
        unfold compStep
        rw [h.read, Res.ok_bind, hl]
      have ha : Accum (s.setComp { s.comp with basecode := e, srcIndex := s.comp.srcIndex + 1 }) xs := {
        state := h.state
        index := by
          show (s.comp.srcIndex + 1).toNat + xs.length = s.comp.srcLen.toNat
          omega
        bytes := by
          intro i hi'
          show srcByte s ((s.comp.srcIndex + 1).toNat + i) = _
          rw [hsucc]
          exact hbytes i hi'
        size := hsize, cap := hcap, room := hroom, out := hout }
      obtain ⟨t, l, h1, h2⟩ := ih (fuel := fuel) ha (by omega)
      refine ⟨t, l, by rw [hloop, es, Res.ok_bind, h1], ?_⟩
      rw [ec]
      exact {
        frame := h2.of_frame rfl
        srcLen := h2.srcLen, capBits := h2.capBits, outBit := h2.outBit, out := h2.out
        bits := h2.bits, pre := h2.pre, ok := h2.ok, fail := h2.fail }
    | none =>
      have ec : codesFrom s.dictC s.comp.basecode (x :: xs)
          = (s.comp.basecode, s.dictC.codeWidth.toNat)
            :: codesFrom (dictInsert s.comp.basecode x s.dictC).2 (x.setWidth 12) xs := by
        rw [codesFrom, hl]
      by_cases hw : s.dictC.codeWidth.toNat ≤ s.comp.capBits.toNat - s.comp.outBit.toNat
      · obtain ⟨m, e1, e2, _⟩ := compEmit_ok (c := s.comp.basecode) hw (by omega)
        have hadd : (BitVec.ofNat 35 (s.comp.outBit.toNat + s.dictC.codeWidth.toNat)).toNat
            = s.comp.outBit.toNat + s.dictC.codeWidth.toNat := by
          rw [BitVec.toNat_ofNat, Nat.mod_eq_of_lt (by omega)]
        have es : ∃ u : State, compStep s = .ok u
            ∧ u = { s with
                dst := m, dictC := (dictInsert s.comp.basecode x s.dictC).2
                comp := { s.comp with
                  basecode := x.setWidth 12, srcIndex := s.comp.srcIndex + 1
                  outBit := BitVec.ofNat 35 (s.comp.outBit.toNat + s.dictC.codeWidth.toNat) } } := by
          refine ⟨_, ?_, rfl⟩
          unfold compStep
          rw [h.read, Res.ok_bind, hl]
          dsimp only
          rw [e1, Res.ok_bind]
          rfl
        obtain ⟨u, es, hu⟩ := es
        have uc : u.comp = { s.comp with
            basecode := x.setWidth 12, srcIndex := s.comp.srcIndex + 1
            outBit := BitVec.ofNat 35 (s.comp.outBit.toNat + s.dictC.codeWidth.toNat) } := by rw [hu]
        have ud : u.dictC = (dictInsert s.comp.basecode x s.dictC).2 := by rw [hu]
        have usrc : ∀ a, srcByte u a = srcByte s a := by intro a; rw [hu]; rfl
        have usz : srcSize u = srcSize s := by rw [hu]; rfl
        have upar : u.par = s.par := by rw [hu]
        have udst : ∀ k, bufBit .dst u k = bufBit .dst (s.setDst m) k := by intro k; rw [hu]; rfl
        have uout : u.comp.outBit.toNat = s.comp.outBit.toNat + s.dictC.codeWidth.toNat := by
          rw [uc]; exact hadd
        have ucap : u.comp.capBits = s.comp.capBits := by rw [uc]
        have ulen : u.comp.srcLen = s.comp.srcLen := by rw [uc]
        have uidx : u.comp.srcIndex.toNat = s.comp.srcIndex.toNat + 1 := by rw [uc]; exact hsucc
        have uframe : u = { s with dst := u.dst, dictC := u.dictC, comp := u.comp } := by rw [hu]
        have ha : Accum u xs := {
          state := by rw [uc]; exact h.state
          index := by rw [uidx, ulen]; omega
          bytes := by
            intro i hi'
            rw [usrc, uidx]
            exact hbytes i hi'
          size := by rw [ulen, usz]; exact hsize
          cap := by rw [ucap, ulen]; exact hcap
          room := by rw [ulen, upar]; exact hroom
          out := by rw [uout, ucap]; omega }
        obtain ⟨t, l, h1, h2⟩ := ih (fuel := fuel) ha (by omega)
        have ub : u.comp.basecode = x.setWidth 12 := by rw [uc]
        rw [ud, ub] at h2
        refine ⟨t, (s.comp.basecode, s.dictC.codeWidth.toNat) :: l,
          by rw [hloop, es, Res.ok_bind, h1], ?_⟩
        rw [ec]
        exact {
          frame := h2.of_frame uframe
          srcLen := h2.srcLen.trans ulen
          capBits := h2.capBits.trans ucap
          outBit := by rw [h2.outBit, uout, totalBits_cons]; omega
          out := h2.out
          bits := by
            intro k
            rw [h2.bits k, udst, e2 k, packedBit_cons, uout, Bool.or_assoc]
          pre := (List.cons_prefix_cons).2 ⟨rfl, h2.pre⟩
          ok := by
            intro hc
            rw [totalBits_cons] at hc
            have := h2.ok (by rw [uout, ucap]; dsimp only at hc; omega)
            exact ⟨this.1, by rw [this.2]⟩
          fail := by
            intro hc
            rw [totalBits_cons] at hc
            exact h2.fail (by rw [uout, ucap]; dsimp only at hc; omega) }
      · have e1 := compEmit_fail (c := s.comp.basecode) (s := s) (by omega)
        have es : compStep s = .ok (s.setComp { s.comp with state := .failed }) := by
          unfold compStep
          rw [h.read, Res.ok_bind, hl]
          dsimp only
          rw [e1, Res.ok_bind]
          rfl
        have hstop : compLoop fuel (s.setComp { s.comp with state := .failed })
            = .ok (s.setComp { s.comp with state := .failed }) := by
          cases fuel <;> simp [compLoop]
        refine ⟨_, [], by rw [hloop, es, Res.ok_bind, hstop], ?_⟩
        rw [ec]
        exact {
          frame := rfl, srcLen := rfl, capBits := rfl, outBit := rfl, out := hout
          bits := fun k => by simp [packedBit]; rfl
          pre := List.nil_prefix
          ok := fun hc => absurd hc (by rw [totalBits_cons]; dsimp only; omega)
          fail := fun _ => rfl }

end Sys2Proof.Machine
end

