-- ==== Sys2Proof/Laws/CompressEnd.lean ====
section
/-! SUPPORT. COMPRESS as a whole (45_container R240): the state in which the Compressor stops, and the
container that is wrapped from it. -/

namespace Sys2Proof.Machine

open Sys2Proof Sys2Proof.Safety

/-- The source bytes of COMPRESS. -/
def sourceBytes (s : State) : List Byte := Memory.readList s.src s.srcLen.toNat 0

/-- MIN_BITS for a source (43_compressor R160). -/
def modeOf (xs : List Byte) : BitVec 4 := if xs.any (fun b => decide (0x80 ≤ b.toNat)) then 8 else 7

theorem modeOf_legal (xs : List Byte) : minBitsLegal (modeOf xs) := by
  unfold modeOf
  split
  · exact .inr rfl
  · exact .inl rfl

theorem length_sourceBytes (s : State) : (sourceBytes s).length = s.srcLen.toNat :=
  Memory.length_readList _ _ _

theorem getD_sourceBytes (s : State) {i : Nat} (h : i < s.srcLen.toNat) :
    (sourceBytes s).getD i 0 = srcByte s i := by
  have := Memory.getD_readList s.src s.srcLen.toNat 0 i h
  rw [Nat.zero_add] at this
  exact this

theorem mem_sourceBytes {s : State} {b : Byte} :
    b ∈ sourceBytes s ↔ ∃ i, i < s.srcLen.toNat ∧ srcByte s i = b := by
  rw [List.mem_iff_getElem]
  have hl := length_sourceBytes s
  constructor
  · rintro ⟨i, hi, rfl⟩
    refine ⟨i, by omega, ?_⟩
    rw [← getD_sourceBytes s (by omega)]
    simp [hi]
  · rintro ⟨i, hi, rfl⟩
    refine ⟨i, by omega, ?_⟩
    rw [← getD_sourceBytes s hi]
    simp [hl, hi]

theorem modeOf_eq_eight (s : State) :
    modeOf (sourceBytes s) = 8 ↔ ∃ i, i < s.srcLen.toNat ∧ 0x80 ≤ (srcByte s i).toNat := by
  have h : (sourceBytes s).any (fun b => decide (0x80 ≤ b.toNat)) = true
      ↔ ∃ i, i < s.srcLen.toNat ∧ 0x80 ≤ (srcByte s i).toNat := by
    simp only [List.any_eq_true, decide_eq_true_iff]
    constructor
    · rintro ⟨b, hb, h8⟩
      obtain ⟨i, hi, rfl⟩ := mem_sourceBytes.1 hb
      exact ⟨i, hi, h8⟩
    · rintro ⟨i, hi, h8⟩
      exact ⟨_, mem_sourceBytes.2 ⟨i, hi, rfl⟩, h8⟩
  rw [← h]
  unfold modeOf
  split
  · simp [*]
  · rename_i hn
    simp [hn]

/-- Every source byte is a literal of its mode. -/
theorem source_lt_base (xs : List Byte) (d : Dict) :
    ∀ x ∈ xs, x.toNat < (dictInit (modeOf xs) d).base := by
  intro x hx
  unfold modeOf
  split
  · exact Nat.lt_of_lt_of_le x.isLt (Nat.le_refl _)
  · rename_i h
    simp only [List.any_eq_true, decide_eq_true_iff, not_exists, not_and] at h
    have := h x hx
    show x.toNat < 2 ^ 7
    omega

/-- The codes of COMPRESS's source. -/
def sourceCodes (s : State) : List (Code × Nat) :=
  codesOf (dictInit (modeOf (sourceBytes s)) s.dictC) (sourceBytes s)

theorem sourceCodes_fit (s : State) : Fit (sourceCodes s) :=
  codesOf_fit (Dict.closed_dictInit (modeOf_legal _) _) (source_lt_base _ _)

/-- The state in which the Compressor stops, with the codes `l` that it has emitted. -/
structure Ran (s d : State) (l : List (Code × Nat)) : Prop where
  frame : d = { s with
    seq := .cRun, dst := d.dst, dictC := d.dictC, comp := d.comp
    ports := { s.ports with minBits := modeOf (sourceBytes s) } }
  srcLen : d.comp.srcLen = s.srcLen
  capBits : d.comp.capBits.toNat = 8 * (s.srcLen.toNat + 17)
  outBit : d.comp.outBit.toNat = 136 + totalBits l
  out : d.comp.outBit.toNat ≤ 8 * (s.srcLen.toNat + 17)
  bits : ∀ k, bufBit .dst d k
    = ((if k < 8 * (s.srcLen.toNat + 21) then false else bufBit .dst s k) || packedBit l 136 k)
  pre : l <+: sourceCodes s
  ok : 136 + totalBits (sourceCodes s) ≤ 8 * (s.srcLen.toNat + 17) →
    d.comp.state = .exhausted ∧ l = sourceCodes s
  fail : ¬ 136 + totalBits (sourceCodes s) ≤ 8 * (s.srcLen.toNat + 17) → d.comp.state = .failed

/-- COMPRESS up to the end of the coded attempt. -/
theorem compress_ran {s : State} (h1 : s.par.maxSrcLen ≤ 2 ^ 32 - 18)
    (h2 : s.srcLen.toNat ≤ s.par.maxSrcLen) (h3 : s.srcLen.toNat ≤ s.par.srcCap)
    (h4 : s.srcLen.toNat + 21 ≤ s.par.dstCap) :
    ∃ d l, compress s = compressWrap d ∧ Ran s d l := by
  have hsz : srcSize s = s.srcLen.toNat := by unfold srcSize; omega
  have hnr : compressRefused s = false := by
    simp only [compressRefused, Bool.or_eq_false_iff, decide_eq_false_iff_not, Config.headerSize,
      Config.orHeadroom]
    refine ⟨⟨by omega, by omega⟩, decide_eq_false (by omega)⟩
  -- COMP_PRESCAN
  obtain ⟨b, p1, p2⟩ := scanHigh_eq s.srcLen.toNat 0 (s.setSeq .cRun) (by show _ ≤ srcSize s; omega)
  have hb : (if b then (8 : BitVec 4) else 7) = modeOf (sourceBytes s) := by
    have e8 := modeOf_eq_eight s
    have hm := modeOf_legal (sourceBytes s)
    have p3 : b = true ↔ modeOf (sourceBytes s) = 8 := by
      rw [p2, e8]
      simp only [Nat.zero_le, true_and, Nat.zero_add]
      exact Iff.rfl
    cases b with
    | true => simp [(p3.1 rfl)]
    | false =>
      rcases hm with hm | hm
      · simp [hm]
      · have := p3.2 hm; cases this
  have e1 : compPrescan (s.setSeq .cRun) = .ok ((s.setSeq .cRun).setPorts
      { s.ports with minBits := modeOf (sourceBytes s) }) := by
    unfold compPrescan
    show scanHigh s.srcLen.toNat 0 (s.setSeq .cRun) >>= _ = _
    rw [p1, Res.ok_bind, hb]
    rfl
  -- COMP_START
  have e2 := compStart_eq ((s.setSeq .cRun).setPorts
      { s.ports with minBits := modeOf (sourceBytes s) }) h4
  generalize ha : ((s.setSeq .cRun).setPorts
      { s.ports with minBits := modeOf (sourceBytes s) }) = a at e1 e2
  have a1 : a.srcLen = s.srcLen := by rw [← ha]; rfl
  have a2 : a.dictC = s.dictC := by rw [← ha]; rfl
  have a3 : a.dst = s.dst := by rw [← ha]; rfl
  have a4 : a.comp = s.comp := by rw [← ha]; rfl
  have a5 : a.ports.minBits = modeOf (sourceBytes s) := by rw [← ha]; rfl
  rw [a1, a2, a3, a4, a5] at e2
  generalize hbb : ((a.setDst (Memory.fill 0x00 (s.srcLen.toNat + 21) 0 s.dst)).setDictC
      (dictInit (modeOf (sourceBytes s)) s.dictC)).setComp
        { s.comp with
          state := .awaitFirstByte, basecodeValid := false, srcIndex := 0, srcLen := s.srcLen
          outBit := 136#35, capBits := BitVec.ofNat 35 (8 * (s.srcLen.toNat + 17)) } = bb at e2
  have b1 : bb.comp = { s.comp with
          state := .awaitFirstByte, basecodeValid := false, srcIndex := 0, srcLen := s.srcLen
          outBit := 136#35, capBits := BitVec.ofNat 35 (8 * (s.srcLen.toNat + 17)) } := by rw [← hbb]; rfl
  have b2 : bb.dictC = dictInit (modeOf (sourceBytes s)) s.dictC := by rw [← hbb]; rfl
  have b3 : bb = { s with
      seq := .cRun, dst := bb.dst, dictC := bb.dictC, comp := bb.comp
      ports := { s.ports with minBits := modeOf (sourceBytes s) } } := by rw [← hbb, ← ha]; rfl
  have b4 : ∀ x, dstByte bb x = if x < s.srcLen.toNat + 21 then 0x00 else dstByte s x := by
    intro x
    rw [← hbb]
    show Memory.read (Memory.fill 0x00 (s.srcLen.toNat + 21) 0 s.dst) x = _
    rw [Memory.read_fill]
    simp [dstByte]
  have hcapn : (BitVec.ofNat 35 (8 * (s.srcLen.toNat + 17))).toNat = 8 * (s.srcLen.toNat + 17) := by
    rw [BitVec.toNat_ofNat, Nat.mod_eq_of_lt]
    have := s.srcLen.isLt
    omega
  have b5 : ∀ k, bufBit .dst bb k
      = if k < 8 * (s.srcLen.toNat + 21) then false else bufBit .dst s k := by
    intro k
    show (dstByte bb (k / 8)).getLsbD (k % 8) = if _ then _ else (dstByte s (k / 8)).getLsbD (k % 8)
    rw [b4]
    by_cases hk : k < 8 * (s.srcLen.toNat + 21)
    · rw [if_pos hk, if_pos (by omega)]; simp
    · rw [if_neg hk, if_neg (by omega)]
  have bsrc : ∀ i, srcByte bb i = srcByte s i := by intro i; rw [b3]; rfl
  have bsz : srcSize bb = srcSize s := by rw [b3]; rfl
  have bpar : bb.par = s.par := by rw [b3]
  have hc : ∀ c, compStepFirst bb = .ok c → compress s
      = compLoop s.srcLen.toNat c >>= compressWrap := by
    intro c hc
    unfold compress
    rw [hnr]
    simp only [Bool.false_eq_true, if_false]
    rw [e1, Res.ok_bind, e2, Res.ok_bind, hc, Res.ok_bind]
  cases hx : sourceBytes s with
  | nil =>
    have hn : s.srcLen.toNat = 0 := by have := length_sourceBytes s; rw [hx] at this; simpa using this.symm
    have hz : s.srcLen = 0 := BitVec.eq_of_toNat_eq hn
    have hcodes : sourceCodes s = [] := by unfold sourceCodes; rw [hx]; rfl
    have e3 : compStepFirst bb = .ok (bb.setComp { bb.comp with state := .exhausted }) := by
      unfold compStepFirst
      rw [if_pos (by rw [b1, hz])]
    refine ⟨bb.setComp { bb.comp with state := .exhausted }, [], ?_, ?_⟩
    · rw [hc _ e3, hn]
      simp only [compLoop]
      rfl
    · exact {
        frame := by
          have := congrArg (State.setComp { bb.comp with state := .exhausted }) b3
          exact this
        srcLen := by show bb.comp.srcLen = _; rw [b1]
        capBits := by show bb.comp.capBits.toNat = _; rw [b1]; exact hcapn
        outBit := by show bb.comp.outBit.toNat = _; rw [b1]; rfl
        out := by
          show bb.comp.outBit.toNat ≤ _
          rw [b1]
          show 136 ≤ _
          omega
        bits := fun k => by
          show bufBit .dst bb k = _
          rw [b5 k]
          simp [packedBit]
        pre := List.nil_prefix
        ok := fun _ => ⟨rfl, hcodes.symm⟩
        fail := fun hf => absurd (by rw [hcodes]; simp [totalBits]; omega) hf }
  | cons x xs =>
    have hn : s.srcLen.toNat = xs.length + 1 := by
      have := length_sourceBytes s; rw [hx] at this; simpa using this.symm
    have hx0 : srcByte s 0 = x := by
      have := getD_sourceBytes s (i := 0) (by omega)
      rw [hx] at this
      simpa using this.symm
    have hne : ¬ bb.comp.srcIndex = bb.comp.srcLen := by
      rw [b1]
      intro hh
      have := congrArg BitVec.toNat hh
      simp at this
      omega
    have e3 : compStepFirst bb = .ok (bb.setComp { bb.comp with
        basecode := x.setWidth 12, basecodeValid := true, srcIndex := 1, state := .accumulate }) := by
      unfold compStepFirst
      rw [if_neg hne, readSrc_eq (by rw [bsz, hsz]; omega), Res.ok_bind, bsrc, hx0]
    generalize hcc : bb.setComp { bb.comp with
        basecode := x.setWidth 12, basecodeValid := true, srcIndex := 1, state := .accumulate } = c at e3
    have c1 : c.comp = { bb.comp with
        basecode := x.setWidth 12, basecodeValid := true, srcIndex := 1, state := .accumulate } := by
      rw [← hcc]; rfl
    have c2 : c = { bb with comp := c.comp } := by rw [← hcc]; rfl
    have c3 : c.dictC = dictInit (modeOf (sourceBytes s)) s.dictC := by rw [c2]; exact b2
    have c4 : c.comp.srcLen = s.srcLen := by rw [c1, b1]
    have c5 : c.comp.capBits.toNat = 8 * (s.srcLen.toNat + 17) := by rw [c1, b1]; exact hcapn
    have c6 : c.comp.outBit.toNat = 136 := by rw [c1, b1]; rfl
    have c7 : c.comp.srcIndex.toNat = 1 := by rw [c1]; rfl
    have c8 : c.comp.basecode = x.setWidth 12 := by rw [c1]
    have ha : Accum c xs := {
      state := by rw [c1]
      index := by rw [c7, c4]; omega
      bytes := by
        intro i hi
        rw [c7]
        have : srcByte c (1 + i) = srcByte s (1 + i) := by rw [c2]; exact bsrc _
        rw [this, ← getD_sourceBytes s (by omega), hx, Nat.add_comm 1 i]
        simp
      size := by
        rw [c4]
        have : srcSize c = srcSize s := by rw [c2]; exact bsz
        omega
      cap := by rw [c5, c4]
      room := by
        rw [c4]
        have : c.par = s.par := by rw [c2]; exact bpar
        rw [this]
        exact h4
      out := by rw [c6, c5]; omega }
    obtain ⟨d, l, d1, d2⟩ := compLoop_spec (fuel := s.srcLen.toNat) ha (by omega)
    rw [c3, c8] at d2
    have hcodes : sourceCodes s
        = codesFrom (dictInit (modeOf (sourceBytes s)) s.dictC) (x.setWidth 12) xs := by
      unfold sourceCodes
      rw [hx]
      rfl
    rw [← hcodes] at d2
    refine ⟨d, l, by rw [hc _ e3, d1, Res.ok_bind], ?_⟩
    have hd : d = { bb with dst := d.dst, dictC := d.dictC, comp := d.comp } := by
      have := d2.frame
      rw [c2] at this
      exact this
    exact {
      frame := by
        have := hd
        rw [b3] at this
        exact this
      srcLen := d2.srcLen.trans c4
      capBits := by rw [d2.capBits]; exact c5
      outBit := by rw [d2.outBit, c6]
      out := by have := d2.out; rw [d2.capBits, c5] at this; exact this
      bits := by
        intro k
        rw [d2.bits k, c6]
        have : bufBit .dst c k = bufBit .dst bb k := by rw [c2]; rfl
        rw [this, b5 k]
      pre := d2.pre
      ok := by
        intro hh
        exact d2.ok (by rw [c6, c5]; exact hh)
      fail := by
        intro hh
        exact d2.fail (by rw [c6, c5]; exact hh) }

theorem ended_cmdEnd (r : ResultCode) (len : Word32) (s : State) : ended r (cmdEnd r len s) := by
  unfold ended State.busy State.done
  show statusBusy (statusOf false true r) = false ∧ statusDone (statusOf false true r) = true
    ∧ statusReserved (statusOf false true r) = 0 ∧ statusResult (statusOf false true r) = resultBits r
    ∧ Seq.idle = Seq.idle
  cases r <;> decide

theorem packedBit_pre_out {s : State} {l : List (Code × Nat)} (h : l <+: sourceCodes s) {k : Nat}
    (hk : 136 + totalBits l ≤ k) : packedBit l 136 k = false :=
  packedBit_out (Fit.of_pre (sourceCodes_fit s) h) (.inr hk)

/-- The frame that COMPRESS keeps. -/
def CompressFrame (s t : State) : Prop :=
  t = { s with
    status := t.status, resultLen := t.resultLen, seq := .idle, dst := t.dst
    dictC := t.dictC, comp := t.comp, hdr := t.hdr, ports := t.ports }

/-- COMPRESS whose codes fit (45_container R240). -/
theorem compress_coded {s : State} (h1 : s.par.maxSrcLen ≤ 2 ^ 32 - 18)
    (h2 : s.srcLen.toNat ≤ s.par.maxSrcLen) (h3 : s.srcLen.toNat ≤ s.par.srcCap)
    (h4 : s.srcLen.toNat + 21 ≤ s.par.dstCap)
    (hf : 136 + totalBits (sourceCodes s) ≤ 8 * (s.srcLen.toNat + 17)) :
    ∃ t, compress s = .ok t ∧ ended .ok t ∧ CompressFrame s t
      ∧ t.resultLen.toNat = ceilDiv (136 + totalBits (sourceCodes s)) 8
      ∧ word32At (dstByte t) 0 = t.resultLen.toNat ∧ word32At (dstByte t) 4 = 0
      ∧ word32At (dstByte t) 8 = s.srcLen.toNat ∧ word32At (dstByte t) 12 = 0
      ∧ dstByte t 16 = tagOfMinBits (modeOf (sourceBytes s))
      ∧ (∀ k, 136 ≤ k → bufBit .dst t k
          = ((if k < 8 * (s.srcLen.toNat + 21) then false else bufBit .dst s k)
            || packedBit (sourceCodes s) 136 k))
      ∧ t.comp.state = .exhausted ∧ t.comp.capBits.toNat = 8 * (s.srcLen.toNat + 17)
      ∧ t.comp.outBit.toNat = 136 + totalBits (sourceCodes s) := by
  obtain ⟨d, l, r1, r2⟩ := compress_ran h1 h2 h3 h4
  obtain ⟨o1, rfl⟩ := r2.ok hf
  have hpar : d.par = s.par := by rw [r2.frame]
  have hcs : ceilDiv (136 + totalBits (sourceCodes s)) 8 ≤ s.srcLen.toNat + 17 := by
    unfold ceilDiv; omega
  have hcs0 : (wrapCoded d).hdr.cs.toNat = ceilDiv (136 + totalBits (sourceCodes s)) 8 := by
    show (BitVec.ofNat 32 (ceilDiv d.comp.outBit.toNat 8)).toNat = _
    rw [r2.outBit, BitVec.toNat_ofNat, Nat.mod_eq_of_lt]
    have := s.srcLen.isLt
    omega
  have hes0 : (wrapCoded d).hdr.es.toNat = s.srcLen.toNat := by
    show d.comp.srcLen.toNat = _
    rw [r2.srcLen]
  have ht0 : (wrapCoded d).hdr.ctype = tagOfMinBits (modeOf (sourceBytes s)) := by
    show tagOfMinBits d.ports.minBits = _
    rw [r2.frame]
  obtain ⟨m, w0, w1, w2, w3, w4, w5, w6, _⟩ := writeHeader_eq (wrapCoded d).hdr.cs.toNat
    (wrapCoded d).hdr.es.toNat (wrapCoded d).hdr.ctype (wrapCoded d) (by show 17 ≤ d.par.dstCap; rw [hpar]; omega)
    (BitVec.isLt _) (BitVec.isLt _)
  have hw : compressWrap d = .ok (cmdEnd .ok (wrapCoded d).hdr.cs ((wrapCoded d).setDst m)) := by
    unfold compressWrap
    rw [if_pos o1]
    unfold contWriteHeader
    rw [w0, Res.ok_bind]
    rfl
  refine ⟨_, r1.trans hw, ended_cmdEnd _ _ _, ?_, hcs0, ?_, w2, ?_, w4, ?_, ?_, o1, r2.capBits, r2.outBit⟩
  · have hfr : wrapCoded d = { s with
        seq := .cWrap, dst := d.dst, dictC := d.dictC, comp := d.comp
        ports := { s.ports with minBits := modeOf (sourceBytes s) }, hdr := (wrapCoded d).hdr } := by
      have := congrArg (State.setSeq .cWrap) r2.frame
      exact congrArg (State.setHdr (wrapCoded d).hdr) this
    unfold CompressFrame
    generalize (wrapCoded d) = w at hfr ⊢
    rw [hfr]
    rfl
  · exact w1
  · exact w3.trans hes0
  · exact w5.trans ht0
  · intro k hk
    have hb : bufBit .dst (cmdEnd .ok (wrapCoded d).hdr.cs ((wrapCoded d).setDst m)) k
        = (Memory.read m (k / 8)).getLsbD (k % 8) := rfl
    rw [hb, w6 _ (by omega), ← r2.bits k]
    rfl

/-- COMPRESS whose codes do not fit (45_container R240): the stored form. -/
theorem compress_stored {s : State} (h1 : s.par.maxSrcLen ≤ 2 ^ 32 - 18)
    (h2 : s.srcLen.toNat ≤ s.par.maxSrcLen) (h3 : s.srcLen.toNat ≤ s.par.srcCap)
    (h4 : s.srcLen.toNat + 21 ≤ s.par.dstCap)
    (hf : ¬ 136 + totalBits (sourceCodes s) ≤ 8 * (s.srcLen.toNat + 17)) :
    ∃ t, compress s = .ok t ∧ ended .ok t ∧ CompressFrame s t
      ∧ t.resultLen.toNat = s.srcLen.toNat + 17
      ∧ word32At (dstByte t) 0 = s.srcLen.toNat + 17 ∧ word32At (dstByte t) 4 = 0
      ∧ word32At (dstByte t) 8 = s.srcLen.toNat ∧ word32At (dstByte t) 12 = 0
      ∧ dstByte t 16 = 1
      ∧ (∀ i, i < s.srcLen.toNat → dstByte t (17 + i) = srcByte s i)
      ∧ (∀ a, s.srcLen.toNat + 17 ≤ a →
          dstByte t a = if a < s.srcLen.toNat + 21 then 0x00 else dstByte s a)
      ∧ t.comp.state = .failed := by
  obtain ⟨d, l, r1, r2⟩ := compress_ran h1 h2 h3 h4
  have o1 := r2.fail hf
  have hpar : d.par = s.par := by rw [r2.frame]
  have hsl : d.comp.srcLen = s.srcLen := r2.srcLen
  have hsrc : ∀ i, srcByte d i = srcByte s i := by intro i; rw [r2.frame]; rfl
  have hss : srcSize d = srcSize s := by rw [r2.frame]; rfl
  have hsz : srcSize s = s.srcLen.toNat := by unfold srcSize; omega
  obtain ⟨m, w0, w1, w2, w3, w4, w5, w6, w7, _⟩ := contStored_eq (wrapStored d)
    (by show d.comp.srcLen.toNat ≤ srcSize d; rw [hsl, hss, hsz])
    (by show d.comp.srcLen.toNat + 17 ≤ d.par.dstCap; rw [hsl, hpar]; omega)
    (by show d.comp.srcLen.toNat + 17 < 2 ^ 32; rw [hsl]; omega)
  have hwl : (wrapStored d).comp.srcLen.toNat = s.srcLen.toNat := by
    show d.comp.srcLen.toNat = _
    rw [hsl]
  rw [hwl] at w0 w1 w3 w6 w7
  have hlen : (BitVec.ofNat 32 (s.srcLen.toNat + 17)).toNat = s.srcLen.toNat + 17 := by
    rw [BitVec.toNat_ofNat, Nat.mod_eq_of_lt (by omega)]
  have hw : compressWrap d = .ok (cmdEnd .ok (BitVec.ofNat 32 (s.srcLen.toNat + 17))
      (((wrapStored d).setDst m).setPorts { (wrapStored d).ports with
        length := BitVec.ofNat 32 (s.srcLen.toNat + 17) })) := by
    unfold compressWrap
    rw [if_neg (by rw [o1]; simp), w0, Res.ok_bind]
    rfl
  refine ⟨_, r1.trans hw, ended_cmdEnd _ _ _, ?_, hlen, w1, w2, w3, w4, w5, ?_, ?_, o1⟩
  · have hfr : wrapStored d = { s with
        seq := .cWrap, dst := d.dst, dictC := d.dictC, comp := d.comp
        ports := { s.ports with minBits := modeOf (sourceBytes s) } } :=
      congrArg (State.setSeq .cWrap) r2.frame
    unfold CompressFrame
    generalize (wrapStored d) = w at hfr ⊢
    rw [hfr]
    rfl
  · intro i hi
    exact (w6 i hi).trans (hsrc i)
  · intro a ha
    have e1 : dstByte d a = if a < s.srcLen.toNat + 21 then 0x00 else dstByte s a := by
      have hz : ∀ k, 8 * a ≤ k → bufBit .dst d k
          = if k < 8 * (s.srcLen.toNat + 21) then false else bufBit .dst s k := by
        intro k hk
        have hout := r2.out
        rw [r2.bits k, packedBit_pre_out r2.pre (by rw [← r2.outBit]; omega), Bool.or_false]
      apply BitVec.eq_of_getLsbD_eq
      intro j hj
      have := hz (8 * a + j) (by omega)
      unfold bufBit bufByte at this
      have e1 : (8 * a + j) / 8 = a := by omega
      have e2 : (8 * a + j) % 8 = j := by omega
      rw [e1, e2] at this
      rw [this]
      by_cases hh : a < s.srcLen.toNat + 21
      · rw [if_pos hh, if_pos (by omega)]; simp
      · rw [if_neg hh, if_neg (by omega)]
    rw [← e1]
    exact w7 a ha

theorem compressRefused_iff (s : State) : compressRefused s = true ↔
    s.par.maxSrcLen < s.srcLen.toNat ∨ s.par.srcCap < s.srcLen.toNat ∨ s.par.dstCap < s.srcLen.toNat + 21 := by
  simp only [compressRefused, Bool.or_eq_true, decide_eq_true_iff, or_assoc]
  rfl

/-- COMPRESS always answers, so a next state of it is its answer: it never gets the engine stuck. -/
theorem compress_next {s t : State} (h1 : s.par.maxSrcLen ≤ 2 ^ 32 - 18) (h : exec .compress s = .next t) :
    compress s = .ok t := by
  by_cases hr : compressRefused s = true
  · exact toOutcome_next_of_ok (if_pos hr) h
  · rw [compressRefused_iff] at hr
    by_cases hf : 136 + totalBits (sourceCodes s) ≤ 8 * (s.srcLen.toNat + 17)
    · obtain ⟨u, e, _⟩ := compress_coded h1 (by omega) (by omega) (by omega) hf
      exact toOutcome_next_of_ok e h
    · obtain ⟨u, e, _⟩ := compress_stored h1 (by omega) (by omega) (by omega) hf
      exact toOutcome_next_of_ok e h

end Sys2Proof.Machine
end

