-- ==== Sys2Proof/Laws/Decompressor.lean ====
section
/-! SUPPORT. What the shared operations of the Decompressor do: reading a code, the stack, the expansion
of a code, and the moving of the stack to DST. -/

namespace Sys2Proof.Machine

open Sys2Proof Sys2Proof.Safety

/-! ### Reading a code -/

/-- DEC_READ of `w` bits that all exist: the code's bits, least significant first. -/
theorem decReadCode_eq (w : Nat) (s : State) (hw : w ≤ 12)
    (hr : ∀ j, j < w → (s.dec.inBit.toNat + j) / 8 < srcSize s) :
    ∃ c : Code, decReadCode w s = .ok (((s.setAcc (c.setWidth 32)).setDec
          { s.dec with inBit := BitVec.ofNat 35 (s.dec.inBit.toNat + w), curCode := c }).setPorts
          { s.ports with code := some c })
      ∧ ∀ j, j < 12 → c.getLsbD j = (decide (j < w) && bufBit .src s (s.dec.inBit.toNat + j)) := by
  obtain ⟨v, h1, h2⟩ := extractU32_eq (M := .src) (by simp) s.dec.inBit.toNat w s (by omega) hr
  have hv : (v.setWidth 12 : Code).setWidth 32 = v := by
    apply BitVec.eq_of_getLsbD_eq
    intro j hj
    rw [BitVec.getLsbD_setWidth, BitVec.getLsbD_setWidth]
    by_cases h12 : j < 12
    · simp [h12, hj]
    · rw [h2 j hj]
      have : ¬ j < w := by omega
      simp [h12, this]
  refine ⟨v.setWidth 12, ?_, ?_⟩
  · simp only [decReadCode, h1, Res.ok_bind, State.setAcc_acc]
    rw [hv]
    rfl
  · intro j hj
    rw [BitVec.getLsbD_setWidth, h2 j (by omega)]
    simp [hj]

/-! ### The stack -/

theorem length_stackBytes (d : Dec) : (stackBytes d).length = d.sp.toNat := by simp [stackBytes]

/-- The byte at a place of the stack. -/
theorem getD_stackBytes (d : Dec) (i : Nat) (h : i < d.sp.toNat) :
    (stackBytes d).getD i 0 = Table.get 0 d.stack i := by
  simp [stackBytes, List.getD_eq_getElem?_getD, h]

theorem push_full {v : Byte} {d : Dec} (h : d.sp.toNat = 4096) : push v d = none := by
  simp [push, h, Config.stackCapacity]

/-- PUSH puts the byte on top. -/
theorem push_eq (v : Byte) (d : Dec) (h : d.sp.toNat < 4096) :
    push v d = some { d with stack := Table.put 0 d.stack d.sp.toNat v, sp := d.sp + 1 }
      ∧ (d.sp + 1).toNat = d.sp.toNat + 1
      ∧ stackBytes { d with stack := Table.put 0 d.stack d.sp.toNat v, sp := d.sp + 1 }
          = stackBytes d ++ [v] := by
  have h1 : (d.sp + 1).toNat = d.sp.toNat + 1 := by rw [BitVec.toNat_add]; simp; omega
  refine ⟨?_, h1, ?_⟩
  · unfold push
    rw [if_neg]
    show ¬ d.sp.toNat = 4096
    omega
  · unfold stackBytes
    dsimp only
    rw [h1, List.range_succ, List.map_append]
    congr 1
    · apply List.map_congr_left
      intro i hi
      rw [Table.get_put, if_neg]
      have := List.mem_range.mp hi
      omega
    · simp [Table.get_put]

/-! ### Expansion -/

theorem expansionRev_ne_nil (t : Dict) (fuel x : Nat) : expansionRev t fuel x ≠ some [] := by
  cases fuel with
  | zero => unfold expansionRev; split <;> simp
  | succ fuel => unfold expansionRev; split <;> (try split) <;> simp

/-- The outcome of a walk that pushes `bs` onto the stack of `d`. -/
def Pushed (d : Dec) (bs : List Byte) (r : Dec × Bool) : Prop :=
  (d.sp.toNat + bs.length ≤ 4096 →
      ∃ d', r = (d', true)
        ∧ d' = { d with stack := d'.stack, sp := d'.sp, firstByte := d'.firstByte }
        ∧ stackBytes d' = stackBytes d ++ bs ∧ some d'.firstByte = bs.getLast?)
    ∧ (4096 < d.sp.toNat + bs.length →
      ∃ d', r = (d', false)
        ∧ d' = { d with stack := d'.stack, sp := 4096 }
        ∧ stackBytes d' = (stackBytes d ++ bs).take 4096)

theorem full_stack (d : Dec) (bs : List Byte) (h : d.sp.toNat = 4096) :
    d = { d with stack := d.stack, sp := 4096 } ∧ stackBytes d = (stackBytes d ++ bs).take 4096 := by
  have h5 : d.sp = 4096 := BitVec.eq_of_toNat_eq h
  refine ⟨by rw [← h5], ?_⟩
  rw [List.take_append_of_le_length (by rw [length_stackBytes]; omega),
    List.take_of_length_le (by rw [length_stackBytes]; omega)]

/-- The push of the literal at the end of the walk. -/
theorem expandFrom_literal (t : Dict) (x : BitVec 16) (d : Dec) (hs : d.sp.toNat ≤ 4096) :
    Pushed d [BitVec.ofNat 8 x.toNat] (expandFrom t 0 x d) := by
  have e8 : BitVec.ofNat 8 x.toNat = x.setWidth 8 := by
    apply BitVec.eq_of_toNat_eq; simp
  rw [e8]
  unfold expandFrom
  constructor
  · intro h
    simp only [List.length_singleton] at h
    obtain ⟨p1, p2, p3⟩ := push_eq (x.setWidth 8) d (by omega)
    rw [p1]
    exact ⟨_, rfl, rfl, p3, rfl⟩
  · intro h
    simp only [List.length_singleton] at h
    have h4 : d.sp.toNat = 4096 := by omega
    rw [push_full h4]
    exact ⟨d, rfl, full_stack d _ h4⟩

/-- The walk of DEC_EXPAND pushes a code's expansion, newest byte first, or stops on a full stack. -/
theorem expandFrom_spec (t : Dict) (fuel : Nat) (x : BitVec 16) (d : Dec) (bs : List Byte)
    (hx : expansionRev t fuel x.toNat = some bs) (hs : d.sp.toNat ≤ 4096) :
    Pushed d bs (expandFrom t fuel x d) := by
  induction fuel generalizing x d bs with
  | zero =>
    unfold expansionRev at hx
    split at hx
    · rw [← Option.some.inj hx]; exact expandFrom_literal t x d hs
    · cases hx
  | succ fuel ih =>
    unfold expansionRev at hx
    by_cases hb : x.toNat < t.base
    · rw [if_pos hb] at hx
      unfold expandFrom
      rw [if_pos hb, ← Option.some.inj hx]
      exact expandFrom_literal t x d hs
    · rw [if_neg hb] at hx
      unfold expandFrom
      rw [if_neg hb]
      cases hr : expansionRev t fuel (t.pfxAt x.toNat).toNat with
      | none => rw [hr] at hx; cases hx
      | some cs =>
        rw [hr] at hx
        rw [← Option.some.inj hx]
        have hcs : cs ≠ [] := fun h => expansionRev_ne_nil _ _ _ (h ▸ hr)
        by_cases h4 : d.sp.toNat = 4096
        · rw [push_full h4]
          refine ⟨fun h => ?_, fun _ => ⟨d, rfl, full_stack d _ h4⟩⟩
          simp only [List.length_cons] at h; omega
        · obtain ⟨p1, p2, p3⟩ := push_eq (t.trailingAt x.toNat) d (by omega)
          rw [p1]
          obtain ⟨i1, i2⟩ := ih (t.pfxAt x.toNat)
            { d with stack := Table.put 0 d.stack d.sp.toNat (t.trailingAt x.toNat), sp := d.sp + 1 } cs hr
            (show (d.sp + 1).toNat ≤ 4096 by omega)
          dsimp only at i1 i2
          rw [p2] at i1 i2
          rw [p3] at i1 i2
          constructor
          · intro h
            simp only [List.length_cons] at h
            obtain ⟨d', j1, j2, j3, j4⟩ := i1 (by omega)
            refine ⟨d', j1, j2, by rw [j3, List.append_assoc]; rfl, ?_⟩
            rw [j4, List.getLast?_cons_of_ne_nil hcs]
          · intro h
            simp only [List.length_cons] at h
            obtain ⟨d', j1, j2, j3⟩ := i2 (by omega)
            exact ⟨d', j1, j2, by rw [j3, List.append_assoc]; rfl⟩

/-- The stack DEC_EXPAND starts on. -/
theorem expandStart_spec (kind : CodeKind) (d : Dec) :
    ∃ st sp0, expandStart kind d = some { d with stack := st, sp := sp0 } ∧ sp0.toNat ≤ 1
      ∧ stackBytes { d with stack := st, sp := sp0 } = if kind = .self then [d.firstByte] else [] := by
  unfold expandStart
  by_cases hk : kind = .self
  · obtain ⟨p1, p2, p3⟩ := push_eq d.firstByte { d with sp := 0 }
      (show (0 : BitVec 13).toNat < 4096 by decide)
    rw [if_pos hk, p1, if_pos hk]
    exact ⟨_, _, rfl, by rw [p2]; simp, by rw [p3]; rfl⟩
  · rw [if_neg hk, if_neg hk]
    exact ⟨d.stack, 0, rfl, by decide, rfl⟩

/-- DEC_EXPAND (44_decompressor R194), from a code that has an expansion. -/
theorem expandDec_spec (t : Dict) (kind : CodeKind) (x : Code) (d : Dec) (bs out : List Byte)
    (hx : expansionRev t (4096 - t.base) x.toNat = some bs)
    (ho : out = (if kind = .self then [d.firstByte] else []) ++ bs) :
    (out.length ≤ 4096 →
      ∃ d', expandDec t kind x d = d'
        ∧ d' = { d with stack := d'.stack, sp := d'.sp, firstByte := d'.firstByte }
        ∧ stackBytes d' = out ∧ some d'.firstByte = bs.getLast?)
    ∧ (4096 < out.length →
      ∃ d', expandDec t kind x d = d'
        ∧ d' = { d with stack := d'.stack, sp := 4096, state := .error }
        ∧ stackBytes d' = out.take 4096) := by
  have hx' : expansionRev t (4096 - t.base) (x.setWidth 16 : BitVec 16).toNat = some bs := by
    rw [BitVec.toNat_setWidth, Nat.mod_eq_of_lt (by have := x.isLt; omega)]; exact hx
  obtain ⟨st, sp0, h1, h2, h3⟩ := expandStart_spec kind d
  obtain ⟨e1, e2⟩ := expandFrom_spec t (4096 - t.base) (x.setWidth 16)
    { d with stack := st, sp := sp0 } bs hx' (show sp0.toNat ≤ 4096 by omega)
  rw [h3, ← ho] at e1 e2
  have hl := congrArg List.length h3
  rw [length_stackBytes] at hl
  have hlen : sp0.toNat + bs.length = out.length := by rw [ho, List.length_append, ← hl]
  dsimp only at e1 e2
  rw [hlen] at e1 e2
  have hun : expandDec t kind x d
      = if (expandFrom t (4096 - t.base) (x.setWidth 16) { d with stack := st, sp := sp0 }).2 then
          (expandFrom t (4096 - t.base) (x.setWidth 16) { d with stack := st, sp := sp0 }).1
        else { (expandFrom t (4096 - t.base) (x.setWidth 16) { d with stack := st, sp := sp0 }).1 with
          state := .error } := by
    unfold expandDec
    rw [h1]
    rfl
  constructor
  · intro h
    obtain ⟨d', j1, j2, j3, j4⟩ := e1 h
    refine ⟨d', ?_, j2, j3, j4⟩
    rw [hun, j1]
    rfl
  · intro h
    obtain ⟨d', j1, j2, j3⟩ := e2 h
    refine ⟨{ d' with state := .error }, ?_, ?_, j3⟩
    · rw [hun, j1]
      rfl
    · rw [j2]

/-! ### Moving the stack to DST -/

/-- The loop of DEC_POP: the top `k` bytes of the stack go to DST, the top first. -/
theorem popBytes_spec (k : Nat) (s : State) (hk : k ≤ s.dec.sp.toNat)
    (hr : s.dec.outIndex.toNat + k ≤ s.par.dstCap) (ho : s.dec.outIndex.toNat + k < 2 ^ 32) :
    ∃ m : List Host.Cell,
      popBytes k s = .ok ((s.setDst m).setDec { s.dec with
          sp := BitVec.ofNat 13 (s.dec.sp.toNat - k)
          outIndex := BitVec.ofNat 32 (s.dec.outIndex.toNat + k) })
      ∧ (∀ a, Memory.read m a
          = if s.dec.outIndex.toNat ≤ a ∧ a < s.dec.outIndex.toNat + k then
              Table.get 0 s.dec.stack (s.dec.sp.toNat - 1 - (a - s.dec.outIndex.toNat))
            else dstByte s a)
      ∧ (Memory.wf s.dst = true → Memory.wf m = true) := by
  induction k generalizing s with
  | zero =>
    refine ⟨s.dst, ?_, ?_, id⟩
    · simp only [popBytes, Nat.sub_zero, Nat.add_zero, BitVec.ofNat_toNat, BitVec.setWidth_eq]
      rfl
    · intro a
      rw [if_neg (by omega)]
      rfl
  | succ k ih =>
    have e1 : (s.dec.sp - 1).toNat = s.dec.sp.toNat - 1 := by
      rw [BitVec.toNat_sub]
      have := s.dec.sp.isLt
      have h1 : (1 : BitVec 13).toNat = 1 := rfl
      omega
    have e2 : (s.dec.outIndex + 1).toNat = s.dec.outIndex.toNat + 1 := by
      rw [BitVec.toNat_add]
      have h1 : (1 : Word32).toNat = 1 := rfl
      omega
    have e0 : popBytes (k + 1) s = popBytes k ((s.setDst (Memory.write s.dst s.dec.outIndex.toNat
        (Table.get 0 s.dec.stack (s.dec.sp - 1).toNat))).setDec
          { s.dec with sp := s.dec.sp - 1, outIndex := s.dec.outIndex + 1 }) := by
      rw [popBytes]
      dsimp only [State.setDec_dec]
      rw [writeDst_eq (show s.dec.outIndex.toNat < (s.setDec { s.dec with sp := s.dec.sp - 1 }).par.dstCap by
        simp only [State.setDec_par]; omega), Res.ok_bind]
      rfl
    rw [e0]
    obtain ⟨m, m1, m2, m3⟩ := ih ((s.setDst (Memory.write s.dst s.dec.outIndex.toNat
        (Table.get 0 s.dec.stack (s.dec.sp - 1).toNat))).setDec
          { s.dec with sp := s.dec.sp - 1, outIndex := s.dec.outIndex + 1 })
      (by show k ≤ (s.dec.sp - 1).toNat; omega)
      (by show (s.dec.outIndex + 1).toNat + k ≤ s.par.dstCap; omega)
      (by show (s.dec.outIndex + 1).toNat + k < 2 ^ 32; omega)
    refine ⟨m, ?_, ?_, fun h => m3 (Memory.wf_write h _ _)⟩
    · refine m1.trans ?_
      simp only [State.setDec_dec, e1, e2]
      have f1 : s.dec.sp.toNat - 1 - k = s.dec.sp.toNat - (k + 1) := by omega
      have f2 : s.dec.outIndex.toNat + 1 + k = s.dec.outIndex.toNat + (k + 1) := by omega
      rw [f1, f2]
      rfl
    · intro a
      rw [m2 a]
      simp only [State.setDec_dec, e1, e2, dstByte, State.setDec_dst, State.setDst_dst, Memory.read_write]
      by_cases ha : s.dec.outIndex.toNat = a
      · rw [if_neg (by omega), if_pos ha, if_pos (by omega)]
        congr 1
        omega
      · rw [if_neg ha]
        by_cases hb : s.dec.outIndex.toNat + 1 ≤ a ∧ a < s.dec.outIndex.toNat + 1 + k
        · rw [if_pos hb, if_pos (by omega)]
          congr 1
          omega
        · rw [if_neg hb, if_neg (by omega)]

end Sys2Proof.Machine
end

