-- ==== Sys2Proof/Laws/DecompressRun.lean ====
section
/-! SUPPORT. What one unit step of DECOMPRESS does from any state of its loop, on any container
(44_decompressor R199), and that the loop ends within its bound (R200). -/

namespace Sys2Proof.Machine

open Sys2Proof Sys2Proof.Safety

/-- What an expansion may change of the decompressor's registers. -/
def ExpandShape (d d' : Dec) : Prop :=
  d' = { d with state := d'.state, stack := d'.stack, sp := d'.sp, firstByte := d'.firstByte }

theorem push_shape {v : Byte} {d d' : Dec} (h : push v d = some d') :
    ExpandShape d d' ∧ d'.state = d.state := by
  unfold push at h
  split at h
  · cases h
  · cases h; exact ⟨rfl, rfl⟩

theorem expandFrom_shape (t : Dict) (fuel : Nat) (x : BitVec 16) (d : Dec) :
    ExpandShape d (expandFrom t fuel x d).1 ∧ (expandFrom t fuel x d).1.state = d.state := by
  have lit : ∀ d : Dec, ExpandShape d (match push (x.setWidth 8) d with
      | none => (d, false)
      | some d' => ({ d' with firstByte := x.setWidth 8 }, true)).1
        ∧ (match push (x.setWidth 8) d with
      | none => (d, false)
      | some d' => ({ d' with firstByte := x.setWidth 8 }, true)).1.state = d.state := by
    intro d
    cases hp : push (x.setWidth 8) d with
    | none => exact ⟨rfl, rfl⟩
    | some d' =>
      obtain ⟨h1, h2⟩ := push_shape hp
      refine ⟨?_, h2⟩
      show ({ d' with firstByte := x.setWidth 8 } : Dec) = _
      unfold ExpandShape at h1
      rw [h1]
  induction fuel generalizing x d with
  | zero => unfold expandFrom; exact lit d
  | succ fuel ih =>
    unfold expandFrom
    split
    · exact lit d
    · cases hp : push (t.trailingAt x.toNat) d with
      | none => exact ⟨rfl, rfl⟩
      | some d' =>
        obtain ⟨h1, h2⟩ := push_shape hp
        have lit' : ∀ d : Dec, ExpandShape d (match push ((t.pfxAt x.toNat).setWidth 8) d with
          | none => (d, false)
          | some d' => ({ d' with firstByte := (t.pfxAt x.toNat).setWidth 8 }, true)).1
            ∧ (match push ((t.pfxAt x.toNat).setWidth 8) d with
          | none => (d, false)
          | some d' => ({ d' with firstByte := (t.pfxAt x.toNat).setWidth 8 }, true)).1.state = d.state := by
          intro d
          cases hp : push ((t.pfxAt x.toNat).setWidth 8) d with
          | none => exact ⟨rfl, rfl⟩
          | some d' =>
            obtain ⟨h1, h2⟩ := push_shape hp
            refine ⟨?_, h2⟩
            show ({ d' with firstByte := (t.pfxAt x.toNat).setWidth 8 } : Dec) = _
            unfold ExpandShape at h1
            rw [h1]
        obtain ⟨h3, h4⟩ := ih (t.pfxAt x.toNat) d' lit'
        refine ⟨?_, h4.trans h2⟩
        unfold ExpandShape at *
        dsimp only
        rw [h3, h1]

theorem expandDec_shape (t : Dict) (kind : CodeKind) (x : Code) (d : Dec) :
    ExpandShape d (expandDec t kind x d)
      ∧ ((expandDec t kind x d).state = d.state ∨ (expandDec t kind x d).state = .error) := by
  obtain ⟨st, sp0, h1, _, _⟩ := expandStart_spec kind d
  unfold expandDec
  rw [h1]
  dsimp only
  obtain ⟨h2, h3⟩ := expandFrom_shape t (Config.dictCapacity - t.base) (x.setWidth 16)
    { d with stack := st, sp := sp0 }
  unfold ExpandShape at *
  split
  · refine ⟨?_, .inl h3⟩
    rw [h2]
  · refine ⟨?_, .inr rfl⟩
    rw [h2]

/-- The four ways in which a code in AWAIT_NEXT_CODE ends (44_decompressor R199). -/
theorem decNextCode_cases {s a b c : State} (ha : decClassify s = a) (hb : decExpand a = b)
    (hc : roomCheck b = c) :
    (a.dec.state = .error → decNextCode s = a)
      ∧ (a.dec.state ≠ .error → b.dec.state = .error → decNextCode s = b)
      ∧ (a.dec.state ≠ .error → b.dec.state ≠ .error → c.dec.state = .error → decNextCode s = c)
      ∧ (a.dec.state ≠ .error → b.dec.state ≠ .error → c.dec.state ≠ .error →
          decNextCode s = decInsert c) := by
  subst ha hb hc
  unfold decNextCode
  refine ⟨fun h1 => ?_, fun h1 h2 => ?_, fun h1 h2 h3 => ?_, fun h1 h2 h3 => ?_⟩
  · simp only [h1, if_true]
  · simp only [if_neg h1, h2, if_true]
  · simp only [if_neg h1, if_neg h2, h3, if_true]
  · simp only [if_neg h1, if_neg h2, if_neg h3]

/-- DEC_CLASSIFY writes the latches, and `dec_state` when it finds no code. -/
theorem decClassify_shape (s : State) :
    ∃ p st, decClassify s = (s.setDec { s.dec with state := st }).setPorts p
      ∧ (st = s.dec.state ∨ st = .error) := by
  unfold decClassify
  split
  · exact ⟨_, s.dec.state, rfl, .inl rfl⟩
  · exact ⟨_, _, rfl, .inr rfl⟩
  · exact ⟨_, s.dec.state, rfl, .inl rfl⟩

/-- What follows a code in AWAIT_NEXT_CODE changes DICT_D, the decompressor and the latches, and ends in
ERROR or with an expansion on the stack that fits. -/
theorem decNextCode_shape (s : State) :
    ∃ u, decNextCode s = u ∧ u = { s with dictD := u.dictD, dec := u.dec, ports := u.ports }
      ∧ u.dec = { s.dec with
          state := u.dec.state, stack := u.dec.stack, sp := u.dec.sp, firstByte := u.dec.firstByte
          prevCode := u.dec.prevCode }
      ∧ (u.dictD = s.dictD ∨ ∃ P B, u.dictD = (dictInsert P B s.dictD).2)
      ∧ (u.dec.state = .error ∨ u.dec.state = .emitFromStack
          ∧ u.dec.outIndex.toNat + u.dec.sp.toNat ≤ u.dec.expSize.toNat) := by
  obtain ⟨p, st, c1, c2⟩ := decClassify_shape s
  generalize ha : decClassify s = a at c1
  generalize hb : decExpand a = b
  generalize hc : roomCheck b = c
  obtain ⟨n1, n2, n3, n4⟩ := decNextCode_cases ha hb hc
  have a1 : a.dec = { s.dec with state := st } := by rw [c1]; rfl
  have a2 : a = { s with dec := a.dec, ports := a.ports } := by rw [c1]; rfl
  by_cases e1 : a.dec.state = .error
  · refine ⟨a, n1 e1, ?_, ?_, .inl ?_, .inl e1⟩
    · rw [c1]; rfl
    · rw [a1]
    · rw [a2]
  · have hst : st = s.dec.state := by
      rcases c2 with h | h
      · exact h
      · rw [a1] at e1; exact absurd h e1
    obtain ⟨h1, h2⟩ := expandDec_shape a.dictD a.ports.kind a.ports.xcode a.dec
    have b0 : b = a.setDec (expandDec a.dictD a.ports.kind a.ports.xcode a.dec) := hb.symm
    generalize expandDec a.dictD a.ports.kind a.ports.xcode a.dec = e at h1 h2 b0
    unfold ExpandShape at h1
    have b1 : b.dec = e := by rw [b0]; rfl
    have b2 : b = { s with dec := b.dec, ports := b.ports } := by rw [b0, a2]; rfl
    have b3 : e = { s.dec with
          state := e.state, stack := e.stack, sp := e.sp, firstByte := e.firstByte } := by
      rw [a1] at h1
      exact h1
    by_cases e2 : b.dec.state = .error
    · refine ⟨b, n2 e1 e2, ?_, ?_, .inl ?_, .inl e2⟩
      · rw [b2]
      · rw [b1]
        conv => lhs; rw [b3]
        rw [b3]
      · rw [b2]
    · by_cases hr : b.dec.expSize.toNat < b.dec.outIndex.toNat + b.dec.sp.toNat
      · have c0 : c = b.setDec { b.dec with state := .error } := by
          rw [← hc]; unfold roomCheck; rw [if_pos hr]
        have e3 : c.dec.state = .error := by rw [c0]; rfl
        refine ⟨c, n3 e1 e2 e3, ?_, ?_, .inl ?_, .inl e3⟩
        · rw [c0, b2]; rfl
        · rw [c0]
          show ({ b.dec with state := DecState.error } : Dec) = _
          rw [b1, b3]
          rfl
        · rw [c0, b2]; rfl
      · have c0 : c = b := by rw [← hc]; unfold roomCheck; rw [if_neg hr]
        rw [c0] at n4
        refine ⟨decInsert b, n4 e1 e2 e2, ?_, ?_, .inr ⟨b.dec.prevCode, b.dec.firstByte, ?_⟩, .inr ⟨rfl, ?_⟩⟩
        · rw [b2]; rfl
        · have q : (decInsert b).dec = { e with prevCode := e.curCode, state := .emitFromStack } := by
            rw [← b1]; rfl
          rw [q, b3]
        · show (dictInsert b.dec.prevCode b.dec.firstByte b.dictD).2 = _
          rw [b2]
        · show b.dec.outIndex.toNat + b.dec.sp.toNat ≤ b.dec.expSize.toNat
          omega

/-! ### The loop -/

/-- DICT_READ_WIDTH of a table with legal registers is between 8 and 12. -/
theorem dictReadWidth_ge {d : Dict} (hb : minBitsLegal d.minBits) (h : dictRegs d) :
    8 ≤ dictReadWidth d := by
  unfold dictReadWidth
  split
  · omega
  · by_contra hc
    have h2 := (dictWidth_le_iff (d.nextFree.toNat + 1) 7).1 (by omega)
    have h3 := h.2.2.1
    have h4 := Dict.base_le_of_legal hb
    omega

/-- A state of the loop of DECOMPRESS that began at `s0`, on any container. -/
structure Decoding (s0 s : State) : Prop where
  frame : s = { s0 with dst := s.dst, dictD := s.dictD, dec := s.dec, acc := s.acc, ports := s.ports }
  bits : minBitsLegal s.dictD.minBits
  regs : dictRegs s.dictD
  budget : s.dec.budgetBits.toNat ≤ 8 * srcSize s0
  input : s.dec.inBit.toNat ≤ s.dec.budgetBits.toNat
  size : s.dec.expSize = s0.dec.expSize
  room : s.dec.expSize.toNat ≤ s0.par.dstCap
  output : s.dec.outIndex.toNat ≤ s.dec.expSize.toNat
  first : s.dec.state = .awaitFirstCode → s.dec.outIndex = 0
  stack : s.dec.state = .emitFromStack →
    s.dec.outIndex.toNat + s.dec.sp.toNat ≤ s.dec.expSize.toNat
  beyond : ∀ a, s.dec.expSize.toNat ≤ a → dstByte s a = dstByte s0 a

/-- A bound on the unit steps still to come (44_decompressor R200). -/
def stepsLeft (s : State) : Nat :=
  match s.dec.state with
  | .done => 0
  | .error => 0
  | .emitFromStack => 2 * ((s.dec.budgetBits.toNat - s.dec.inBit.toNat) / 8) + 2
  | .awaitFirstCode => 2 * ((s.dec.budgetBits.toNat - s.dec.inBit.toNat) / 8) + 1
  | .awaitNextCode => 2 * ((s.dec.budgetBits.toNat - s.dec.inBit.toNat) / 8) + 1

/-- DEC_READ in the loop: the end of decoding, or a code. -/
theorem Decoding.read {s0 s : State} (h : Decoding s0 s) :
    (decRead s = .ok (decReadEnd s) ∧ (s.dec.outIndex = s.dec.expSize
        ∨ s.dec.budgetBits.toNat - s.dec.inBit.toNat < dictReadWidth s.dictD))
      ∨ (s.dec.outIndex ≠ s.dec.expSize
        ∧ dictReadWidth s.dictD ≤ s.dec.budgetBits.toNat - s.dec.inBit.toNat
        ∧ ∃ c : Code, decRead s = .ok (((s.setAcc (c.setWidth 32)).setDec
            { s.dec with
              inBit := BitVec.ofNat 35 (s.dec.inBit.toNat + dictReadWidth s.dictD), curCode := c }).setPorts
            { s.ports with code := some c })
          ∧ (∀ j, j < 12 → c.getLsbD j = (decide (j < dictReadWidth s.dictD)
              && bufBit .src s (s.dec.inBit.toNat + j)))
          ∧ (BitVec.ofNat 35 (s.dec.inBit.toNat + dictReadWidth s.dictD)).toNat
              = s.dec.inBit.toNat + dictReadWidth s.dictD) := by
  have hsz : srcSize s = srcSize s0 := by rw [h.frame]; rfl
  have hb := h.budget
  have hi := h.input
  have hlt := s.dec.budgetBits.isLt
  by_cases h1 : s.dec.outIndex = s.dec.expSize
  · exact .inl ⟨by simp [decRead, h1], .inl h1⟩
  · by_cases h2 : s.dec.budgetBits.toNat - s.dec.inBit.toNat < dictReadWidth s.dictD
    · exact .inl ⟨by simp [decRead, h2], .inr h2⟩
    · right
      obtain ⟨c, e1, e2⟩ := decReadCode_eq (dictReadWidth s.dictD) s (dictReadWidth_le _)
        (fun j hj => by omega)
      refine ⟨h1, by omega, c, ?_, e2, ?_⟩
      · unfold decRead
        rw [if_neg h1]
        dsimp only
        rw [if_neg h2, e1]
      · rw [BitVec.toNat_ofNat, Nat.mod_eq_of_lt (by omega)]

/-- The end of decoding. -/
theorem Decoding.finish {s0 s : State} (h : Decoding s0 s) :
    Decoding s0 (decReadEnd s) ∧ (decReadEnd s).dec.state = .done := by
  refine ⟨{
    frame := ?_, bits := h.bits, regs := h.regs, budget := h.budget, input := h.input, size := h.size
    room := h.room, output := h.output, first := (fun x => by cases x)
    stack := (fun x => by cases x)
    beyond := h.beyond }, rfl⟩
  have := h.frame
  unfold decReadEnd
  rw [this]
  rfl

/-- One unit step of the loop keeps what it needs and comes nearer to its end. -/
theorem Decoding.step {s0 s : State} (h : Decoding s0 s) (hn : s.dec.stopped = false) :
    ∃ t, decUnitStep s = .ok t ∧ Decoding s0 t ∧ stepsLeft t < stepsLeft s := by
  have hw := dictReadWidth_ge h.bits h.regs
  have hpar : s.par = s0.par := by rw [h.frame]
  have hout := h.output
  have hroom := h.room
  have hin := h.input
  unfold decUnitStep
  cases hst : s.dec.state with
  | done => simp [Dec.stopped, hst] at hn
  | error => simp [Dec.stopped, hst] at hn
  | emitFromStack =>
    dsimp only
    have hs := h.stack hst
    obtain ⟨m, m1, m2, _⟩ := popBytes_spec s.dec.sp.toNat s (Nat.le_refl _) (by rw [hpar]; omega)
      (by have := s.dec.expSize.isLt; omega)
    have hidx : (BitVec.ofNat 32 (s.dec.outIndex.toNat + s.dec.sp.toNat)).toNat
        = s.dec.outIndex.toNat + s.dec.sp.toNat := by
      rw [BitVec.toNat_ofNat, Nat.mod_eq_of_lt]
      have := s.dec.expSize.isLt
      omega
    have hpop : decPop s = .ok (((s.setDst m).setDec { s.dec with
          sp := BitVec.ofNat 13 (s.dec.sp.toNat - s.dec.sp.toNat)
          outIndex := BitVec.ofNat 32 (s.dec.outIndex.toNat + s.dec.sp.toNat) }).setDec
          { s.dec with
            sp := BitVec.ofNat 13 (s.dec.sp.toNat - s.dec.sp.toNat)
            outIndex := BitVec.ofNat 32 (s.dec.outIndex.toNat + s.dec.sp.toNat)
            state := .awaitNextCode }) := by
      unfold decPop
      rw [m1, Res.ok_bind]
      rfl
    refine ⟨_, hpop, {
      frame := ?_, bits := h.bits, regs := h.regs, budget := h.budget, input := h.input, size := h.size
      room := h.room, output := ?_, first := (fun x => by cases x)
      stack := (fun x => by cases x)
      beyond := ?_ }, ?_⟩
    · have := h.frame
      rw [this]
      rfl
    · show (BitVec.ofNat 32 (s.dec.outIndex.toNat + s.dec.sp.toNat)).toNat ≤ s.dec.expSize.toNat
      omega
    · intro a ha
      have ha' : s.dec.expSize.toNat ≤ a := ha
      refine (m2 a).trans ?_
      rw [if_neg (by omega)]
      exact h.beyond a ha'
    · simp only [stepsLeft, hst]
      show 2 * ((s.dec.budgetBits.toNat - s.dec.inBit.toNat) / 8) + 1 < _
      omega
  | awaitFirstCode =>
    dsimp only
    have h0 := h.first hst
    rcases h.read with ⟨r, _⟩ | ⟨n1, n2, c, r, _, hib⟩
    · rw [r, Res.ok_bind]
      obtain ⟨f1, f2⟩ := h.finish
      refine ⟨decReadEnd s, by simp [decReadEnd], f1, ?_⟩
      simp only [stepsLeft, hst, f2]
      omega
    · rw [r, Res.ok_bind]
      generalize hu : ((s.setAcc (c.setWidth 32)).setDec
            { s.dec with
              inBit := BitVec.ofNat 35 (s.dec.inBit.toNat + dictReadWidth s.dictD), curCode := c }).setPorts
            { s.ports with code := some c } = u
      have u1 : u.dec = { s.dec with
              inBit := BitVec.ofNat 35 (s.dec.inBit.toNat + dictReadWidth s.dictD), curCode := c } := by
        rw [← hu]; rfl
      have u2 : u = { s with dec := u.dec, acc := u.acc, ports := u.ports } := by rw [← hu]; rfl
      have u3 : u.ports.code = some c := by rw [← hu]; rfl
      have u4 : u.dictD = s.dictD := by rw [u2]
      have u5 : u.dec.inBit.toNat = s.dec.inBit.toNat + dictReadWidth s.dictD := by rw [u1]; exact hib
      have u6 : u.dec.budgetBits = s.dec.budgetBits := by rw [u1]
      have u7 : u.dec.expSize = s.dec.expSize := by rw [u1]
      have u8 : u.dec.outIndex = 0 := by rw [u1]; exact h0
      have u9 : u.dec.curCode = c := by rw [u1]
      have hne : 0 < s.dec.expSize.toNat := by
        rw [h0] at n1
        have : s.dec.expSize.toNat ≠ 0 := fun hh => n1 (BitVec.eq_of_toNat_eq (by rw [hh]; rfl))
        omega
      rw [u3]
      simp only [Option.isSome_some, if_true]
      have hub : ∀ a, dstByte u a = dstByte s a := by intro a; rw [u2]; rfl
      have huf := h.frame
      unfold decFirst
      by_cases hc : u.dictD.base ≤ u.dec.curCode.toNat
      · rw [if_pos hc]
        refine ⟨_, rfl, {
          frame := ?_, bits := (by show minBitsLegal u.dictD.minBits; rw [u4]; exact h.bits)
          regs := by show dictRegs u.dictD; rw [u4]; exact h.regs
          budget := by show u.dec.budgetBits.toNat ≤ _; rw [u6]; exact h.budget
          input := by show u.dec.inBit.toNat ≤ u.dec.budgetBits.toNat; rw [u5, u6]; omega
          size := by show u.dec.expSize = _; rw [u7]; exact h.size
          room := by show u.dec.expSize.toNat ≤ _; rw [u7]; exact hroom
          output := by show u.dec.outIndex.toNat ≤ u.dec.expSize.toNat; rw [u8]; simp
          first := fun x => by cases x
          stack := fun x => by cases x
          beyond := fun a ha => by
            have ha' : u.dec.expSize.toNat ≤ a := ha
            rw [u7] at ha'
            exact (hub a).trans (h.beyond a ha') }, ?_⟩
        · rw [u2, huf]; rfl
        · simp only [stepsLeft, hst, State.setDec_dec]
          omega
      · rw [if_neg hc, writeDst_eq (by rw [u8]; have : u.par = s.par := by rw [u2]
                                       rw [this, hpar]; show 0 < _; omega), Res.ok_bind]
        refine ⟨_, rfl, {
          frame := ?_
          bits := (by show minBitsLegal u.dictD.minBits; rw [u4]; exact h.bits)
          regs := by show dictRegs u.dictD; rw [u4]; exact h.regs
          budget := by show u.dec.budgetBits.toNat ≤ _; rw [u6]; exact h.budget
          input := by show u.dec.inBit.toNat ≤ u.dec.budgetBits.toNat; rw [u5, u6]; omega
          size := by show u.dec.expSize = _; rw [u7]; exact h.size
          room := by show u.dec.expSize.toNat ≤ _; rw [u7]; exact hroom
          output := by show 1 ≤ u.dec.expSize.toNat; rw [u7]; omega
          first := fun x => by cases x
          stack := fun x => by cases x
          beyond := fun a ha => by
            have ha' : u.dec.expSize.toNat ≤ a := ha
            rw [u7] at ha'
            show Memory.read (Memory.write u.dst u.dec.outIndex.toNat _) a = _
            rw [Memory.read_write, if_neg (by rw [u8]; show ¬ 0 = a; omega)]
            exact (hub a).trans (h.beyond a ha') }, ?_⟩
        · rw [u2, huf]; rfl
        · simp only [stepsLeft, hst]
          show 2 * ((u.dec.budgetBits.toNat - u.dec.inBit.toNat) / 8) + 1 < _
          rw [u5, u6]
          omega
  | awaitNextCode =>
    dsimp only
    rcases h.read with ⟨r, _⟩ | ⟨n1, n2, c, r, _, hib⟩
    · rw [r, Res.ok_bind]
      obtain ⟨f1, f2⟩ := h.finish
      refine ⟨decReadEnd s, by simp [decReadEnd], f1, ?_⟩
      simp only [stepsLeft, hst, f2]
      omega
    · rw [r, Res.ok_bind]
      generalize hu : ((s.setAcc (c.setWidth 32)).setDec
            { s.dec with
              inBit := BitVec.ofNat 35 (s.dec.inBit.toNat + dictReadWidth s.dictD), curCode := c }).setPorts
            { s.ports with code := some c } = u
      have u1 : u.dec = { s.dec with
              inBit := BitVec.ofNat 35 (s.dec.inBit.toNat + dictReadWidth s.dictD), curCode := c } := by
        rw [← hu]; rfl
      have u2 : u = { s with dec := u.dec, acc := u.acc, ports := u.ports } := by rw [← hu]; rfl
      have u3 : u.ports.code = some c := by rw [← hu]; rfl
      have u4 : u.dictD = s.dictD := by rw [u2]
      have u5 : u.dec.inBit.toNat = s.dec.inBit.toNat + dictReadWidth s.dictD := by rw [u1]; exact hib
      have u6 : u.dec.budgetBits = s.dec.budgetBits := by rw [u1]
      have u7 : u.dec.expSize = s.dec.expSize := by rw [u1]
      have u8 : u.dec.outIndex = s.dec.outIndex := by rw [u1]
      rw [u3]
      simp only [Option.isSome_some, if_true]
      obtain ⟨v, v0, v1, v2, v3, v4⟩ := decNextCode_shape u
      have hub : ∀ a, dstByte v a = dstByte s a := by intro a; rw [v1, u2]; rfl
      have w5 : v.dec.inBit = u.dec.inBit := by rw [v2]
      have w6 : v.dec.budgetBits = u.dec.budgetBits := by rw [v2]
      have w7 : v.dec.expSize = u.dec.expSize := by rw [v2]
      have w8 : v.dec.outIndex = u.dec.outIndex := by rw [v2]
      have hd : minBitsLegal v.dictD.minBits ∧ dictRegs v.dictD := by
        rcases v3 with v3 | ⟨P, B, v3⟩
        · rw [v3, u4]; exact ⟨h.bits, h.regs⟩
        · rw [v3, u4, dictInsert_minBits]; exact ⟨h.bits, (dictRegs_dictInsert h.regs P B).1⟩
      refine ⟨v, by rw [v0], {
        frame := ?_, bits := hd.1, regs := hd.2
        budget := by rw [w6, u6]; exact h.budget
        input := by rw [w5, w6, u5, u6]; omega
        size := by rw [w7, u7]; exact h.size
        room := by rw [w7, u7]; exact hroom
        output := by rw [w7, w8, u7, u8]; exact hout
        first := fun x => by rcases v4 with v4 | v4 <;> simp [v4] at x
        stack := fun x => by
          rcases v4 with v4 | v4
          · rw [v4] at x; cases x
          · exact v4.2
        beyond := fun a ha => by
          rw [w7, u7] at ha
          exact (hub a).trans (h.beyond a ha) }, ?_⟩
      · rw [v1, u2, h.frame]
      · rcases v4 with v4 | v4
        · simp only [stepsLeft, hst, v4]
          omega
        · simp only [stepsLeft, hst, v4.1]
          rw [w5, w6, u5, u6]
          omega

/-- The loop of DECOMPRESS ends. -/
theorem Decoding.loop {s0 s : State} {fuel : Nat} (h : Decoding s0 s) (hf : stepsLeft s ≤ fuel) :
    ∃ t, decLoop fuel s = .ok t ∧ Decoding s0 t ∧ t.dec.stopped = true := by
  induction fuel generalizing s with
  | zero =>
    have : s.dec.stopped = true := by
      unfold Dec.stopped
      unfold stepsLeft at hf
      cases hst : s.dec.state <;> rw [hst] at hf <;> first | rfl | (simp at hf)
    exact ⟨s, by simp [decLoop, this], h, this⟩
  | succ fuel ih =>
    cases hn : s.dec.stopped with
    | true => exact ⟨s, by simp [decLoop, hn], h, hn⟩
    | false =>
      obtain ⟨t, t1, t2, t3⟩ := h.step hn
      obtain ⟨u, u1, u2, u3⟩ := ih t2 (by omega)
      refine ⟨u, ?_, u2, u3⟩
      unfold decLoop
      rw [hn]
      simp only [Bool.false_eq_true, if_false]
      rw [t1, Res.ok_bind, u1]

end Sys2Proof.Machine
end

