-- ==== Sys2Proof/Laws/Frame.lean ====
section
/-! SUPPORT. What every operation leaves alone and what it keeps: the host's state, the canonical form of
the tables and memories, and the legality of the dictionaries' registers. One lemma for each operation. -/

namespace Sys2Proof.Machine

open Sys2Proof Sys2Proof.Safety

/-! ### Tables within their bounds -/

theorem below_iff {α : Type} (n : Nat) (m : List (Nat × α)) : below n m = true ↔ ∀ c ∈ m, c.1 < n := by
  unfold below
  simp

theorem fits_iff {α : Type} [DecidableEq α] (d : α) (n : Nat) (m : List (Nat × α)) :
    fits d n m = true ↔ Table.wf d m = true ∧ ∀ c ∈ m, c.1 < n := by
  unfold fits
  rw [Bool.and_eq_true, below_iff]

/-- A write inside the bounds keeps the canonical form and the bounds. -/
theorem fits_put {α : Type} [DecidableEq α] {d : α} {n : Nat} {m : List (Nat × α)}
    (h : fits d n m = true) {i : Nat} (hi : i < n) (v : α) : fits d n (Table.put d m i v) = true := by
  rw [fits_iff] at h ⊢
  refine ⟨Table.wf_put h.1 i v, fun c hc => ?_⟩
  have he : ∀ c ∈ Table.erase m i, c.1 < n := by
    intro c hc
    rw [Table.erase_eq_filter] at hc
    exact h.2 c (List.mem_of_mem_filter hc)
  unfold Table.put at hc
  split at hc
  · exact he c hc
  · rcases (Table.mem_insert i v _ c).1 hc with rfl | hc
    · exact hi
    · exact he c hc

/-- An entry that reads as anything else than the rest is listed, so it is inside the bounds. -/
theorem lt_of_get_ne {α : Type} {d : α} {n : Nat} {m : List (Nat × α)} (h : ∀ c ∈ m, c.1 < n) {i : Nat}
    (hi : Table.get d m i ≠ d) : i < n := by
  induction m with
  | nil => exact absurd rfl hi
  | cons c m ih =>
    unfold Table.get at hi
    split at hi
    · rename_i he
      have := h c List.mem_cons_self
      rwa [he] at this
    · exact ih (fun x hx => h x (List.mem_cons_of_mem _ hx)) hi

/-- A memory is in canonical form within its capacity. -/
abbrev memFits (cap : Nat) (m : List Host.Cell) : Prop := fits Memory.unlisted cap m = true

theorem memFits_write {cap : Nat} {m : List Host.Cell} (h : memFits cap m) {a : Nat} (ha : a < cap) (b : Byte) :
    memFits cap (Memory.write m a b) := fits_put h ha b

theorem memFits_fill {cap : Nat} (b : Byte) (k a : Nat) {m : List Host.Cell} (h : memFits cap m)
    (ha : a + k ≤ cap) : memFits cap (Memory.fill b k a m) := by
  induction k generalizing a m with
  | zero => exact h
  | succ k ih => exact ih (a + 1) (memFits_write h (by omega) b) (by omega)

theorem memFits_writeList {cap : Nat} (bs : List Byte) (a : Nat) {m : List Host.Cell} (h : memFits cap m)
    (ha : a + bs.length ≤ cap) : memFits cap (Memory.writeList bs a m) := by
  induction bs generalizing a m with
  | nil => exact h
  | cons b bs ih =>
    rw [List.length_cons] at ha
    exact ih (a + 1) (memFits_write h (by omega) b) (by omega)

theorem memFits_writeFree {cap : Nat} (k a i : Nat) {m : List Host.Cell} (h : memFits cap m)
    (ha : a + k ≤ cap) : memFits cap (Memory.writeFree k a i m) := by
  induction k generalizing a i m with
  | zero => exact h
  | succ k ih => exact ih (a + 1) (i + 1) (memFits_write h (by omega) _) (by omega)

/-! ### Dictionaries -/

/-- The four arrays of a dictionary are in canonical form. -/
def Dict.wf (d : Dict) : Prop :=
  fits 0 4096 d.pfx = true ∧ fits 0 4096 d.trailing = true
    ∧ fits none 4096 d.link = true ∧ fits none 4096 d.head = true

theorem dictCanonical_iff (d : Dict) : dictCanonical d = true ↔ d.wf := by
  unfold dictCanonical Dict.wf
  simp only [Bool.and_eq_true, and_assoc]

theorem Dict.wf_dictInit {d : Dict} (h : d.wf) (mb : BitVec 4) : (dictInit mb d).wf :=
  ⟨h.1, h.2.1, h.2.2.1, rfl⟩

theorem Dict.wf_placeEntry {d : Dict} (h : d.wf) (s P : Code) (B : Byte) : (placeEntry s P B d).wf :=
  ⟨fits_put h.1 s.isLt _, fits_put h.2.1 s.isLt _, fits_put h.2.2.1 s.isLt _,
    fits_put h.2.2.2 P.isLt (some s)⟩

theorem Dict.wf_unlinkFrom {d : Dict} (h : d.wf) (s : Code) (fuel : Nat) (e : Option Code) :
    (unlinkFrom s fuel e d).wf := by
  induction fuel generalizing e with
  | zero => exact h
  | succ fuel ih =>
    cases e with
    | none => exact h
    | some e =>
      simp only [unlinkFrom]
      split
      · exact ⟨h.1, h.2.1, fits_put h.2.2.1 e.isLt _, h.2.2.2⟩
      · exact ih _

theorem Dict.wf_dictUnlink {d : Dict} (h : d.wf) (s : Code) : (dictUnlink s d).wf := by
  unfold dictUnlink
  dsimp only
  split
  · rename_i hh
    have hlt : (d.pfxAt s.toNat).toNat < 4096 :=
      lt_of_get_ne ((fits_iff _ _ _).1 h.2.2.2).2 (d := none) (by
        show d.headAt _ ≠ none
        rw [hh]
        simp)
    exact ⟨h.1, h.2.1, h.2.2.1, fits_put h.2.2.2 hlt _⟩
  · exact Dict.wf_unlinkFrom h _ _ _

theorem Dict.wf_grow {d : Dict} (h : d.wf) : (grow d).wf := by
  rw [grow_eq]
  exact h

theorem Dict.wf_dictInsert {d : Dict} (h : d.wf) (P : Code) (B : Byte) : (dictInsert P B d).2.wf := by
  cases hf : d.full with
  | false => rw [dictInsert_growth hf]; exact Dict.wf_grow (Dict.wf_placeEntry h _ _ _)
  | true =>
    cases hs : dictNextSlot d P with
    | none => rw [(dictInsert_recycling hf P B).1 hs]; exact h
    | some c =>
      rw [(dictInsert_recycling hf P B).2 c hs]
      exact Dict.wf_placeEntry (d := evict c d) (Dict.wf_dictUnlink h c) _ _ _

theorem canonical_iff (s : State) :
    canonical s = true ↔ memFits s.par.srcCap s.src ∧ memFits s.par.dstCap s.dst ∧ s.dictC.wf ∧ s.dictD.wf
      ∧ fits 0 4096 s.dec.stack = true := by
  unfold canonical
  simp only [Bool.and_eq_true, dictCanonical_iff, and_assoc]

/-- The registers of a dictionary are legal once MIN_BITS is. -/
def Dict.legal (d : Dict) : Prop := minBitsLegal d.minBits → dictRegs d

theorem Dict.legal_dictInsert {d : Dict} (h : d.legal) (P : Code) (B : Byte) :
    (dictInsert P B d).2.legal := by
  intro hl
  have hm : (dictInsert P B d).2.minBits = d.minBits := dictInsert_minBits P B d
  rw [hm] at hl
  exact (dictRegs_dictInsert (h hl) P B).1

theorem Dict.legal_dictUnlink {d : Dict} (h : d.legal) (s : Code) : (dictUnlink s d).legal := by
  rw [dictUnlink_eq]
  exact h

theorem widthsLegal_iff (s : State) :
    widthsLegal s ↔ minBitsLegal s.ports.minBits ∧ s.dictC.legal ∧ s.dictD.legal := Iff.rfl

/-! ### The frame of an internal operation -/

/-- What an operation of a unit does at most: it leaves the host's state alone, and keeps the canonical
form and the legality of the dictionaries. -/
structure Kept (s t : State) : Prop where
  /-- only the units' own state, DST, `acc` and the latches change -/
  frame : t = { s with
    dst := t.dst, dictC := t.dictC, dictD := t.dictD, comp := t.comp, dec := t.dec, hdr := t.hdr
    acc := t.acc, ports := t.ports }
  /-- the canonical form stays -/
  canon : canonical s = true → canonical t = true
  /-- the dictionaries' registers stay legal -/
  widths : widthsLegal s → widthsLegal t

theorem Kept.refl (s : State) : Kept s s := ⟨rfl, id, id⟩

theorem Kept.trans {s t u : State} (h : Kept s t) (h' : Kept t u) : Kept s u := by
  refine ⟨?_, fun x => h'.canon (h.canon x), fun x => h'.widths (h.widths x)⟩
  have e := h'.frame
  rw [h.frame] at e
  exact e

theorem Kept.setDst {s : State} {m : List Host.Cell} (h : memFits s.par.dstCap s.dst → memFits s.par.dstCap m) :
    Kept s (s.setDst m) := by
  refine ⟨rfl, ?_, id⟩
  simp only [canonical_iff]
  exact fun x => ⟨x.1, h x.2.1, x.2.2⟩

theorem Kept.setAcc (s : State) (v : Word32) : Kept s (s.setAcc v) := ⟨rfl, id, id⟩

theorem Kept.setComp (s : State) (v : Comp) : Kept s (s.setComp v) := ⟨rfl, id, id⟩

theorem Kept.setHdr (s : State) (v : Header) : Kept s (s.setHdr v) := ⟨rfl, id, id⟩

theorem Kept.setDec {s : State} {v : Dec}
    (h : fits 0 4096 s.dec.stack = true → fits 0 4096 v.stack = true) : Kept s (s.setDec v) := by
  refine ⟨rfl, ?_, id⟩
  simp only [canonical_iff]
  exact fun x => ⟨x.1, x.2.1, x.2.2.1, x.2.2.2.1, h x.2.2.2.2⟩

theorem Kept.setPorts {s : State} {v : Ports}
    (h : minBitsLegal s.ports.minBits → minBitsLegal v.minBits) : Kept s (s.setPorts v) :=
  ⟨rfl, id, fun x => ⟨h x.1, x.2⟩⟩

theorem Kept.setDictC {s : State} {d : Dict} (h : s.dictC.wf → d.wf)
    (h' : widthsLegal s → d.legal) : Kept s (s.setDictC d) := by
  refine ⟨rfl, ?_, fun x => ⟨x.1, h' x, x.2.2⟩⟩
  simp only [canonical_iff]
  exact fun x => ⟨x.1, x.2.1, h x.2.2.1, x.2.2.2⟩

theorem Kept.setDictD {s : State} {d : Dict} (h : s.dictD.wf → d.wf)
    (h' : widthsLegal s → d.legal) : Kept s (s.setDictD d) := by
  refine ⟨rfl, ?_, fun x => ⟨x.1, x.2.1, h' x⟩⟩
  simp only [canonical_iff]
  exact fun x => ⟨x.1, x.2.1, x.2.2.1, h x.2.2.2.1, x.2.2.2.2⟩

theorem Kept.setDict {s : State} {D : DictSel} {d : Dict} (h : (s.dict D).wf → d.wf)
    (h' : widthsLegal s → d.legal) : Kept s (s.setDict D d) := by
  cases D
  · exact Kept.setDictC h h'
  · exact Kept.setDictD h h'

theorem widthsLegal_dict {s : State} (h : widthsLegal s) (D : DictSel) : (s.dict D).legal := by
  cases D
  · exact h.2.1
  · exact h.2.2

/-! ### How an operation ends -/

/-- The engine has got stuck, after what an operation of a unit does at most (20_memory R71, R72). -/
def GotStuck (s t : State) : Prop := ∃ u r, Kept s u ∧ t = u.setStuck (some r)

/-- What an operation of a unit does at most, however it ends; `g` is the state in its answer. Only the loop of a
host command can run out of its bound. -/
structure Keeps {α : Type} (loop : Bool) (s : State) (g : α → State) (r : Res α) : Prop where
  /-- it answers -/
  ok : ∀ a, r = .ok a → Kept s (g a)
  /-- it gets the engine stuck -/
  stuck : ∀ t, r = .error (.stuck t) → GotStuck s t
  /-- it stops the model -/
  fault : ∀ f, r = .error (.fault f) → f = .srcReadOnly ∨ (f = .loopBound ∧ loop = true)

/-- The answer is a state. -/
abbrev KeepsState (loop : Bool) (s : State) (r : Res State) : Prop := Keeps loop s id r

/-- The answer has no state: the operation only reads. -/
abbrev KeepsRead {α : Type} (loop : Bool) (s : State) (r : Res α) : Prop := Keeps loop s (fun _ => s) r

section
variable {α β : Type} {loop : Bool} {s t : State}

theorem Keeps.of_ok {g : α → State} {a : α} (h : Kept s (g a)) : Keeps loop s g (.ok a) :=
  ⟨fun _ h' => by cases h'; exact h, fun _ h' => (by cases h'), fun _ h' => (by cases h')⟩

theorem Keeps.of_stuck {g : α → State} {r : Stuck} {u : State} (h : Kept s u) :
    Keeps loop s g (.error (stuckAt r u)) :=
  ⟨fun _ h' => (by cases h'), fun _ h' => by cases h'; exact ⟨u, r, h, rfl⟩, fun _ h' => (by cases h')⟩

theorem Keeps.of_fault {g : α → State} {f : Fault} (h : f = .srcReadOnly ∨ (f = .loopBound ∧ loop = true)) :
    Keeps loop s g (.error (.fault f)) :=
  ⟨fun _ h' => (by cases h'), fun _ h' => (by cases h'), fun _ h' => by cases h'; exact h⟩

theorem KeepsState.kept {r : Res State} (h : KeepsState loop s r) (e : r = .ok t) : Kept s t := h.ok t e

/-- The operation after a change that is kept. -/
theorem Keeps.after {g : α → State} {r : Res α} (h : Kept s t) (h' : Keeps loop t g r) : Keeps loop s g r :=
  ⟨fun a e => h.trans (h'.ok a e), fun v e => by
    obtain ⟨u, q, h1, h2⟩ := h'.stuck v e
    exact ⟨u, q, h.trans h1, h2⟩, h'.fault⟩

/-- Two operations, one after the other. -/
theorem Keeps.bind {g : α → State} {g' : β → State} {x : Res α} {f : α → Res β} (h : Keeps loop s g x)
    (h' : ∀ a, x = .ok a → Keeps loop (g a) g' (f a)) : Keeps loop s g' (x >>= f) := by
  refine ⟨fun b e => ?_, fun v e => ?_, fun q e => ?_⟩
  · obtain ⟨a, h1, h2⟩ := Res.bind_eq_ok.1 e
    exact (h.ok a h1).trans ((h' a h1).ok b h2)
  · rcases Res.bind_eq_stuck.1 e with h1 | ⟨a, h1, h2⟩
    · exact h.stuck v h1
    · exact (Keeps.after (h.ok a h1) (h' a h1)).stuck v h2
  · rcases Res.bind_eq_fault.1 e with h1 | ⟨a, h1, h2⟩
    · exact h.fault q h1
    · exact (h' a h1).fault q h2

/-- A choice between two operations. -/
theorem Keeps.ite {g : α → State} {c : Prop} [Decidable c] {x y : Res α} (h : c → Keeps loop s g x)
    (h' : ¬ c → Keeps loop s g y) : Keeps loop s g (if c then x else y) := by
  split
  · exact h ‹_›
  · exact h' ‹_›

/-! ### The operations -/

theorem Keeps.readSrc (a : Nat) : KeepsRead loop s (readSrc a s) :=
  .ite (fun _ => .of_ok (Kept.refl _)) (fun _ => .of_stuck (Kept.refl _))

theorem Keeps.writeDst (a : Nat) (b : Byte) : KeepsState loop s (writeDst a b s) :=
  .ite (fun h => .of_ok (Kept.setDst (fun x => memFits_write x h b))) (fun _ => .of_stuck (Kept.refl _))

theorem Keeps.readBuf (M : Buffer) (a : Nat) : KeepsRead loop s (readBuf M a s) := by
  cases M with
  | src => exact Keeps.readSrc a
  | dst => exact .ite (fun _ => .of_ok (Kept.refl _)) (fun _ => .of_stuck (Kept.refl _))
  | acc => exact .ite (fun _ => .of_ok (Kept.refl _)) (fun _ => .of_stuck (Kept.refl _))

theorem Keeps.writeBuf (M : Buffer) (a : Nat) (b : Byte) : KeepsState loop s (writeBuf M a b s) := by
  cases M with
  | src => exact .of_fault (.inl rfl)
  | dst => exact Keeps.writeDst a b
  | acc => exact .ite (fun _ => .of_ok (Kept.setAcc _ _)) (fun _ => .of_stuck (Kept.refl _))

theorem Keeps.getBit (M : Buffer) (n : Nat) : KeepsRead loop s (getBit M n s) :=
  (Keeps.readBuf M _).bind (fun _ _ => .of_ok (Kept.refl _))

theorem Keeps.setBit (M : Buffer) (n : Nat) : Keeps loop s Prod.snd (setBit M n s) :=
  (Keeps.readBuf M _).bind (fun _ _ => (Keeps.writeBuf M _ _).bind (fun _ _ => .of_ok (Kept.refl _)))

theorem Keeps.extractBits (M : Buffer) (o k i : Nat) : KeepsState loop s (extractBits M o k i s) := by
  induction k generalizing i s with
  | zero => exact .of_ok (Kept.refl _)
  | succ k ih =>
    exact (Keeps.getBit M _).bind (fun _ _ => .ite
      (fun _ => (Keeps.setBit .acc i).bind (fun _ _ => ih _)) (fun _ => ih _))

theorem Keeps.extractU32 (M : Buffer) (o n : Nat) : KeepsState loop s (extractU32 M o n s) :=
  .ite (fun _ => .after (Kept.setAcc s 0) (Keeps.extractBits M o n 0)) (fun _ => .of_stuck (Kept.refl _))

theorem Keeps.orBytes (M : Buffer) (b : Nat) (x : Word32) (n k : Nat) :
    KeepsState loop s (orBytes M b x n k s) := by
  induction n generalizing k s with
  | zero => exact .of_ok (Kept.refl _)
  | succ n ih =>
    exact (Keeps.readBuf M _).bind (fun _ _ => (Keeps.writeBuf M _ _).bind (fun _ _ => ih _))

theorem Keeps.orU32At (M : Buffer) (o : Nat) (p : Word32) : KeepsState loop s (orU32At M o p s) :=
  .ite (fun _ => Keeps.orBytes M _ _ 4 0) (fun _ => .of_stuck (Kept.refl _))

theorem Keeps.memReadSrc (n a : Nat) : KeepsRead loop s (memReadSrc n a s) := by
  induction n generalizing a with
  | zero => exact .of_ok (Kept.refl _)
  | succ n ih =>
    exact (Keeps.readSrc a).bind (fun _ _ => (ih _).bind (fun _ _ => .of_ok (Kept.refl _)))

theorem Keeps.memWriteDst (n a v : Nat) : KeepsState loop s (memWriteDst n a v s) := by
  induction n generalizing a v s with
  | zero => exact .of_ok (Kept.refl _)
  | succ n ih => exact (Keeps.writeDst a _).bind (fun _ _ => ih _ _)

theorem Keeps.copySrcToDst (n a d : Nat) : KeepsState loop s (copySrcToDst n a d s) := by
  induction n generalizing a d s with
  | zero => exact .of_ok (Kept.refl _)
  | succ n ih =>
    exact (Keeps.readSrc a).bind (fun _ _ => (Keeps.writeDst d _).bind (fun _ _ => ih _ _))

/-! ### The Compressor -/

theorem Keeps.scanHigh (k i : Nat) : KeepsRead loop s (scanHigh k i s) := by
  induction k generalizing i with
  | zero => exact .of_ok (Kept.refl _)
  | succ k ih =>
    exact (Keeps.readSrc i).bind (fun _ _ => (ih _).bind (fun _ _ => .of_ok (Kept.refl _)))

theorem Keeps.compPrescan : KeepsState loop s (compPrescan s) := by
  refine (Keeps.scanHigh _ _).bind (fun b _ => .of_ok (Kept.setPorts (fun _ => ?_)))
  cases b
  · exact .inl rfl
  · exact .inr rfl

theorem Keeps.zeroDst (n : Nat) : KeepsState loop s (zeroDst n s) :=
  .ite (fun h => .of_ok (Kept.setDst (fun x => memFits_fill _ _ _ x (by omega))))
    (fun _ => .of_stuck (Kept.setDst (fun x => memFits_fill _ _ _ x (by omega))))

theorem Keeps.compStart : KeepsState loop s (compStart s) := by
  refine (Keeps.zeroDst _).bind (fun u h => .of_ok ((Kept.setDictC ?_ ?_).trans (Kept.setComp _ _)))
  · have hu : u.dictC = s.dictC := by
      unfold Machine.zeroDst at h
      split at h
      · cases h; rfl
      · cases h
    show u.dictC.wf → _
    rw [hu]
    exact fun x => Dict.wf_dictInit x _
  · have hu : u.ports = s.ports := by
      unfold Machine.zeroDst at h
      split at h
      · cases h; rfl
      · cases h
    intro x _
    have := x.1
    show dictRegs _
    rw [show (id u).ports = s.ports from hu] at this
    exact dictRegs_dictInit this _

theorem Keeps.compStepFirst : KeepsState loop s (compStepFirst s) :=
  .ite (fun _ => .of_ok (Kept.setComp _ _))
    (fun _ => (Keeps.readSrc 0).bind (fun _ _ => .of_ok (Kept.setComp _ _)))

theorem Keeps.compEmit (c : Code) : Keeps loop s Prod.snd (compEmit c s) :=
  .ite (fun _ => .of_ok (Kept.refl _))
    (fun _ => (Keeps.orU32At .dst _ _).bind (fun _ _ => .of_ok (Kept.setComp _ _)))

theorem Kept.insertC {s : State} (P : Code) (B : Byte) :
    Kept s (s.setDictC (dictInsert P B s.dictC).2) :=
  Kept.setDictC (fun x => Dict.wf_dictInsert x _ _) (fun x => Dict.legal_dictInsert x.2.1 _ _)

theorem Kept.insertD {s : State} (P : Code) (B : Byte) :
    Kept s (s.setDictD (dictInsert P B s.dictD).2) :=
  Kept.setDictD (fun x => Dict.wf_dictInsert x _ _) (fun x => Dict.legal_dictInsert x.2.2 _ _)

theorem Keeps.compStep : KeepsState loop s (compStep s) := by
  refine (Keeps.readSrc _).bind (fun b _ => ?_)
  split
  · exact .of_ok (Kept.setComp _ _)
  · exact (Keeps.compEmit _).bind (fun _ _ => .ite
      (fun _ => .of_ok ((Kept.insertC _ _).trans (Kept.setComp _ _))) (fun _ => .of_ok (Kept.setComp _ _)))

theorem Keeps.compFinish : KeepsState loop s (compFinish s) :=
  (Keeps.compEmit _).bind (fun _ _ => .of_ok (Kept.setComp _ _))

theorem Keeps.compUnitStep : KeepsState loop s (compUnitStep s) :=
  .ite (fun _ => Keeps.compStep) (fun _ => Keeps.compFinish)

theorem Keeps.compLoop (fuel : Nat) : KeepsState true s (compLoop fuel s) := by
  induction fuel generalizing s with
  | zero => exact .ite (fun _ => .of_fault (.inr ⟨rfl, rfl⟩)) (fun _ => .of_ok (Kept.refl _))
  | succ fuel ih =>
    exact .ite (fun _ => Keeps.compUnitStep.bind (fun _ _ => ih)) (fun _ => .of_ok (Kept.refl _))

/-! ### The Decompressor -/

theorem minBitsOfTag_legal (t : Byte) : minBitsLegal (minBitsOfTag t) := by
  unfold minBitsOfTag
  split
  · exact .inl rfl
  · exact .inr rfl

theorem Kept.decStart (s : State) : Kept s (decStart s) :=
  (Kept.setDictD (fun x => Dict.wf_dictInit x _)
    (fun _ _ => dictRegs_dictInit (minBitsOfTag_legal _) _)).trans (Kept.setDec id)

theorem Kept.decReadEnd (s : State) : Kept s (decReadEnd s) :=
  (Kept.setDec (v := { s.dec with state := .done }) id).trans (Kept.setPorts id)

theorem Keeps.decReadCode (w : Nat) : KeepsState loop s (decReadCode w s) :=
  (Keeps.extractU32 .src _ _).bind (fun u _ => .of_ok ((Kept.setDec (v := { u.dec with
    inBit := BitVec.ofNat 35 (u.dec.inBit.toNat + w), curCode := u.acc.setWidth 12 }) id).trans
      (Kept.setPorts id)))

theorem Keeps.decRead : KeepsState loop s (decRead s) :=
  .ite (fun _ => .of_ok (Kept.decReadEnd _))
    (fun _ => .ite (fun _ => .of_ok (Kept.decReadEnd _)) (fun _ => Keeps.decReadCode _))

theorem Keeps.decFirst : KeepsState loop s (decFirst s) :=
  .ite (fun _ => .of_ok (Kept.setDec id))
    (fun _ => (Keeps.writeDst _ _).bind (fun _ _ => .of_ok (Kept.setDec id)))

theorem Kept.decClassify (s : State) : Kept s (decClassify s) := by
  unfold Machine.decClassify
  split
  · exact Kept.setPorts id
  · exact (Kept.setDec (v := { s.dec with state := .error }) id).trans (Kept.setPorts id)
  · exact Kept.setPorts id

/-- The stack is in canonical form, and its pointer within it. -/
def StackFits (d : Dec) : Prop := fits 0 4096 d.stack = true ∧ d.sp.toNat ≤ 4096

theorem push_fits {v : Byte} {d d' : Dec} (h : push v d = some d') (hw : StackFits d) : StackFits d' := by
  unfold push at h
  split at h
  · cases h
  · rename_i hn
    have hlt : d.sp.toNat < 4096 := by
      have h1 := hw.2
      have h2 : d.sp.toNat ≠ 4096 := hn
      omega
    cases h
    refine ⟨fits_put hw.1 hlt _, ?_⟩
    show (d.sp + 1).toNat ≤ 4096
    rw [BitVec.toNat_add]
    simp
    omega

theorem expandFrom_fits (t : Dict) (fuel : Nat) (x : BitVec 16) (d : Dec) (hw : StackFits d) :
    StackFits (expandFrom t fuel x d).1 := by
  induction fuel generalizing x d with
  | zero =>
    unfold expandFrom
    split
    · exact hw
    · rename_i d' h; exact push_fits (d' := d') h hw
  | succ fuel ih =>
    unfold expandFrom
    split
    · split
      · exact hw
      · rename_i d' h; exact push_fits (d' := d') h hw
    · split
      · exact hw
      · rename_i h; exact ih _ _ (push_fits h hw)

theorem expandDec_fits (t : Dict) (kind : CodeKind) (x : Code) (d : Dec)
    (hw : fits 0 4096 d.stack = true) : fits 0 4096 (expandDec t kind x d).stack = true := by
  have h0 : StackFits { d with sp := 0 } := ⟨hw, (show (0 : BitVec 13).toNat ≤ 4096 by decide)⟩
  unfold expandDec
  split
  · exact hw
  · rename_i d' h
    have hd : StackFits d' := by
      unfold expandStart at h
      split at h
      · exact push_fits h h0
      · cases h; exact h0
    dsimp only
    split
    · exact (expandFrom_fits _ _ _ _ hd).1
    · exact (expandFrom_fits _ _ _ _ hd).1

theorem Kept.decExpand (s : State) : Kept s (decExpand s) :=
  Kept.setDec (fun x => expandDec_fits _ _ _ _ x)

theorem Kept.roomCheck (s : State) : Kept s (roomCheck s) := by
  unfold Machine.roomCheck
  split
  · exact Kept.setDec id
  · exact Kept.refl _

theorem Kept.decInsert (s : State) : Kept s (decInsert s) :=
  (Kept.insertD _ _).trans (Kept.setDec id)

theorem Keeps.popBytes (k : Nat) : KeepsState loop s (popBytes k s) := by
  induction k generalizing s with
  | zero => exact .of_ok (Kept.refl _)
  | succ k ih =>
    refine .after (Kept.setDec (v := { s.dec with sp := s.dec.sp - 1 }) id)
      ((Keeps.writeDst _ _).bind (fun u _ => .after (Kept.setDec (v := { u.dec with
        outIndex := u.dec.outIndex + 1 }) id) ih))

theorem Keeps.decPop : KeepsState loop s (decPop s) :=
  (Keeps.popBytes _).bind (fun _ _ => .of_ok (Kept.setDec id))

theorem Kept.decEnd (s : State) : Kept s (decEnd s) := Kept.setPorts id

theorem Kept.decNextCode (s : State) : Kept s (decNextCode s) := by
  unfold Machine.decNextCode
  dsimp only
  refine (Kept.decClassify s).trans ?_
  generalize Machine.decClassify s = a
  have h1 : Kept a (if a.dec.state = .error then a else Machine.decExpand a) := by
    split
    · exact Kept.refl _
    · exact Kept.decExpand _
  refine h1.trans ?_
  generalize (if a.dec.state = .error then a else Machine.decExpand a) = b
  have h2 : Kept b (if b.dec.state = .error then b else Machine.roomCheck b) := by
    split
    · exact Kept.refl _
    · exact Kept.roomCheck _
  refine h2.trans ?_
  generalize (if b.dec.state = .error then b else Machine.roomCheck b) = c
  split
  · exact Kept.refl _
  · exact Kept.decInsert _

theorem Keeps.decUnitStep : KeepsState loop s (decUnitStep s) := by
  unfold Machine.decUnitStep
  split
  · exact Keeps.decRead.bind (fun _ _ => .ite (fun _ => Keeps.decFirst) (fun _ => .of_ok (Kept.refl _)))
  · exact Keeps.decRead.bind (fun _ _ => .ite (fun _ => .of_ok (Kept.decNextCode _))
      (fun _ => .of_ok (Kept.refl _)))
  · exact Keeps.decPop
  · exact .of_ok (Kept.refl _)
  · exact .of_ok (Kept.refl _)

theorem Keeps.decLoop (fuel : Nat) : KeepsState true s (decLoop fuel s) := by
  induction fuel generalizing s with
  | zero => exact .ite (fun _ => .of_ok (Kept.refl _)) (fun _ => .of_fault (.inr ⟨rfl, rfl⟩))
  | succ fuel ih =>
    exact .ite (fun _ => .of_ok (Kept.refl _)) (fun _ => Keeps.decUnitStep.bind (fun _ _ => ih))

/-! ### The Container -/

theorem Keeps.writeHeader (cs es : Nat) (b : Byte) : KeepsState loop s (writeHeader cs es b s) :=
  (Keeps.memWriteDst _ _ _).bind (fun _ _ => (Keeps.memWriteDst _ _ _).bind (fun _ _ =>
    (Keeps.memWriteDst _ _ _).bind (fun _ _ => (Keeps.memWriteDst _ _ _).bind (fun _ _ =>
      Keeps.memWriteDst _ _ _))))

theorem Keeps.contStored : KeepsState loop s (contStored s) :=
  (Keeps.writeHeader _ _ _).bind (fun _ _ => (Keeps.copySrcToDst _ _ _).bind (fun _ _ =>
    .of_ok (Kept.setPorts id)))

theorem Keeps.contParseHeader : KeepsState loop s (contParseHeader s) :=
  (Keeps.memReadSrc _ _).bind (fun _ _ => .after (Kept.setHdr _ _)
    ((Keeps.memReadSrc _ _).bind (fun _ _ => .after (Kept.setHdr _ _)
      ((Keeps.memReadSrc _ _).bind (fun _ _ => .after (Kept.setHdr _ _)
        ((Keeps.memReadSrc _ _).bind (fun _ _ => .after (Kept.setHdr _ _)
          ((Keeps.memReadSrc _ _).bind (fun _ _ => .of_ok (Kept.setHdr _ _))))))))))

theorem Keeps.contValidate : KeepsState loop s (contValidate s) :=
  .ite (fun _ => .of_ok (Kept.setPorts id)) (fun _ => .ite (fun _ => .of_ok (Kept.setPorts id))
    (fun _ => Keeps.contParseHeader.bind (fun _ _ => .of_ok (Kept.setPorts id))))

theorem Keeps.contStoredCopy : KeepsState loop s (contStoredCopy s) :=
  (Keeps.copySrcToDst _ _ _).bind (fun _ _ => .of_ok (Kept.setPorts id))

end

end Sys2Proof.Machine
end

