-- ==== Sys2Proof/Laws/DecompressEnd.lean ====
section
/-! SUPPORT. DECOMPRESS as a whole (45_container R247): what CONT_VALIDATE accepts, the state in which the
Decompressor starts, and how the command ends. -/

namespace Sys2Proof.Machine

open Sys2Proof Sys2Proof.Safety

/-- The header of the container in SRC. -/
def headerOf (s : State) : Header :=
  { cs := BitVec.ofNat 32 (word32At (srcByte s) 0)
    csHi := BitVec.ofNat 32 (word32At (srcByte s) 4)
    es := BitVec.ofNat 32 (word32At (srcByte s) 8)
    esHi := BitVec.ofNat 32 (word32At (srcByte s) 12)
    ctype := srcByte s 16 }

/-- A header that CONT_VALIDATE accepts (45_container R233). -/
structure Accepted (s : State) : Prop where
  cap : s.srcLen.toNat ≤ s.par.srcCap
  len : 17 ≤ s.srcLen.toNat
  tag : srcByte s 16 = 1 ∨ srcByte s 16 = 2 ∨ srcByte s 16 = 3
  ceiling : word32At (srcByte s) 8 < s.par.expandedSizeCeiling
  size : word32At (srcByte s) 0 = s.srcLen.toNat
  stored : srcByte s 16 = 1 → s.srcLen.toNat = word32At (srcByte s) 8 + 17
  room : word32At (srcByte s) 8 ≤ s.par.dstCap

/-- CONT_VALIDATE answers OK exactly on a header that it accepts, and changes the header registers and its
result only. -/
theorem contValidate_spec (s : State) :
    ∃ h r, contValidate s = .ok ((s.setHdr h).setPorts { s.ports with result := r })
      ∧ (r = .ok ↔ Accepted s) ∧ (r = .ok → h = headerOf s)
      ∧ (r = .ok ∨ r = .malformed ∨ r = .framing ∨ r = .resource) := by
  unfold contValidate
  by_cases h1 : s.par.srcCap < s.srcLen.toNat
  · rw [if_pos h1]
    exact ⟨s.hdr, .resource, rfl, ⟨fun x => (by cases x), fun x => absurd x.cap (by omega)⟩,
      fun x => (by cases x), by simp⟩
  · rw [if_neg h1]
    by_cases h2 : s.srcLen.toNat < 17
    · rw [if_pos (show s.srcLen.toNat < Config.headerSize from h2)]
      exact ⟨s.hdr, .framing, rfl, ⟨fun x => (by cases x), fun x => absurd x.len (by omega)⟩,
        fun x => (by cases x), by simp⟩
    · rw [if_neg (show ¬ s.srcLen.toNat < Config.headerSize from h2),
        contParseHeader_eq s (by unfold srcSize; omega), Res.ok_bind]
      refine ⟨headerOf s, headerVerdict s.srcLen.toNat (s.setHdr (headerOf s)), rfl, ?_, fun _ => rfl, ?_⟩
      · unfold headerVerdict
        simp only [State.setHdr_hdr, State.setHdr_par, Config.headerSize]
        have ecs : (headerOf s).cs.toNat = word32At (srcByte s) 0 := toNat_word32At _ _
        have ees : (headerOf s).es.toNat = word32At (srcByte s) 8 := toNat_word32At _ _
        have ety : (headerOf s).ctype = srcByte s 16 := rfl
        simp only [ecs, ees, ety]
        split
        · exact ⟨fun x => (by cases x), fun x => absurd x.tag ‹_›⟩
        · split
          · exact ⟨fun x => (by cases x), fun x => absurd x.ceiling (by omega)⟩
          · split
            · exact ⟨fun x => (by cases x), fun x => absurd x.size ‹_›⟩
            · split
              · rename_i hs
                refine ⟨fun x => (by cases x), fun x => ?_⟩
                have := x.stored hs.1
                have := x.size
                omega
              · split
                · exact ⟨fun x => (by cases x), fun x => absurd x.room (by omega)⟩
                · rename_i a1 a2 a3 a4 a5
                  refine ⟨fun _ => ?_, fun _ => rfl⟩
                  refine ⟨by omega, by omega, not_not.1 a1, by omega, not_not.1 a3, fun ht => ?_, by omega⟩
                  have hne : ¬ word32At (srcByte s) 0 - 17 ≠ word32At (srcByte s) 8 := fun x => a4 ⟨ht, x⟩
                  have := not_not.1 hne
                  have := not_not.1 a3
                  omega
      · unfold headerVerdict
        split
        · simp
        · split
          · simp
          · split
            · simp
            · split
              · simp
              · split <;> simp

/-- The state in which the loop of DECOMPRESS starts on an accepted coded container. -/
def decodeStart (s : State) : State :=
  decStart (((s.setSeq .dRun).setHdr (headerOf s)).setPorts { s.ports with result := .ok })

theorem decodeStart_decoding {s : State} (h : Accepted s) : Decoding (decodeStart s) (decodeStart s) := by
  have hes : (headerOf s).es.toNat = word32At (srcByte s) 8 := toNat_word32At _ _
  have hcs : (headerOf s).cs.toNat = word32At (srcByte s) 0 := toNat_word32At _ _
  have hlt := (headerOf s).cs.isLt
  have hb : (BitVec.ofNat 35 (8 * (headerOf s).cs.toNat)).toNat = 8 * (headerOf s).cs.toNat := by
    rw [BitVec.toNat_ofNat, Nat.mod_eq_of_lt (by omega)]
  have hcap := h.cap
  have hlen := h.len
  have hsize := h.size
  have hroom := h.room
  exact {
    frame := rfl
    bits := (minBitsOfTag_legal _)
    regs := dictRegs_dictInit ((minBitsOfTag_legal _)) _
    budget := by
      show (BitVec.ofNat 35 (8 * (headerOf s).cs.toNat)).toNat ≤ 8 * srcSize s
      rw [hb, hcs, hsize]
      unfold srcSize
      omega
    input := by
      show 136 ≤ (BitVec.ofNat 35 (8 * (headerOf s).cs.toNat)).toNat
      rw [hb, hcs, hsize]
      omega
    size := rfl
    room := by
      show (headerOf s).es.toNat ≤ s.par.dstCap
      omega
    output := Nat.zero_le _
    first := fun _ => rfl
    stack := fun x => (by cases x)
    beyond := fun _ _ => rfl }

/-- The end of a DECOMPRESS after its loop. -/
theorem decodeFinish_spec (s : State) :
    ∃ r, (r = .ok ∨ r = .framing) ∧ (r = .ok ↔ s.dec.state = .done ∧ s.dec.outIndex = s.dec.expSize)
      ∧ ended r (decodeFinish (decEnd s))
      ∧ decodeFinish (decEnd s) = { s with
          status := (decodeFinish (decEnd s)).status
          resultLen := if r = .ok then s.dec.expSize else 0
          seq := .idle, dst := (decodeFinish (decEnd s)).dst
          ports := { s.ports with result := r }, free := (decodeFinish (decEnd s)).free }
      ∧ (r = .ok → (decodeFinish (decEnd s)).dst = s.dst)
      ∧ (∀ a, s.dec.expSize.toNat ≤ a → dstByte (decodeFinish (decEnd s)) a = dstByte s a) := by
  by_cases h : s.dec.state = .done ∧ s.dec.outIndex = s.dec.expSize
  · have h1 : decEnd s = s.setPorts { s.ports with result := .ok } := by
      unfold decEnd decOutcome; rw [if_pos h]
    have h2 : decodeFinish (decEnd s) = cmdEnd .ok s.dec.expSize (s.setPorts { s.ports with result := .ok }) := by
      rw [h1]; rfl
    refine ⟨.ok, .inl rfl, ⟨fun _ => h, fun _ => rfl⟩, ?_, ?_, ?_, ?_⟩
    · rw [h2]; exact ended_cmdEnd _ _ _
    · rw [h2]; rfl
    · intro _; rw [h2]; rfl
    · intro a _; rw [h2]; rfl
  · have h1 : decEnd s = s.setPorts { s.ports with result := .framing } := by
      unfold decEnd decOutcome; rw [if_neg h]
    have h2 : decodeFinish (decEnd s)
        = cmdEnd .framing 0 (freeDst s.dec.expSize.toNat (s.setPorts { s.ports with result := .framing })) := by
      rw [h1]; rfl
    refine ⟨.framing, .inr rfl, ⟨fun x => by (cases x), fun x => absurd x h⟩, ?_, ?_, fun x => by (cases x), ?_⟩
    · rw [h2]; exact ended_cmdEnd _ _ _
    · rw [h2]; rfl
    · intro a ha
      rw [h2]
      show Memory.read (Memory.writeFree (min s.dec.expSize.toNat s.par.dstCap) 0 s.free s.dst) a = _
      rw [Memory.read_writeFree, if_neg (by omega)]
      rfl

/-- DECOMPRESS after CONT_VALIDATE. -/
theorem decompress_validated {s a : State} (h : contValidate (s.setSeq .dCheck) = .ok a) :
    (a.ports.result ≠ .ok → decompress s = .ok (raiseError a.ports.result a))
      ∧ (a.ports.result = .ok → a.hdr.ctype = 1 → decompress s = decompressStored a)
      ∧ (a.ports.result = .ok → a.hdr.ctype ≠ 1 → decompress s = decompressCoded a) := by
  unfold decompress
  rw [h, Res.ok_bind]
  refine ⟨fun h1 => by rw [if_pos h1], fun h1 h2 => ?_, fun h1 h2 => ?_⟩
  · rw [if_neg (by rw [h1]; simp), if_pos h2]
  · rw [if_neg (by rw [h1]; simp), if_neg h2]

/-- DECOMPRESS of a header that is refused. -/
theorem decompress_refused {s : State} (h : ¬ Accepted s) :
    ∃ h' r, (r = .malformed ∨ r = .framing ∨ r = .resource)
      ∧ decompress s = .ok (cmdEnd r 0 (((s.setSeq .dCheck).setHdr h').setPorts { s.ports with result := r })) := by
  obtain ⟨hd, r, v1, v2, v3, v4⟩ := contValidate_spec (s.setSeq .dCheck)
  have hr : r ≠ .ok := fun x => by
    have := v2.1 x
    exact h ⟨this.cap, this.len, this.tag, this.ceiling, this.size, this.stored, this.room⟩
  refine ⟨hd, r, ?_, (decompress_validated v1).1 hr⟩
  rcases v4 with v4 | v4
  · exact absurd v4 hr
  · exact v4

/-- DECOMPRESS of an accepted container. -/
theorem decompress_accepted {s : State} (h : Accepted s) :
    (srcByte s 16 = 1 → decompress s
        = decompressStored (((s.setSeq .dCheck).setHdr (headerOf s)).setPorts { s.ports with result := .ok }))
      ∧ (srcByte s 16 ≠ 1 → decompress s
        = decLoop (2 * (s.srcLen.toNat - 17) + 4) (decodeStart s) >>=
            fun b => .ok (decodeFinish (decEnd b))) := by
  obtain ⟨hd, r, v1, v2, v3, v4⟩ := contValidate_spec (s.setSeq .dCheck)
  have hr : r = .ok := v2.2 ⟨h.cap, h.len, h.tag, h.ceiling, h.size, h.stored, h.room⟩
  have hh : hd = headerOf s := v3 hr
  rw [hr, hh] at v1
  refine ⟨fun ht => (decompress_validated v1).2.1 rfl ht, fun ht => ?_⟩
  rw [(decompress_validated v1).2.2 rfl ht]
  have hfuel : decFuel (((s.setSeq .dCheck).setHdr (headerOf s)).setPorts { s.ports with result := .ok })
      = 2 * (s.srcLen.toNat - 17) + 4 := by
    have : (headerOf s).cs.toNat = s.srcLen.toNat := (toNat_word32At _ _).trans h.size
    show 2 * ((headerOf s).cs.toNat - 17) + 4 = _
    rw [this]
  unfold decompressCoded
  rw [← hfuel]
  rfl

/-- DECOMPRESS of an accepted stored container. -/
theorem decompress_stored {s : State} (h : Accepted s) (ht : srcByte s 16 = 1) :
    ∃ t, decompress s = .ok t ∧ ended .ok t ∧ t.resultLen = (headerOf s).es ∧ t.hdr = headerOf s
      ∧ (∀ i, i < word32At (srcByte s) 8 → dstByte t i = srcByte s (17 + i))
      ∧ ∀ a, word32At (srcByte s) 8 ≤ a → dstByte t a = dstByte s a := by
  have hs := h.stored ht
  have hcap := h.cap
  have hes : (headerOf s).es.toNat = word32At (srcByte s) 8 := toNat_word32At _ _
  have hroom := h.room
  generalize ha : (((s.setSeq .dCheck).setHdr (headerOf s)).setPorts { s.ports with result := .ok }) = a
  obtain ⟨m, c1, c2, c3, _⟩ := contStoredCopy_eq (a.setSeq .dStored) (by
      rw [← ha]; show 17 + (headerOf s).es.toNat ≤ srcSize s; unfold srcSize; omega) (by
      rw [← ha]; show (headerOf s).es.toNat ≤ s.par.dstCap; omega)
  have e := (decompress_accepted h).1 ht
  rw [ha] at e
  unfold decompressStored at e
  rw [c1, Res.ok_bind] at e
  refine ⟨_, e, ended_cmdEnd _ _ _, by rw [← ha]; rfl, by rw [← ha]; rfl, fun i hi => ?_, fun i hi => ?_⟩
  · refine (c2 i (by rw [← ha]; show i < (headerOf s).es.toNat; omega)).trans ?_
    rw [← ha]; rfl
  · refine (c3 i (by rw [← ha]; show (headerOf s).es.toNat ≤ i; omega)).trans ?_
    rw [← ha]; rfl

/-- DECOMPRESS of an accepted coded container. -/
theorem decompress_coded {s : State} (h : Accepted s) (ht : srcByte s 16 ≠ 1) :
    ∃ b, decompress s = .ok (decodeFinish (decEnd b)) ∧ Decoding (decodeStart s) b := by
  have hd := decodeStart_decoding h
  have hl : stepsLeft (decodeStart s) ≤ 2 * (s.srcLen.toNat - 17) + 4 := by
    show 2 * (((BitVec.ofNat 35 (8 * (headerOf s).cs.toNat)).toNat - 136) / 8) + 1 ≤ _
    have hcs : (headerOf s).cs.toNat = word32At (srcByte s) 0 := toNat_word32At _ _
    have := (headerOf s).cs.isLt
    rw [BitVec.toNat_ofNat, Nat.mod_eq_of_lt (by omega), hcs, h.size]
    have := h.len
    omega
  obtain ⟨b, b1, b2, b3⟩ := hd.loop hl
  refine ⟨b, ?_, b2⟩
  rw [(decompress_accepted h).2 ht, b1]; rfl

/-- DECOMPRESS always answers, so a next state of it is its answer: it never gets the engine stuck. -/
theorem decompress_next {s t : State} (h : exec .decompress s = .next t) : decompress s = .ok t := by
  by_cases ha : Accepted s
  · by_cases ht : srcByte s 16 = 1
    · obtain ⟨u, e, _⟩ := decompress_stored ha ht
      exact toOutcome_next_of_ok e h
    · obtain ⟨b, e, _⟩ := decompress_coded ha ht
      exact toOutcome_next_of_ok e h
  · obtain ⟨h', r, _, e⟩ := decompress_refused ha
    exact toOutcome_next_of_ok e h

end Sys2Proof.Machine
end

