-- ==== Sys2Proof/Laws/Lockstep.lean ====
section
/-! SUPPORT. The Decompressor follows the Compressor one insertion behind (44_decompressor R201): from the codes of
a source it gives the source back. -/

namespace Sys2Proof.Machine

open Sys2Proof Sys2Proof.Safety

/-! ### One code -/

/-- DICT_READ_WIDTH is the width that the Compressor has after its insertion (42_dictionary R139). -/
theorem dictReadWidth_insert {d : Dict} (h : d.Closed) (P : Code) (B : Byte) :
    dictReadWidth d = (dictInsert P B d).2.codeWidth.toNat := by
  rw [(dictInsert_closed h P B).regs.1]
  cases hf : d.full with
  | false =>
    have : (dictInsert P B d).2.nextFree.toNat = d.nextFree.toNat + 1 := by
      rw [dictInsert_growth hf]
      exact (grow_regs (d := placeEntry (d.nextFree.setWidth 12) P B d) h.regs hf).1
    rw [this]
    unfold dictReadWidth
    rw [hf]
    rfl
  | true =>
    have h1 := h.full_iff.1 hf
    have h2 := dictInsert_nextFree_le h P B
    have h3 := (dictInsert_closed h P B).regs.2.2.2.1
    have : (dictInsert P B d).2.nextFree.toNat = 4096 := by omega
    rw [this]
    unfold dictReadWidth
    rw [hf, if_pos rfl]
    decide

/-- A unit step of the loop. -/
theorem decLoop_succ {s t : State} (hn : s.dec.stopped = false) (h : decUnitStep s = .ok t) (fuel : Nat) :
    decLoop (fuel + 1) s = decLoop fuel t := by
  conv => lhs; unfold decLoop
  rw [hn]
  simp only [Bool.false_eq_true, if_false]
  rw [h, Res.ok_bind]

/-- A loop that has ended is not changed by more fuel. -/
theorem decLoop_mono {fuel : Nat} {s t : State} (h : decLoop fuel s = .ok t) (k : Nat) :
    decLoop (fuel + k) s = .ok t := by
  induction fuel generalizing s with
  | zero =>
    unfold decLoop at h
    split at h
    · rename_i hs
      cases h
      cases k <;> simp [decLoop, hs]
    · cases h
  | succ fuel ih =>
    cases hn : s.dec.stopped with
    | true =>
      unfold decLoop at h
      rw [hn] at h
      cases h
      rw [Nat.add_right_comm]
      simp [decLoop, hn]
    | false =>
      unfold decLoop at h
      rw [hn] at h
      simp only [Bool.false_eq_true, if_false] at h
      obtain ⟨u, h1, h2⟩ := Res.bind_eq_ok.1 h
      rw [Nat.add_right_comm, decLoop_succ hn h1]
      exact ih h2

/-- What DEC_CLASSIFY finds for the code that the Compressor emits after inserting `{prev, x}`: the code's
expansion is there, but for the last byte of a SELF code (44_decompressor R193, R194). -/
theorem decClassify_behind {s : State} {x : Byte} {bs ps : List Byte} (hd : s.dictD.Chained)
    (hp : s.dictD.Spells s.dec.prevCode.toNat ps) (hf : ps.getLast? = some s.dec.firstByte)
    (hb : (dictInsert s.dec.prevCode x s.dictD).2.Spells s.dec.curCode.toNat bs)
    (hx : bs.getLast? = some x) :
    ∃ kind y es, decClassify s = s.setPorts { s.ports with kind := kind, xcode := y }
      ∧ s.dictD.Spells y.toNat es
      ∧ bs = (if kind = .self then [s.dec.firstByte] else []) ++ es ∧ es.getLast? = some x := by
  have direct : dictNextSlot s.dictD s.dec.prevCode ≠ some s.dec.curCode →
      s.dictD.Spells s.dec.curCode.toNat bs →
      ∃ kind y es, decClassify s = s.setPorts { s.ports with kind := kind, xcode := y }
        ∧ s.dictD.Spells y.toNat es
        ∧ bs = (if kind = .self then [s.dec.firstByte] else []) ++ es ∧ es.getLast? = some x := by
    intro h1 h2
    refine ⟨.direct, s.dec.curCode, bs, ?_, h2, by simp, hx⟩
    have hk : classify s.dictD s.dec.prevCode s.dec.curCode = .direct := by
      unfold classify
      have := h2.lt hd.closed
      rw [if_neg h1, if_neg (by omega)]
    unfold decClassify
    rw [hk]
  cases hc : dictNextSlot s.dictD s.dec.prevCode with
  | none =>
    rw [dictInsert_none hc] at hb
    exact direct (by rw [hc]; simp) hb
  | some c =>
    obtain ⟨hi, _⟩ := dictInsert_inserted hd (hp.lt hd.closed) x hc
    by_cases hcb : c = s.dec.curCode
    · subst hcb
      have hbs := hb.unique (hi.spells_slot hp)
      have hne := hp.ne_nil
      have hl : ps.getLast? = some x := by
        rw [hbs, List.getLast?_cons_of_ne_nil hne] at hx
        exact hx
      have hfx : s.dec.firstByte = x := by
        rw [hf] at hl
        exact Option.some.inj hl
      refine ⟨.self, s.dec.prevCode, ps, ?_, hp, by rw [hbs, hfx]; rfl, hl⟩
      have hk : classify s.dictD s.dec.prevCode s.dec.curCode = .self := by
        unfold classify
        rw [if_pos hc]
      unfold decClassify
      rw [hk]
    · refine direct (by rw [hc]; simpa using hcb) ((hi.spells fun he => ?_).1 hb)
      exact hcb (BitVec.eq_of_toNat_eq he.symm)

/-- What follows the reading of such a code: its expansion on the stack and the same insertion. -/
theorem decNextCode_behind {s : State} {x : Byte} {bs ps : List Byte} (hd : s.dictD.Chained)
    (hs : s.dec.state = .awaitNextCode)
    (hp : s.dictD.Spells s.dec.prevCode.toNat ps) (hf : ps.getLast? = some s.dec.firstByte)
    (hb : (dictInsert s.dec.prevCode x s.dictD).2.Spells s.dec.curCode.toNat bs)
    (hx : bs.getLast? = some x) (hr : s.dec.outIndex.toNat + bs.length ≤ s.dec.expSize.toNat) :
    ∃ t, decNextCode s = t
      ∧ t = { s with dictD := (dictInsert s.dec.prevCode x s.dictD).2, dec := t.dec, ports := t.ports }
      ∧ t.dec = { s.dec with
          state := .emitFromStack, prevCode := s.dec.curCode, firstByte := x
          stack := t.dec.stack, sp := t.dec.sp }
      ∧ stackBytes t.dec = bs := by
  obtain ⟨kind, y, es, c1, c2, c3, c4⟩ := decClassify_behind hd hp hf hb hx
  have hlen := hb.length_le (dictInsert_closed hd.closed _ _)
  have hbase : (dictInsert s.dec.prevCode x s.dictD).2.base = s.dictD.base := by
    unfold Dict.base; rw [dictInsert_minBits]
  have hbl := hd.closed.base_lt
  obtain ⟨e, e1, e2, e3, e4⟩ := (expandDec_spec s.dictD kind y s.dec es bs
    (c2.expansionRev (c2.length_le hd.closed)) c3).1 (by omega)
  have ef : e.firstByte = x := by
    rw [c4] at e4
    exact Option.some.inj e4
  have hsp : e.sp.toNat = bs.length := by rw [← length_stackBytes, e3]
  have est : e.state = .awaitNextCode := by rw [e2]; exact hs
  obtain ⟨_, _, _, n4⟩ := decNextCode_cases (s := s) rfl rfl rfl
  have h1 : decExpand (decClassify s) = (s.setPorts { s.ports with kind := kind, xcode := y }).setDec e := by
    rw [c1, ← e1]; rfl
  have h2 : roomCheck (decExpand (decClassify s)) = (s.setPorts { s.ports with kind := kind, xcode := y }).setDec e := by
    rw [h1]
    unfold roomCheck
    rw [if_neg]
    show ¬ e.expSize.toNat < e.outIndex.toNat + e.sp.toNat
    have i1 : e.expSize = s.dec.expSize := by rw [e2]
    have i2 : e.outIndex = s.dec.outIndex := by rw [e2]
    rw [i1, i2, hsp]
    omega
  rw [h2, h1] at n4
  have n5 := n4 (by rw [c1]; show s.dec.state ≠ _; rw [hs]; simp) (by show e.state ≠ _; rw [est]; simp)
    (by show e.state ≠ _; rw [est]; simp)
  have ep : e.prevCode = s.dec.prevCode := by rw [e2]
  have ec : e.curCode = s.dec.curCode := by rw [e2]
  refine ⟨_, n5, ?_, ?_, e3⟩
  · unfold decInsert
    show _ = _
    rw [← ef]
    simp only [State.setDec_dec, ep]
    rfl
  · show ({ e with prevCode := e.curCode, state := .emitFromStack } : Dec) = _
    rw [ec, e2]
    rw [← ef]
    rfl

/-- DEC_POP moves a string from the stack to DST. -/
theorem decPop_bytes {s : State} {bs : List Byte} (h : stackBytes s.dec = bs)
    (hr : s.dec.outIndex.toNat + bs.length ≤ s.dec.expSize.toNat) (hd : s.dec.expSize.toNat ≤ s.par.dstCap) :
    ∃ t, decPop s = .ok t
      ∧ t = { s with dst := t.dst, dec := t.dec }
      ∧ t.dec = { s.dec with state := .awaitNextCode, sp := t.dec.sp, outIndex := t.dec.outIndex }
      ∧ t.dec.outIndex.toNat = s.dec.outIndex.toNat + bs.length
      ∧ ∀ a, dstByte t a = if s.dec.outIndex.toNat ≤ a ∧ a < s.dec.outIndex.toNat + bs.length then
          bs.reverse.getD (a - s.dec.outIndex.toNat) 0 else dstByte s a := by
  have hsp : s.dec.sp.toNat = bs.length := by rw [← length_stackBytes, h]
  have hlt := s.dec.expSize.isLt
  obtain ⟨m, m1, m2, _⟩ := popBytes_spec s.dec.sp.toNat s (Nat.le_refl _) (by omega) (by omega)
  have hidx : (BitVec.ofNat 32 (s.dec.outIndex.toNat + s.dec.sp.toNat)).toNat
      = s.dec.outIndex.toNat + s.dec.sp.toNat := by
    rw [BitVec.toNat_ofNat, Nat.mod_eq_of_lt (by omega)]
  refine ⟨((s.setDst m).setDec { s.dec with
          sp := BitVec.ofNat 13 (s.dec.sp.toNat - s.dec.sp.toNat)
          outIndex := BitVec.ofNat 32 (s.dec.outIndex.toNat + s.dec.sp.toNat) }).setDec
          { s.dec with
            sp := BitVec.ofNat 13 (s.dec.sp.toNat - s.dec.sp.toNat)
            outIndex := BitVec.ofNat 32 (s.dec.outIndex.toNat + s.dec.sp.toNat)
            state := .awaitNextCode }, ?_, rfl, rfl, ?_, ?_⟩
  · unfold decPop
    rw [m1, Res.ok_bind]
    rfl
  · show (BitVec.ofNat 32 (s.dec.outIndex.toNat + s.dec.sp.toNat)).toNat = _
    omega
  · intro a
    refine (m2 a).trans ?_
    rw [hsp]
    split
    · rename_i ha
      have hg := getD_stackBytes s.dec (bs.length - 1 - (a - s.dec.outIndex.toNat)) (by omega)
      rw [← hg, h]
      simp only [List.getD_eq_getElem?_getD]
      rw [List.getElem?_reverse (by omega)]
    · rfl

/-! ### The loop -/

/-- The Decompressor is one insertion behind: the Compressor has inserted `{prev_code, x}` and then taken the bytes
`bs` (newest first) into its base code `b`, and `xs` is still to come. -/
structure Behind (s0 s : State) (x : Byte) (b : Code) (bs xs : List Byte) : Prop where
  decoding : Decoding s0 s
  state : s.dec.state = .awaitNextCode
  chained : s.dictD.Chained
  prev : ∃ ps, s.dictD.Spells s.dec.prevCode.toNat ps ∧ ps.getLast? = some s.dec.firstByte
  code : (dictInsert s.dec.prevCode x s.dictD).2.Spells b.toNat bs
  first : bs.getLast? = some x
  bits : ∀ k, k < totalBits (codesFrom (dictInsert s.dec.prevCode x s.dictD).2 b xs) →
    bufBit .src s (s.dec.inBit.toNat + k)
      = packedBit (codesFrom (dictInsert s.dec.prevCode x s.dictD).2 b xs) s.dec.inBit.toNat
          (s.dec.inBit.toNat + k)
  budget : s.dec.inBit.toNat + totalBits (codesFrom (dictInsert s.dec.prevCode x s.dictD).2 b xs)
    ≤ s.dec.budgetBits.toNat
  size : s.dec.outIndex.toNat + bs.length + xs.length = s.dec.expSize.toNat
  literals : ∀ y ∈ xs, y.toNat < s.dictD.base

/-- The next code is decoded in two steps. -/
theorem Behind.decode {s0 s : State} {x : Byte} {b : Code} {bs xs : List Byte} (h : Behind s0 s x b bs xs)
    {rest : List (Code × Nat)}
    (hc : codesFrom (dictInsert s.dec.prevCode x s.dictD).2 b xs
      = (b, (dictInsert s.dec.prevCode x s.dictD).2.codeWidth.toNat) :: rest) :
    ∃ t, (∀ fuel, decLoop (fuel + 2) s = decLoop fuel t) ∧ Decoding s0 t
      ∧ t.dec.state = .awaitNextCode ∧ t.dictD = (dictInsert s.dec.prevCode x s.dictD).2
      ∧ t.dec.prevCode = b ∧ t.dec.firstByte = x
      ∧ t.dec.inBit.toNat = s.dec.inBit.toNat + (dictInsert s.dec.prevCode x s.dictD).2.codeWidth.toNat
      ∧ t.dec.budgetBits = s.dec.budgetBits ∧ t.dec.expSize = s.dec.expSize
      ∧ t.dec.outIndex.toNat = s.dec.outIndex.toNat + bs.length
      ∧ (∀ a, dstByte t a = if s.dec.outIndex.toNat ≤ a ∧ a < s.dec.outIndex.toNat + bs.length then
          bs.reverse.getD (a - s.dec.outIndex.toNat) 0 else dstByte s a) := by
  obtain ⟨ps, p1, p2⟩ := h.prev
  have hd1 := dictInsert_closed h.chained.closed s.dec.prevCode x
  have hw := dictReadWidth_insert h.chained.closed s.dec.prevCode x
  have hbase : (dictInsert s.dec.prevCode x s.dictD).2.base = s.dictD.base := by
    unfold Dict.base; rw [dictInsert_minBits]
  have hfit := codesFrom_fit hd1 (h.code.lt hd1) (xs := xs) (by rw [hbase]; exact h.literals)
  have hbits := h.bits
  have hbud := h.budget
  have hcode := h.code
  rw [hc] at hbits hbud hfit
  rw [totalBits_cons] at hbits hbud
  dsimp only at hbits hbud
  generalize hdd : (dictInsert s.dec.prevCode x s.dictD).2 = d1 at *
  have hbs := List.length_pos_of_ne_nil h.code.ne_nil
  have hsize := h.size
  have hroom := h.decoding.room
  have hne : s.dec.outIndex ≠ s.dec.expSize := fun he => by
    have := congrArg BitVec.toNat he
    omega
  -- the code
  rcases h.decoding.read with ⟨_, r | r⟩ | ⟨_, _, c, r1, r2, r3⟩
  · exact absurd r hne
  · omega
  · have hcb : c = b := by
      apply BitVec.eq_of_getLsbD_eq
      intro j hj
      rw [r2 j hj, hw]
      by_cases hjw : j < d1.codeWidth.toNat
      · rw [hbits j (by omega), packedBit_head hfit hjw]
        simp [hjw]
      · have hlt : b.toNat < 2 ^ j := Nat.lt_of_lt_of_le (hd1.code_lt (hcode.lt hd1))
          (Nat.pow_le_pow_right (by omega) (by omega))
        have : b.getLsbD j = false := by
          rw [BitVec.getLsbD, Nat.testBit_lt_two_pow hlt]
        rw [this]
        simp [hjw]
    subst hcb
    generalize hu : ((s.setAcc (c.setWidth 32)).setDec
            { s.dec with
              inBit := BitVec.ofNat 35 (s.dec.inBit.toNat + dictReadWidth s.dictD), curCode := c }).setPorts
            { s.ports with code := some c } = u at r1
    have u1 : u.dec = { s.dec with
              inBit := BitVec.ofNat 35 (s.dec.inBit.toNat + dictReadWidth s.dictD), curCode := c } := by
        rw [← hu]; rfl
    have u2 : u = { s with dec := u.dec, acc := u.acc, ports := u.ports } := by rw [← hu]; rfl
    have u3 : u.ports.code = some c := by rw [← hu]; rfl
    have u4 : u.dictD = s.dictD := by rw [u2]
    have u5 : u.dec.prevCode = s.dec.prevCode := by rw [u1]
    have u6 : u.dec.firstByte = s.dec.firstByte := by rw [u1]
    have u7 : u.dec.curCode = c := by rw [u1]
    have u8 : u.dec.outIndex = s.dec.outIndex := by rw [u1]
    have u9 : u.dec.expSize = s.dec.expSize := by rw [u1]
    obtain ⟨m, m1, m2, m3, m4⟩ := decNextCode_behind (s := u) (x := x) (bs := bs) (ps := ps)
      (by rw [u4]; exact h.chained) (by rw [u1]; exact h.state) (by rw [u4, u5]; exact p1)
      (by rw [u6]; exact p2) (by rw [u4, u5, u7, hdd]; exact hcode) h.first (by rw [u8, u9]; omega)
    rw [u4, u5, hdd] at m2
    have w1 : m.dec.outIndex = s.dec.outIndex := by rw [m3]; exact u8
    have w2 : m.dec.expSize = s.dec.expSize := by rw [m3]; exact u9
    have w3 : m.par = s.par := by rw [m2, u2]
    have w4 : m.dec.state = .emitFromStack := by rw [m3]
    have hpar : s.par = s0.par := by rw [h.decoding.frame]
    obtain ⟨t, t1, t2, t3, t4, t5⟩ := decPop_bytes m4 (by rw [w1, w2]; omega) (by rw [w2, w3, hpar]; exact hroom)
    have step1 : decUnitStep s = .ok m := by
      unfold decUnitStep
      rw [h.state]
      dsimp only
      rw [r1, Res.ok_bind, u3]
      simp only [Option.isSome_some, if_true]
      rw [m1]
    have step2 : decUnitStep m = .ok t := by
      unfold decUnitStep
      rw [w4]
      exact t1
    have n1 : s.dec.stopped = false := by simp [Dec.stopped, h.state]
    have n2 : m.dec.stopped = false := by simp [Dec.stopped, w4]
    have dm : Decoding s0 m := by
      obtain ⟨m', q1, q2, _⟩ := h.decoding.step n1
      rw [step1] at q1
      cases q1
      exact q2
    have dt : Decoding s0 t := by
      obtain ⟨t', q1, q2, _⟩ := dm.step n2
      rw [step2] at q1
      cases q1
      exact q2
    refine ⟨t, fun fuel => ?_, dt, by rw [t3], ?_, ?_, ?_, ?_, ?_, ?_, ?_, ?_⟩
    · rw [decLoop_succ n1 step1, decLoop_succ n2 step2]
    · rw [t2, m2]
    · rw [t3, m3]; exact u7
    · rw [t3, m3]
    · rw [t3, m3, u1]
      dsimp only
      rw [r3, hw]
    · rw [t3, m3, u1]
    · rw [t3, m3, u1]
    · rw [t4, w1]
    · intro a
      rw [t5 a, w1]
      have : dstByte m a = dstByte s a := by rw [m2, u2]; rfl
      rw [this]

/-- The end of decoding, once every byte is out. -/
theorem decLoop_done {s : State} (hst : s.dec.state = .awaitNextCode)
    (ho : s.dec.outIndex = s.dec.expSize) (fuel : Nat) : decLoop (fuel + 1) s = .ok (decReadEnd s) := by
  have n1 : s.dec.stopped = false := by simp [Dec.stopped, hst]
  have n2 : (decReadEnd s).dec.stopped = true := by simp [Dec.stopped, decReadEnd]
  have step1 : decUnitStep s = .ok (decReadEnd s) := by
    unfold decUnitStep
    rw [hst]
    dsimp only
    unfold decRead
    rw [if_pos ho, Res.ok_bind]
    rfl
  rw [decLoop_succ n1 step1]
  cases fuel <;> simp [decLoop, n2]

/-- What the loop of DECOMPRESS gives: every byte of a string from `out_index` on, and DONE. -/
def Decoded (s t : State) (ys : List Byte) : Prop :=
  t.dec.state = .done ∧ t.dec.outIndex = t.dec.expSize ∧ t.dec.expSize = s.dec.expSize
    ∧ ∀ a, dstByte t a = if s.dec.outIndex.toNat ≤ a ∧ a < s.dec.outIndex.toNat + ys.length then
        ys.getD (a - s.dec.outIndex.toNat) 0 else dstByte s a

/-- The loop from one insertion behind gives the bytes of the base code and all bytes that are still to come. -/
theorem Behind.loop {s0 s : State} {x : Byte} {b : Code} {bs xs : List Byte} (h : Behind s0 s x b bs xs) :
    ∃ k t, (∀ fuel, decLoop (fuel + k) s = .ok t) ∧ Decoded s t (bs.reverse ++ xs) := by
  induction xs generalizing s x b bs with
  | nil =>
    obtain ⟨t, t1, t2, t3, t4, t5, t6, t7, t8, t9, t10, t11⟩ := h.decode (rest := []) rfl
    have ho : t.dec.outIndex = t.dec.expSize := by
      apply BitVec.eq_of_toNat_eq
      have := h.size
      simp only [List.length_nil] at this
      rw [t10, t9]
      omega
    refine ⟨3, decReadEnd t, fun fuel => ?_, rfl, ho, t9, fun a => ?_⟩
    · rw [show fuel + 3 = fuel + 1 + 2 by omega, t1, decLoop_done t3 ho]
    · rw [List.append_nil, List.length_reverse]
      exact t11 a
  | cons y ys ih =>
    cases hl : dictLookup (dictInsert s.dec.prevCode x s.dictD).2 b y with
    | some e =>
      obtain ⟨ps, p1, p2⟩ := h.prev
      have hd1 := dictInsert_chained h.chained p1 x
      have hc : codesFrom (dictInsert s.dec.prevCode x s.dictD).2 b (y :: ys)
          = codesFrom (dictInsert s.dec.prevCode x s.dictD).2 e ys := by rw [codesFrom, hl]
      have h2 : Behind s0 s x e (y :: bs) ys := {
        decoding := h.decoding, state := h.state, chained := h.chained, prev := h.prev
        code := dictLookup_spells hd1 h.code hl
        first := by rw [List.getLast?_cons_of_ne_nil h.code.ne_nil]; exact h.first
        bits := by have := h.bits; rwa [hc] at this
        budget := by have := h.budget; rwa [hc] at this
        size := by have := h.size; simp only [List.length_cons] at *; omega
        literals := fun z hz => h.literals z (List.mem_cons_of_mem _ hz) }
      obtain ⟨k, t, k1, k2⟩ := ih h2
      exact ⟨k, t, k1, by simpa using k2⟩
    | none =>
      have hc : codesFrom (dictInsert s.dec.prevCode x s.dictD).2 b (y :: ys)
          = (b, (dictInsert s.dec.prevCode x s.dictD).2.codeWidth.toNat)
            :: codesFrom (dictInsert b y (dictInsert s.dec.prevCode x s.dictD).2).2 (y.setWidth 12) ys := by
        rw [codesFrom, hl]
      obtain ⟨ps, p1, p2⟩ := h.prev
      have hd1 := dictInsert_chained h.chained p1 x
      have hd2 := dictInsert_chained hd1 h.code y
      have hbase1 : (dictInsert s.dec.prevCode x s.dictD).2.base = s.dictD.base := by
        unfold Dict.base; rw [dictInsert_minBits]
      have hbase2 : (dictInsert b y (dictInsert s.dec.prevCode x s.dictD).2).2.base = s.dictD.base := by
        unfold Dict.base; rw [dictInsert_minBits, dictInsert_minBits]
      have hlit := h.literals
      have hyb := hlit y List.mem_cons_self
      have hfit := codesFrom_fit hd1.closed (h.code.lt hd1.closed) (xs := y :: ys) (by rw [hbase1]; exact hlit)
      obtain ⟨t, t1, t2, t3, t4, t5, t6, t7, t8, t9, t10, t11⟩ := h.decode hc
      have hbits := h.bits
      have hbud := h.budget
      rw [hc] at hbits hbud hfit
      rw [totalBits_cons] at hbits hbud
      dsimp only at hbits hbud
      have hsrc : ∀ k, bufBit .src t k = bufBit .src s k := by
        intro k
        have e1 := t2.frame
        have e2 := h.decoding.frame
        rw [e1, e2]
        rfl
      have h2 : Behind s0 t y (y.setWidth 12) [y] ys := {
        decoding := t2, state := t3, chained := by rw [t4]; exact hd1
        prev := ⟨bs, by rw [t4, t5]; exact h.code, by rw [t6]; exact h.first⟩
        code := by
          rw [t4, t5]
          have := Dict.Spells.lit (d := (dictInsert b y (dictInsert s.dec.prevCode x s.dictD).2).2) y.toNat
            (by rw [hbase2]; exact hyb)
          rw [byte_toNat_setWidth]
          simpa using this
        first := rfl
        bits := by
          intro k hk
          rw [t4, t5] at hk ⊢
          rw [hsrc, t7]
          have e := hbits ((dictInsert s.dec.prevCode x s.dictD).2.codeWidth.toNat + k) (by omega)
          rw [packedBit_tail hfit (by dsimp only; omega)] at e
          rw [← Nat.add_assoc] at e
          exact e
        budget := by rw [t4, t5, t7, t8]; omega
        size := by
          rw [t9, t10]
          have := h.size
          simp only [List.length_cons, List.length_nil] at *
          omega
        literals := by
          intro z hz
          rw [t4, hbase1]
          exact hlit z (List.mem_cons_of_mem _ hz) }
      obtain ⟨k, v, k1, k2, k3, k4, k5⟩ := ih h2
      refine ⟨k + 2, v, fun fuel => ?_, k2, k3, k4.trans t9, fun a => ?_⟩
      · rw [← Nat.add_assoc, t1, k1]
      · rw [k5 a, t10, t11 a]
        simp only [List.reverse_singleton, List.singleton_append, List.length_append, List.length_cons,
          List.length_reverse, List.getD_eq_getElem?_getD]
        by_cases ha : s.dec.outIndex.toNat ≤ a ∧ a < s.dec.outIndex.toNat + bs.length
        · rw [if_neg (by omega), if_pos ha, if_pos (by omega),
            List.getElem?_append_left (by rw [List.length_reverse]; omega)]
        · rw [if_neg ha]
          by_cases hb : s.dec.outIndex.toNat + bs.length ≤ a
              ∧ a < s.dec.outIndex.toNat + bs.length + (ys.length + 1)
          · rw [if_pos hb, if_pos (by omega),
              List.getElem?_append_right (by rw [List.length_reverse]; omega), List.length_reverse,
              Nat.sub_add_eq]
          · rw [if_neg hb, if_neg (by omega)]

/-! ### From the first code on -/

/-- The loop of DECOMPRESS from its start gives a source back from its codes. -/
theorem decodeStart_loop {s0 s : State} {ys : List Byte} (h : Decoding s0 s)
    (hst : s.dec.state = .awaitFirstCode) {mb : BitVec 4} {d : Dict} (hmb : minBitsLegal mb)
    (hd : s.dictD = dictInit mb d) (hlit : ∀ y ∈ ys, y.toNat < s.dictD.base)
    (hsize : ys.length = s.dec.expSize.toNat)
    (hbits : ∀ k, k < totalBits (codesOf s.dictD ys) →
      bufBit .src s (s.dec.inBit.toNat + k)
        = packedBit (codesOf s.dictD ys) s.dec.inBit.toNat (s.dec.inBit.toNat + k))
    (hbud : s.dec.inBit.toNat + totalBits (codesOf s.dictD ys) ≤ s.dec.budgetBits.toNat) :
    ∃ k t, (∀ fuel, decLoop (fuel + k) s = .ok t) ∧ Decoded s t ys := by
  have h0 := h.first hst
  have h00 : s.dec.outIndex.toNat = 0 := by rw [h0]; rfl
  have hch : s.dictD.Chained := by rw [hd]; exact Dict.chained_dictInit hmb d
  cases ys with
  | nil =>
    have ho : s.dec.outIndex = s.dec.expSize := by
      apply BitVec.eq_of_toNat_eq
      rw [h00, ← hsize]
      rfl
    have n1 : s.dec.stopped = false := by simp [Dec.stopped, hst]
    have n2 : (decReadEnd s).dec.stopped = true := by simp [Dec.stopped, decReadEnd]
    refine ⟨1, decReadEnd s, fun fuel => ?_, rfl, ho, rfl, fun a => ?_⟩
    · have step1 : decUnitStep s = .ok (decReadEnd s) := by
        unfold decUnitStep
        rw [hst]
        dsimp only
        unfold decRead
        rw [if_pos ho, Res.ok_bind]
        rfl
      rw [decLoop_succ n1 step1]
      cases fuel <;> simp [decLoop, n2]
    · rw [if_neg (by simp only [List.length_nil]; omega)]
      rfl
  | cons y ys =>
    have hyb := hlit y List.mem_cons_self
    have hys : ∀ z ∈ ys, z.toNat < s.dictD.base := fun z hz => hlit z (List.mem_cons_of_mem _ hz)
    have hge := hch.closed.regs.2.2.1
    have hfit := codesOf_fit (xs := y :: ys) hch.closed hlit
    -- the widths of the first code
    have hw : dictReadWidth s.dictD = s.dictD.codeWidth.toNat := by
      rw [hd]
      rcases hmb with rfl | rfl
      · show dictReadWidth (dictInit 7 d) = (8 : BitVec 4).toNat
        unfold dictReadWidth
        rw [show (dictInit 7 d).full = false from rfl,
          show (dictInit 7 d).nextFree.toNat = 128 from rfl]
        decide
      · show dictReadWidth (dictInit 8 d) = (9 : BitVec 4).toNat
        unfold dictReadWidth
        rw [show (dictInit 8 d).full = false from rfl,
          show (dictInit 8 d).nextFree.toNat = 256 from rfl]
        decide
    have hnone : ∀ z, dictLookup s.dictD (y.setWidth 12) z = none := by
      intro z
      unfold dictLookup
      have : s.dictD.headAt (y.setWidth 12 : Code).toNat = none := by rw [hd]; rfl
      rw [this]
      cases Config.dictCapacity - s.dictD.base <;> rfl
    have hcodes : ∃ rest, codesOf s.dictD (y :: ys) = (y.setWidth 12, s.dictD.codeWidth.toNat) :: rest
        ∧ (ys = [] → rest = [])
        ∧ ∀ z zs, ys = z :: zs →
            rest = codesFrom (dictInsert (y.setWidth 12) z s.dictD).2 (z.setWidth 12) zs := by
      cases ys with
      | nil => exact ⟨[], rfl, fun _ => rfl, (by intro z zs hz; cases hz)⟩
      | cons z zs =>
        refine ⟨codesFrom (dictInsert (y.setWidth 12) z s.dictD).2 (z.setWidth 12) zs, ?_,
          (by intro hz; cases hz), (by intro z' zs' hz; cases hz; rfl)⟩
        show codesFrom s.dictD (y.setWidth 12) (z :: zs) = _
        rw [codesFrom, hnone z]
    obtain ⟨rest, hc, hr1, hr2⟩ := hcodes
    rw [hc] at hbits hbud hfit
    rw [totalBits_cons] at hbits hbud
    dsimp only at hbits hbud
    rw [List.length_cons] at hsize
    have hne : s.dec.outIndex ≠ s.dec.expSize := fun he => by
      have := congrArg BitVec.toNat he
      omega
    have hy12 := byte_toNat_setWidth y
    rcases h.read with ⟨_, r | r⟩ | ⟨_, _, c, r1, r2, r3⟩
    · exact absurd r hne
    · omega
    · have hcb : c = y.setWidth 12 := by
        apply BitVec.eq_of_getLsbD_eq
        intro j hj
        rw [r2 j hj, hw]
        by_cases hjw : j < s.dictD.codeWidth.toNat
        · rw [hbits j (by omega), packedBit_head hfit hjw]
          simp [hjw]
        · have hlt : (y.setWidth 12 : Code).toNat < 2 ^ j :=
            Nat.lt_of_lt_of_le (hch.closed.code_lt (by omega)) (Nat.pow_le_pow_right (by omega) (by omega))
          have : (y.setWidth 12 : Code).getLsbD j = false := by
            rw [BitVec.getLsbD, Nat.testBit_lt_two_pow hlt]
          rw [this]
          simp [hjw]
      generalize hu : ((s.setAcc (c.setWidth 32)).setDec
            { s.dec with
              inBit := BitVec.ofNat 35 (s.dec.inBit.toNat + dictReadWidth s.dictD), curCode := c }).setPorts
            { s.ports with code := some c } = u at r1
      have u1 : u.dec = { s.dec with
              inBit := BitVec.ofNat 35 (s.dec.inBit.toNat + dictReadWidth s.dictD), curCode := c } := by
        rw [← hu]; rfl
      have u2 : u = { s with dec := u.dec, acc := u.acc, ports := u.ports } := by rw [← hu]; rfl
      have u3 : u.ports.code = some c := by rw [← hu]; rfl
      have u4 : u.dictD = s.dictD := by rw [u2]
      have u5 : u.dec.curCode = c := by rw [u1]
      have u6 : u.dec.outIndex = s.dec.outIndex := by rw [u1]
      have u7 : u.par = s0.par := by rw [u2, h.frame]
      have hc8 : (c.setWidth 8 : Byte) = y := by
        rw [hcb]
        apply BitVec.eq_of_toNat_eq
        rw [BitVec.toNat_setWidth, hy12, Nat.mod_eq_of_lt y.isLt]
      have hroom := h.room
      have hfirst : decFirst u = .ok ((u.setDst (Memory.write u.dst 0 y)).setDec
          { u.dec with
            outIndex := 1, firstByte := y, prevCode := c, prevValid := true, state := .awaitNextCode }) := by
        unfold decFirst
        dsimp only
        rw [u5, if_neg (by rw [u4, hcb, hy12]; omega), u6, h00, hc8,
          writeDst_eq (by rw [u7]; omega), Res.ok_bind, State.setDst_dec, u5]
      generalize ht : (u.setDst (Memory.write u.dst 0 y)).setDec
          { u.dec with
            outIndex := 1, firstByte := y, prevCode := c, prevValid := true, state := .awaitNextCode } = t at hfirst
      have n1 : s.dec.stopped = false := by simp [Dec.stopped, hst]
      have step1 : decUnitStep s = .ok t := by
        unfold decUnitStep
        rw [hst]
        dsimp only
        rw [r1, Res.ok_bind, u3]
        simp only [Option.isSome_some, if_true]
        rw [hfirst]
      have dt : Decoding s0 t := by
        obtain ⟨t', q1, q2, _⟩ := h.step n1
        rw [step1] at q1
        cases q1
        exact q2
      have t1 : t.dec = { s.dec with
          inBit := BitVec.ofNat 35 (s.dec.inBit.toNat + dictReadWidth s.dictD), curCode := c
          outIndex := 1, firstByte := y, prevCode := c, prevValid := true, state := .awaitNextCode } := by
        rw [← ht, State.setDec_dec, u1]
      have t2 : t.dictD = s.dictD := by rw [← ht]; exact u4
      have t3 : ∀ a, dstByte t a = if a = 0 then y else dstByte s a := by
        intro a
        rw [← ht]
        show Memory.read (Memory.write u.dst 0 y) a = _
        rw [Memory.read_write]
        have : Memory.read u.dst a = dstByte s a := by rw [u2]; rfl
        rw [this]
        by_cases ha : a = 0
        · rw [if_pos ha, if_pos ha.symm]
        · rw [if_neg ha, if_neg (Ne.symm ha)]
      have hsrc : ∀ k, bufBit .src t k = bufBit .src s k := by
        intro k
        rw [← ht, u2]
        rfl
      have t4 : t.dec.state = .awaitNextCode := by rw [t1]
      have t5 : t.dec.outIndex.toNat = 1 := by rw [t1]; rfl
      have t6 : t.dec.expSize = s.dec.expSize := by rw [t1]
      have t7 : t.dec.inBit.toNat = s.dec.inBit.toNat + s.dictD.codeWidth.toNat := by
        rw [t1]; exact r3.trans (by rw [hw])
      have t8 : t.dec.prevCode = y.setWidth 12 := by rw [t1]; exact hcb
      have t9 : t.dec.firstByte = y := by rw [t1]
      have t10 : t.dec.budgetBits = s.dec.budgetBits := by rw [t1]
      have hloop := decLoop_succ n1 step1
      cases ys with
      | nil =>
        have ho : t.dec.outIndex = t.dec.expSize := by
          apply BitVec.eq_of_toNat_eq
          rw [t5, t6, ← hsize]
          rfl
        refine ⟨2, decReadEnd t, fun fuel => ?_, rfl, ho, t6, fun a => ?_⟩
        · rw [show fuel + 2 = fuel + 1 + 1 by omega, hloop, decLoop_done t4 ho]
        · refine (t3 a).trans ?_
          rw [h00]
          by_cases ha : a = 0
          · subst ha; rfl
          · rw [if_neg ha, if_neg (by simp only [List.length_cons, List.length_nil]; omega)]
      | cons z zs =>
        have hrest := hr2 z zs rfl
        subst hrest
        have hzb := hys z List.mem_cons_self
        have hspy : s.dictD.Spells (y.setWidth 12 : Code).toNat [y] := by
          have := Dict.Spells.lit (d := s.dictD) y.toNat hyb
          rw [hy12]
          simpa using this
        have hbase1 : (dictInsert (y.setWidth 12) z s.dictD).2.base = s.dictD.base := by
          unfold Dict.base; rw [dictInsert_minBits]
        have h2 : Behind s0 t z (z.setWidth 12) [z] zs := {
          decoding := dt, state := t4, chained := by rw [t2]; exact hch
          prev := ⟨[y], by rw [t2, t8]; exact hspy, by rw [t9]; rfl⟩
          code := by
            rw [t2, t8]
            have := Dict.Spells.lit (d := (dictInsert (y.setWidth 12) z s.dictD).2) z.toNat
              (by rw [hbase1]; exact hzb)
            rw [byte_toNat_setWidth]
            simpa using this
          first := rfl
          bits := by
            intro k hk
            rw [t2, t8] at hk ⊢
            rw [hsrc, t7]
            have e := hbits (s.dictD.codeWidth.toNat + k) (by omega)
            rw [packedBit_tail hfit (by dsimp only; omega)] at e
            rw [← Nat.add_assoc] at e
            exact e
          budget := by rw [t2, t8, t7, t10]; omega
          size := by
            rw [t5, t6]
            simp only [List.length_cons, List.length_nil] at *
            omega
          literals := by
            intro q hq
            rw [t2]
            exact hys q (List.mem_cons_of_mem _ hq) }
        obtain ⟨k, v, k1, k2, k3, k4, k5⟩ := h2.loop
        refine ⟨k + 1, v, fun fuel => ?_, k2, k3, k4.trans t6, fun a => ?_⟩
        · rw [← Nat.add_assoc, hloop, k1]
        · rw [k5 a, t5, t3 a, h00]
          simp only [List.reverse_singleton, List.singleton_append, List.length_cons,
            List.getD_eq_getElem?_getD]
          by_cases ha : a = 0
          · subst ha
            rw [if_neg (by omega), if_pos rfl, if_pos (by omega)]
            rfl
          · rw [if_neg ha]
            by_cases hb : 1 ≤ a ∧ a < 1 + (zs.length + 1)
            · rw [if_pos hb, if_pos (by omega)]
              obtain ⟨a, rfl⟩ : ∃ n, a = n + 1 := ⟨a - 1, by omega⟩
              simp
            · rw [if_neg hb, if_neg (by omega)]

end Sys2Proof.Machine
end

