-- ==== Sys2Proof/Laws/Moves.lean ====
section
/-! SUPPORT. What a move can do, said once: how every operation ends, what the sequencer adds to it, and what a line
of the host changes. The invariants and frames of a step are read off from here. -/

namespace Sys2Proof.Machine

open Sys2Proof Sys2Proof.Safety

/-! ### Operations of a unit -/

theorem setBit_ports {M : Buffer} {n : Nat} {s : State} {r : Bool × State} (h : setBit M n s = .ok r) :
    r.2.ports = s.ports := by
  obtain ⟨b, _, h⟩ := Res.bind_eq_ok.1 h
  obtain ⟨t, h1, h⟩ := Res.bind_eq_ok.1 h
  cases h
  cases M with
  | src => cases h1
  | dst =>
    simp only [writeBuf, writeDst] at h1
    split at h1 <;> cases h1
    rfl
  | acc =>
    simp only [writeBuf] at h1
    split at h1 <;> cases h1
    rfl

theorem orBytes_ports {M : Buffer} {b : Nat} {x : Word32} {n k : Nat} {s t : State}
    (h : orBytes M b x n k s = .ok t) : t.ports = s.ports := by
  induction n generalizing k s with
  | zero => cases h; rfl
  | succ n ih =>
    obtain ⟨v, _, h⟩ := Res.bind_eq_ok.1 h
    obtain ⟨u, h1, h⟩ := Res.bind_eq_ok.1 h
    refine (ih h).trans ?_
    cases M with
    | src => cases h1
    | dst =>
      simp only [writeBuf, writeDst] at h1
      split at h1 <;> cases h1
      rfl
    | acc =>
      simp only [writeBuf] at h1
      split at h1 <;> cases h1
      rfl

theorem compEmit_ports {c : Code} {s : State} {r : Bool × State} (h : compEmit c s = .ok r) :
    r.2.ports = s.ports := by
  unfold compEmit at h
  dsimp only at h
  split at h
  · cases h; rfl
  · obtain ⟨u, h1, h⟩ := Res.bind_eq_ok.1 h
    cases h
    unfold orU32At at h1
    split at h1
    · exact (orBytes_ports h1 : u.ports = s.ports)
    · cases h1

/-- Every operation that is not a host command ends as `Keeps` says. -/
theorem exec_keeps {i : Instr} (hi : isCommand i = false) (s : State) :
    ∃ r, exec i s = toOutcome r ∧ KeepsState false s r := by
  cases i with
  | compress => cases hi
  | decompress => cases hi
  | getBit => exact ⟨_, rfl, (Keeps.getBit _ _).bind (fun _ _ => .of_ok (Kept.setPorts id))⟩
  | setBit =>
    exact ⟨_, rfl, (Keeps.setBit _ _).bind (fun _ h => .of_ok (Kept.setPorts (by rw [setBit_ports h]; exact id)))⟩
  | extractU32 => exact ⟨_, rfl, Keeps.extractU32 _ _ _⟩
  | orU32At => exact ⟨_, rfl, Keeps.orU32At _ _ _⟩
  | dictInit =>
    exact ⟨.ok _, rfl, .of_ok (Kept.setDict (fun x => Dict.wf_dictInit x _)
      (fun x _ => dictRegs_dictInit x.1 _))⟩
  | dictWidth => exact ⟨.ok _, rfl, .of_ok (Kept.setPorts id)⟩
  | dictLookup => exact ⟨.ok _, rfl, .of_ok (Kept.setPorts id)⟩
  | dictEligible => exact ⟨.ok _, rfl, .of_ok (Kept.setPorts id)⟩
  | dictNextSlot => exact ⟨.ok _, rfl, .of_ok (Kept.setPorts id)⟩
  | dictUnlink =>
    exact ⟨.ok _, rfl, .of_ok (Kept.setDict (fun x => Dict.wf_dictUnlink x _)
      (fun x => Dict.legal_dictUnlink (widthsLegal_dict x _) _))⟩
  | dictInsert =>
    refine ⟨.ok _, rfl, .of_ok ((Kept.setDict (D := s.ports.dict)
      (fun x => Dict.wf_dictInsert x s.ports.pfx s.ports.byte)
      (fun x => Dict.legal_dictInsert (widthsLegal_dict x _) _ _)).trans (Kept.setPorts ?_))⟩
    cases s.ports.dict <;> exact id
  | dictReadWidth => exact ⟨.ok _, rfl, .of_ok (Kept.setPorts id)⟩
  | compPrescan => exact ⟨_, rfl, Keeps.compPrescan⟩
  | compStart => exact ⟨_, rfl, Keeps.compStart⟩
  | compStepFirst => exact ⟨_, rfl, Keeps.compStepFirst⟩
  | compStep => exact ⟨_, rfl, Keeps.compStep⟩
  | compEmit =>
    exact ⟨_, rfl, (Keeps.compEmit _).bind (fun _ h => .of_ok (Kept.setPorts (by rw [compEmit_ports h]; exact id)))⟩
  | compFinish => exact ⟨_, rfl, Keeps.compFinish⟩
  | decStart => exact ⟨.ok _, rfl, .of_ok (Kept.decStart s)⟩
  | decRead => exact ⟨_, rfl, Keeps.decRead⟩
  | decFirst => exact ⟨_, rfl, Keeps.decFirst⟩
  | decClassify => exact ⟨.ok _, rfl, .of_ok (Kept.decClassify s)⟩
  | decExpand => exact ⟨.ok _, rfl, .of_ok (Kept.decExpand s)⟩
  | decInsert => exact ⟨.ok _, rfl, .of_ok (Kept.decInsert s)⟩
  | decPop => exact ⟨_, rfl, Keeps.decPop⟩
  | decEnd => exact ⟨.ok _, rfl, .of_ok (Kept.decEnd s)⟩
  | contWriteHeader => exact ⟨_, rfl, Keeps.writeHeader _ _ _⟩
  | contStored => exact ⟨_, rfl, Keeps.contStored⟩
  | contParseHeader => exact ⟨_, rfl, Keeps.contParseHeader⟩
  | contValidate => exact ⟨_, rfl, Keeps.contValidate⟩
  | contStoredCopy => exact ⟨_, rfl, Keeps.contStoredCopy⟩

/-! ### Moves of the engine -/

/-- What a move of the engine does at most: it leaves SRC, SRC_LEN, CMD, the parameters and the host's side alone,
and keeps what the units keep. -/
structure Moved (s t : State) : Prop where
  /-- what may change -/
  frame : t = { s with
    status := t.status, resultLen := t.resultLen, seq := t.seq, free := t.free, op := t.op, stuck := t.stuck
    dst := t.dst, dictC := t.dictC, dictD := t.dictD, comp := t.comp, dec := t.dec, hdr := t.hdr
    acc := t.acc, ports := t.ports }
  /-- the canonical form stays -/
  canon : canonical s = true → canonical t = true
  /-- the dictionaries' registers stay legal -/
  widths : widthsLegal s → widthsLegal t
  /-- STATUS stays legal -/
  status : statusLegal s.status → statusLegal t.status

theorem Moved.refl (s : State) : Moved s s := ⟨rfl, id, id, id⟩

theorem Moved.trans {s t u : State} (h : Moved s t) (h' : Moved t u) : Moved s u := by
  refine ⟨?_, fun x => h'.canon (h.canon x), fun x => h'.widths (h.widths x), fun x => h'.status (h.status x)⟩
  have e := h'.frame
  rw [h.frame] at e
  exact e

theorem Kept.stuck {s t : State} (h : Kept s t) : t.stuck = s.stuck := by rw [h.frame]

theorem Kept.moved {s t : State} (h : Kept s t) : Moved s t := by
  have e := h.frame
  refine ⟨?_, h.canon, h.widths, ?_⟩
  · conv => lhs; rw [e]
    rw [e]
  · rw [e]; exact id

theorem Moved.setSeq (s : State) (v : Seq) : Moved s (s.setSeq v) := ⟨rfl, id, id, id⟩

theorem Moved.setOp (s : State) (v : Option Byte) : Moved s (s.setOp v) := ⟨rfl, id, id, id⟩

theorem Moved.setStuck (s : State) (v : Option Stuck) : Moved s (s.setStuck v) := ⟨rfl, id, id, id⟩

theorem Moved.issue (i : Instr) (s : State) : Moved s (issue i s) := Moved.setOp _ _

theorem GotStuck.moved {s t : State} (h : GotStuck s t) : Moved s t := by
  obtain ⟨u, r, h, rfl⟩ := h
  exact h.moved.trans (Moved.setStuck _ _)

theorem statusLegal_statusOf (b d : Bool) (r : ResultCode) (h : ¬(b = true ∧ d = true)) :
    statusLegal (statusOf b d r) := by
  unfold statusLegal
  revert h
  cases b <;> cases d <;> cases r <;> decide

theorem Moved.cmdEnd (r : ResultCode) (len : Word32) (s : State) : Moved s (cmdEnd r len s) :=
  ⟨rfl, id, id, fun _ => statusLegal_statusOf false true r (by simp)⟩

theorem Moved.freeDst (n : Nat) (s : State) : Moved s (freeDst n s) := by
  refine ⟨rfl, ?_, id, id⟩
  simp only [canonical_iff]
  exact fun x => ⟨x.1, memFits_writeFree _ _ _ x.2.1 (show 0 + min n s.par.dstCap ≤ s.par.dstCap by omega), x.2.2⟩

theorem Moved.wrapCoded (s : State) : Moved s (wrapCoded s) := ⟨rfl, id, id, id⟩

theorem Moved.decodeFinish (s : State) : Moved s (decodeFinish s) := by
  unfold Machine.decodeFinish
  split
  · exact Moved.cmdEnd _ _ _
  · exact (Moved.freeDst _ _).trans (Moved.cmdEnd _ _ _)

theorem decodeFinish_stuck (s : State) : (decodeFinish s).stuck = s.stuck := by
  unfold decodeFinish
  split <;> rfl

/-! ### Host commands -/

theorem Kept.setSeq {s t : State} (h : Kept s t) (v : Seq) : Kept (s.setSeq v) (t.setSeq v) :=
  ⟨congrArg (State.setSeq v) h.frame, h.canon, h.widths⟩

theorem Kept.wrapCoded (s : State) : Kept (s.setSeq .cWrap) (wrapCoded s) := Kept.setHdr _ _

/-- How the rest of a host command ends from `s`: it answers, or gets the engine stuck with nothing written but what
the units write and SEQ, or runs out of its bound. -/
structure Ends (s : State) (r : Res State) : Prop where
  /-- it answers -/
  ok : ∀ t, r = .ok t → Moved s t ∧ t.stuck = s.stuck
  /-- it gets the engine stuck -/
  stuck : ∀ t, r = .error (.stuck t) → ∃ q, GotStuck (s.setSeq q) t
  /-- it stops the model -/
  fault : ∀ f, r = .error (.fault f) → f = .srcReadOnly ∨ f = .loopBound

theorem Ends.of_ok {s t : State} (h : Moved s t) (h' : t.stuck = s.stuck) : Ends s (.ok t) :=
  ⟨fun _ e => by cases e; exact ⟨h, h'⟩, fun _ e => (by cases e), fun _ e => (by cases e)⟩

theorem Ends.setSeq {s : State} {v : Seq} {r : Res State} (h : Ends (s.setSeq v) r) : Ends s r :=
  ⟨fun t e => ⟨(Moved.setSeq s v).trans (h.ok t e).1, (h.ok t e).2⟩, h.stuck, h.fault⟩

/-- The rest of a command after a change that is kept. -/
theorem Ends.after {s t : State} {r : Res State} (h : Kept s t) (h' : Ends t r) : Ends s r := by
  refine ⟨fun u e => ⟨h.moved.trans (h'.ok u e).1, (h'.ok u e).2.trans h.stuck⟩, fun u e => ?_, h'.fault⟩
  obtain ⟨q, v, p, h1, h2⟩ := h'.stuck u e
  exact ⟨q, v, p, (h.setSeq q).trans h1, h2⟩

/-- An operation of a unit, and the rest of the command after it. -/
theorem Ends.bind {s : State} {x : Res State} {f : State → Res State} (h : KeepsState true s x)
    (h' : ∀ a, Ends a (f a)) : Ends s (x >>= f) := by
  refine ⟨fun t e => ?_, fun t e => ?_, fun q e => ?_⟩
  · obtain ⟨a, h1, h2⟩ := Res.bind_eq_ok.1 e
    exact (Ends.after (h.kept h1) (h' a)).ok t h2
  · rcases Res.bind_eq_stuck.1 e with h1 | ⟨a, h1, h2⟩
    · exact ⟨s.seq, h.stuck t h1⟩
    · exact (Ends.after (h.kept h1) (h' a)).stuck t h2
  · rcases Res.bind_eq_fault.1 e with h1 | ⟨a, h1, h2⟩
    · exact (h.fault q h1).imp id And.left
    · exact (h' a).fault q h2

theorem Ends.compressWrap (s : State) : Ends s (compressWrap s) := by
  unfold Machine.compressWrap
  split
  · exact .setSeq (.after (Kept.wrapCoded s)
      (.bind (Keeps.writeHeader _ _ _) (fun _ => .of_ok (Moved.cmdEnd _ _ _) rfl)))
  · exact .setSeq (v := .cWrap) (.bind Keeps.contStored (fun _ => .of_ok (Moved.cmdEnd _ _ _) rfl))

theorem Ends.compress (s : State) : Ends s (compress s) := by
  unfold Machine.compress
  split
  · exact .of_ok (Moved.cmdEnd _ _ _) rfl
  · exact .setSeq (.bind Keeps.compPrescan (fun _ => .bind Keeps.compStart (fun _ => .bind Keeps.compStepFirst
      (fun _ => .bind (Keeps.compLoop _) Ends.compressWrap))))

theorem Ends.decompressStored (s : State) : Ends s (decompressStored s) :=
  .setSeq (.bind Keeps.contStoredCopy (fun _ => .of_ok (Moved.cmdEnd _ _ _) rfl))

theorem Ends.decompressCoded (s : State) : Ends s (decompressCoded s) :=
  .setSeq (.after (Kept.decStart _) (.bind (Keeps.decLoop _) (fun b =>
    .of_ok ((Kept.decEnd b).moved.trans (Moved.decodeFinish _)) (decodeFinish_stuck _))))

theorem Ends.decompress (s : State) : Ends s (decompress s) := by
  refine .setSeq (.bind Keeps.contValidate (fun a => ?_))
  split
  · exact .of_ok (Moved.cmdEnd _ _ _) rfl
  · split
    · exact Ends.decompressStored a
    · exact Ends.decompressCoded a

/-- Every operation ends as `Ends` says. -/
theorem exec_ends (i : Instr) (s : State) :
    ∃ r, exec i s = toOutcome r ∧ Ends s r ∧ (isCommand i = false → ∀ f, r = .error (.fault f) → f = .srcReadOnly) := by
  cases hi : isCommand i with
  | true =>
    cases i <;> try cases hi
    · exact ⟨_, rfl, Ends.compress s, fun h => (by cases h)⟩
    · exact ⟨_, rfl, Ends.decompress s, fun h => (by cases h)⟩
  | false =>
    obtain ⟨r, e, h⟩ := exec_keeps hi s
    refine ⟨r, e, ⟨fun t q => ⟨(h.kept q).moved, (h.kept q).stuck⟩, fun t q => ⟨s.seq, h.stuck t q⟩,
      fun f q => (h.fault f q).imp id And.left⟩, fun _ f q => ?_⟩
    rcases h.fault f q with h1 | h1
    · exact h1
    · cases h1.2

theorem exec_moved {i : Instr} {s t : State} (h : exec i s = .next t) : Moved s t := by
  obtain ⟨r, e, h1, _⟩ := exec_ends i s
  rw [e, toOutcome_eq_next] at h
  rcases h with h | h
  · exact (h1.ok t h).1
  · obtain ⟨q, h2⟩ := h1.stuck t h
    exact (Moved.setSeq s q).trans h2.moved

/-! ### The sequencer -/

theorem Moved.compNext (s : State) : Moved s (compNext s) := by
  unfold Machine.compNext
  split
  · split <;> exact Moved.issue _ _
  · split
    · exact (Moved.wrapCoded _).trans (Moved.issue _ _)
    · exact (Moved.setSeq _ _).trans (Moved.issue _ _)

theorem Moved.validateNext (s : State) : Moved s (validateNext s) := by
  unfold Machine.validateNext
  split
  · exact Moved.cmdEnd _ _ _
  · split <;> exact (Moved.setSeq _ _).trans (Moved.issue _ _)

theorem Moved.decNext (s : State) : Moved s (decNext s) := by
  unfold Machine.decNext
  split <;> exact Moved.issue _ _

theorem Moved.decReadNext (s : State) : Moved s (decReadNext s) := by
  unfold Machine.decReadNext
  split
  · split <;> exact Moved.issue _ _
  · exact Moved.decNext _

theorem Moved.decClassifyNext (s : State) : Moved s (decClassifyNext s) := by
  unfold Machine.decClassifyNext
  split
  · exact Moved.decNext _
  · exact Moved.issue _ _

theorem Moved.decExpandNext (s : State) : Moved s (decExpandNext s) := by
  unfold Machine.decExpandNext
  dsimp only
  split
  · exact Moved.decNext _
  · split
    · exact (Kept.roomCheck _).moved.trans (Moved.decNext _)
    · exact (Kept.roomCheck _).moved.trans (Moved.issue _ _)

theorem Moved.sequenceNext (i : Instr) (s : State) : Moved s (sequenceNext i s) := by
  unfold Machine.sequenceNext
  split <;> (try split) <;> first
    | exact Moved.refl _
    | exact Moved.issue _ _
    | exact Moved.cmdEnd _ _ _
    | exact Moved.compNext _
    | exact Moved.validateNext _
    | exact Moved.decNext _
    | exact Moved.decReadNext _
    | exact Moved.decClassifyNext _
    | exact Moved.decExpandNext _
    | exact Moved.decodeFinish _

theorem Moved.beginCompress (s : State) : Moved s (beginCompress s) := by
  unfold Machine.beginCompress
  split
  · exact Moved.cmdEnd _ _ _
  · exact (Moved.setSeq _ _).trans (Moved.issue _ _)

theorem Moved.beginDecompress (s : State) : Moved s (beginDecompress s) :=
  (Moved.setSeq _ _).trans (Moved.issue _ _)

/-- Everything a move of the engine can do. -/
theorem engineStep_moved {s t : State} (h : engineStep s = .next t) : Moved s t := by
  unfold engineStep at h
  split at h
  · rename_i i _
    cases he : exec i (s.setOp none) with
    | next u =>
      rw [he] at h
      cases h
      refine (Moved.setOp _ _).trans ((exec_moved he).trans ?_)
      split
      · exact Moved.sequenceNext _ _
      · exact Moved.refl _
    | fault f => rw [he] at h; cases h
    | refused f => rw [he] at h; cases h
  · cases h
  · unfold beginCommand at h
    split at h
    · split at h
      · cases h; exact Moved.beginCompress _
      · cases h; exact Moved.beginDecompress _
      · cases h
    · cases h

/-! ### Moves of the host -/

/-- What a host line keeps. -/
structure HostMoved (s t : State) : Prop where
  /-- the canonical form stays -/
  canon : canonical s = true → canonical t = true
  /-- the dictionaries' registers stay legal -/
  widths : widthsLegal s → widthsLegal t
  /-- STATUS stays legal -/
  status : statusLegal s.status → statusLegal t.status

theorem HostMoved.setSrc {s : State} {m : List Host.Cell} (h : memFits s.par.srcCap s.src → memFits s.par.srcCap m) :
    HostMoved s (s.setSrc m) := by
  refine ⟨?_, id, id⟩
  simp only [canonical_iff]
  exact fun x => ⟨h x.1, x.2⟩

theorem HostMoved.cmdAccept (v : Byte) (s : State) : HostMoved s (cmdAccept v s) := by
  unfold Machine.cmdAccept
  split
  · exact ⟨id, id, id⟩
  · dsimp only
    split
    · split <;> exact ⟨id, id, fun _ => statusLegal_statusOf _ _ _ (by simp)⟩
    · exact ⟨id, id, fun _ => statusLegal_statusOf _ _ _ (by simp)⟩

theorem HostMoved.busWrite {off : Nat} {v : Word32} {s t : State} (h : busWrite off v s = .next t) :
    HostMoved s t := by
  unfold Machine.busWrite at h
  split at h
  · cases h; exact HostMoved.cmdAccept _ _
  · split at h
    · cases h
    · cases h; exact ⟨id, id, id⟩
  · cases h; exact ⟨id, id, id⟩

theorem HostMoved.resetInput (s : State) : HostMoved s (resetInput s) := by
  refine ⟨?_, fun _ => ⟨.inl rfl, ?_, ?_⟩, fun _ => ?_⟩
  · simp only [canonical_iff]
    exact fun x => ⟨memFits_writeFree _ _ _ x.1 (Nat.le_of_eq (Nat.zero_add s.par.srcCap)),
      memFits_writeFree _ _ _ x.2.1 (Nat.le_of_eq (Nat.zero_add s.par.dstCap)),
      ⟨rfl, rfl, rfl, rfl⟩, ⟨rfl, rfl, rfl, rfl⟩, rfl⟩
  · intro h
    rcases h with h | h <;> exact absurd (show (0 : BitVec 4) = _ from h) (by decide)
  · intro h
    rcases h with h | h <;> exact absurd (show (0 : BitVec 4) = _ from h) (by decide)
  · show statusLegal 0x00
    unfold statusLegal
    decide

/-- Everything a line of the host keeps. -/
theorem hostLine_moved {l : HostLine} {s t : State} (h : hostLine l s = .next t) : HostMoved s t := by
  cases l <;> simp only [hostLine] at h
  case src a bytes =>
    unfold hostSrc at h
    split at h
    · cases h
    · split at h
      · rename_i hb
        cases h
        exact HostMoved.setSrc (fun x => memFits_writeList _ _ x hb)
      · cases h
  case len => exact HostMoved.busWrite h
  case cmd => exact HostMoved.busWrite h
  case wait =>
    unfold hostWait at h
    dsimp only at h
    split at h <;> (cases h; exact ⟨id, id, id⟩)
  case copyback =>
    unfold hostCopyback at h
    dsimp only at h
    split at h
    · cases h
    · split at h
      · rename_i hn
        cases h
        have := HostMoved.setSrc (s := s) (m := Memory.writeList (Memory.readList s.dst s.resultLen.toNat 0) 0 s.src)
          (fun x => memFits_writeList _ _ x (by rw [Memory.length_readList]; omega))
        exact ⟨this.canon, this.widths, this.status⟩
      · cases h
  case comment => cases h; exact ⟨id, id, id⟩
  case write => exact HostMoved.busWrite h
  case read =>
    unfold hostRead at h
    split at h
    · cases h
    · cases h; exact ⟨id, id, id⟩
  case readDst =>
    unfold hostReadDst at h
    split at h
    · cases h
    · split at h
      · cases h; exact ⟨id, id, id⟩
      · cases h
  case reset => cases h; exact HostMoved.resetInput s

/-- Whoever moves, only the host's lines and the count of turns have changed before. -/
theorem mover_frame {s t : State} (h : mover s = .engine t ∨ ∃ l, mover s = .host l t) :
    t = { s with host := t.host, turn := t.turn } := by
  unfold mover at h
  rcases h with h | ⟨l, h⟩ <;> (repeat' split at h) <;> cases h <;> rfl

end Sys2Proof.Machine
end

