-- ==== Sys2Proof/Laws/PerInstr.lean ====
section
/-! SUPPORT. The family of per-instruction statements: what is said of each operation as syntax, one lemma
for each constructor of `Instr`. -/

namespace Sys2Proof.Laws.Encoding

open Sys2Proof

/-- The encoding of an operation is one byte (30_encoding R81), which decodes to it with nothing left over
(R82, R83), and which as a word of the opcode table names it. -/
def Statement (i : Instr) : Prop :=
  (encode i).length = 1 ∧ decode (encode i) = .instr i []
    ∧ decodeTableWord 8 (opcodeOf i).toNat = some i

theorem compress : Statement .compress := by unfold Statement; decide

theorem decompress : Statement .decompress := by unfold Statement; decide

theorem getBit : Statement .getBit := by unfold Statement; decide

theorem setBit : Statement .setBit := by unfold Statement; decide

theorem extractU32 : Statement .extractU32 := by unfold Statement; decide

theorem orU32At : Statement .orU32At := by unfold Statement; decide

theorem dictInit : Statement .dictInit := by unfold Statement; decide

theorem dictWidth : Statement .dictWidth := by unfold Statement; decide

theorem dictLookup : Statement .dictLookup := by unfold Statement; decide

theorem dictEligible : Statement .dictEligible := by unfold Statement; decide

theorem dictNextSlot : Statement .dictNextSlot := by unfold Statement; decide

theorem dictUnlink : Statement .dictUnlink := by unfold Statement; decide

theorem dictInsert : Statement .dictInsert := by unfold Statement; decide

theorem dictReadWidth : Statement .dictReadWidth := by unfold Statement; decide

theorem compPrescan : Statement .compPrescan := by unfold Statement; decide

theorem compStart : Statement .compStart := by unfold Statement; decide

theorem compStepFirst : Statement .compStepFirst := by unfold Statement; decide

theorem compStep : Statement .compStep := by unfold Statement; decide

theorem compEmit : Statement .compEmit := by unfold Statement; decide

theorem compFinish : Statement .compFinish := by unfold Statement; decide

theorem decStart : Statement .decStart := by unfold Statement; decide

theorem decRead : Statement .decRead := by unfold Statement; decide

theorem decFirst : Statement .decFirst := by unfold Statement; decide

theorem decClassify : Statement .decClassify := by unfold Statement; decide

theorem decExpand : Statement .decExpand := by unfold Statement; decide

theorem decInsert : Statement .decInsert := by unfold Statement; decide

theorem decPop : Statement .decPop := by unfold Statement; decide

theorem decEnd : Statement .decEnd := by unfold Statement; decide

theorem contWriteHeader : Statement .contWriteHeader := by unfold Statement; decide

theorem contStored : Statement .contStored := by unfold Statement; decide

theorem contParseHeader : Statement .contParseHeader := by unfold Statement; decide

theorem contValidate : Statement .contValidate := by unfold Statement; decide

theorem contStoredCopy : Statement .contStoredCopy := by unfold Statement; decide

end Sys2Proof.Laws.Encoding
end

