-- ==== Sys2Proof/Laws/Rules.lean ====
section
/-! SUPPORT. A host command taken rule by rule: what the sequencer reaches from each operation it issues,
beside the whole command (00_scope R17). -/

namespace Sys2Proof.Machine

open Sys2Proof Sys2Proof.Safety

/-- Some number of steps lead from `s` to `t`. -/
def Reaches (s t : State) : Prop := ∃ k, core.run k s = .next t

theorem Reaches.refl (s : State) : Reaches s s := ⟨0, rfl⟩

theorem run_succ (M : Host.Core) {k : Nat} {s u : M.State} (h : M.step s = .next u) :
    M.run (k + 1) s = M.run k u := by
  rw [Host.Core.run, h]

theorem Reaches.head {s u t : State} (h : step s = .next u) (h' : Reaches u t) : Reaches s t := by
  obtain ⟨k, hk⟩ := h'
  exact ⟨k + 1, (run_succ core h).trans hk⟩

/-- No operation waits, no host line is left, and the engine is not stuck. -/
structure Quiet (s : State) : Prop where
  op : s.op = none
  host : s.host = []
  stuck : s.stuck = none

theorem decode_opcodeOf (i : Instr) : decode [opcodeOf i] = .instr i [] := by cases i <;> rfl

theorem issue_setOp (i : Instr) {s : State} (h : s.op = none) : (issue i s).setOp none = s := by
  cases s
  cases h
  rfl

theorem engineStep_issue (i : Instr) {s : State} (h : s.op = none) :
    engineStep (issue i s) = sequenceOutcome i (exec i s) := by
  have : fetch (issue i s) = .operation i := by
    simp only [fetch, issue, State.setOp_op, decode_opcodeOf]
  rw [engineStep, this]
  dsimp only
  rw [issue_setOp i h]

/-- An issued operation runs, and the sequencer goes on from what it gives. -/
theorem Reaches.issue {i : Instr} {s u t : State} (hq : Quiet s) (he : exec i s = .next u)
    (hu : u.stuck = none) (h : Reaches (sequenceNext i u) t) : Reaches (issue i s) t := by
  refine Reaches.head (u := sequenceNext i u) ?_ h
  have hm : mover (Machine.issue i s) = .engine (Machine.issue i s) := by
    have h1 : (Machine.issue i s).host = [] := hq.host
    have h2 : engineBusy (Machine.issue i s) = true := by simp [engineBusy, Machine.issue, hq.stuck]
    unfold mover
    rw [h1]
    simp [h2]
  rw [step, hm]
  dsimp only
  rw [engineStep_issue i hq.op, he]
  exact congrArg Host.Outcome.next (if_pos hu)

theorem Kept.quiet {s t : State} (h : Kept s t) (hq : Quiet s) : Quiet t := by
  have e := h.frame
  constructor
  · rw [e]; exact hq.op
  · rw [e]; exact hq.host
  · rw [e]; exact hq.stuck

/-- An issued operation of a unit that answers, and the sequencer goes on. -/
theorem Reaches.unit (i : Instr) {s u t : State} {r : Res State} (hq : Quiet s) (hr : r = .ok u) (hk : Kept s u)
    (h : Reaches (sequenceNext i u) t) (he : exec i s = toOutcome r := by rfl) : Reaches (Machine.issue i s) t :=
  .issue hq (he.trans (toOutcome_of_ok hr)) (hk.quiet hq).stuck h

theorem Kept.seq {s t : State} (h : Kept s t) : t.seq = s.seq := by rw [h.frame]

/-! ### COMPRESS -/

theorem compLoop_stopped {fuel : Nat} {s u : State} (h : compLoop fuel s = .ok u) :
    u.comp.state ≠ .accumulate := by
  induction fuel generalizing s with
  | zero =>
    unfold compLoop at h
    split at h
    · cases h
    · cases h; assumption
  | succ fuel ih =>
    unfold compLoop at h
    split at h
    · obtain ⟨v, _, h⟩ := Res.bind_eq_ok.1 h
      exact ih h
    · cases h; assumption

/-- The loop of COMPRESS, rule by rule. -/
theorem compLoop_reaches {fuel : Nat} {s u t : State} (h : compLoop fuel s = .ok u) (hq : Quiet s)
    (hs : s.seq = .cRun) (ht : Reaches (compNext u) t) : Reaches (compNext s) t := by
  induction fuel generalizing s with
  | zero =>
    unfold compLoop at h
    split at h
    · cases h
    · cases h; exact ht
  | succ fuel ih =>
    unfold compLoop at h
    split at h
    · rename_i ha
      obtain ⟨v, hv, h⟩ := Res.bind_eq_ok.1 h
      have hk := (Keeps.compUnitStep (loop := false)).kept hv
      have hvs : v.seq = .cRun := hk.seq.trans hs
      have hrec := ih h (hk.quiet hq) hvs
      unfold compNext
      rw [if_pos ha]
      unfold compUnitStep at hv
      split at hv
      · rename_i hlt
        rw [if_pos hlt]
        refine Reaches.unit .compStep hq hv hk ?_
        unfold sequenceNext
        rw [hvs]
        exact hrec
      · rename_i hlt
        rw [if_neg hlt]
        refine Reaches.unit .compFinish hq hv hk ?_
        unfold sequenceNext
        rw [hvs]
        exact hrec
    · cases h; exact ht

/-- The end of COMPRESS, rule by rule. -/
theorem compressWrap_reaches {u t : State} (h : compressWrap u = .ok t) (hq : Quiet u)
    (ha : u.comp.state ≠ .accumulate) : Reaches (compNext u) t := by
  unfold compNext
  rw [if_neg ha]
  unfold compressWrap at h
  split at h
  · rename_i he
    rw [if_pos he]
    obtain ⟨v, hv, h⟩ := Res.bind_eq_ok.1 h
    cases h
    have hq' : Quiet (wrapCoded u) := ⟨hq.op, hq.host, hq.stuck⟩
    have hk := (Keeps.writeHeader (loop := false) _ _ _).kept hv
    refine Reaches.unit .contWriteHeader hq' hv hk ?_
    have hvs : v.seq = .cWrap := hk.seq
    unfold sequenceNext
    rw [hvs]
    exact Reaches.refl _
  · rename_i he
    rw [if_neg he]
    obtain ⟨v, hv, h⟩ := Res.bind_eq_ok.1 h
    cases h
    have hq' : Quiet (wrapStored u) := ⟨hq.op, hq.host, hq.stuck⟩
    have hk := (Keeps.contStored (loop := false)).kept hv
    refine Reaches.unit .contStored hq' hv hk ?_
    have hvs : v.seq = .cWrap := hk.seq
    unfold sequenceNext
    rw [hvs]
    exact Reaches.refl _

/-- COMPRESS, opened by the sequencer, rule by rule. -/
theorem beginCompress_reaches {s t : State} (h : compress s = .ok t) (hq : Quiet s) :
    Reaches (beginCompress s) t := by
  unfold compress at h
  unfold beginCompress
  split at h
  · rename_i hr
    rw [if_pos hr]
    cases h
    exact Reaches.refl _
  · rename_i hr
    rw [if_neg hr]
    obtain ⟨a, h1, h⟩ := Res.bind_eq_ok.1 h
    obtain ⟨b, h2, h⟩ := Res.bind_eq_ok.1 h
    obtain ⟨c, h3, h⟩ := Res.bind_eq_ok.1 h
    obtain ⟨d, h4, h⟩ := Res.bind_eq_ok.1 h
    have q0 : Quiet (s.setSeq .cRun) := ⟨hq.op, hq.host, hq.stuck⟩
    have k1 := (Keeps.compPrescan (loop := false)).kept h1
    have k2 := (Keeps.compStart (loop := false)).kept h2
    have k3 := (Keeps.compStepFirst (loop := false)).kept h3
    have k4 := (Keeps.compLoop _).kept h4
    have q1 := k1.quiet q0
    have q2 := k2.quiet q1
    have q3 := k3.quiet q2
    have s1 : a.seq = .cRun := k1.seq
    have s2 : b.seq = .cRun := k2.seq.trans s1
    have s3 : c.seq = .cRun := k3.seq.trans s2
    refine Reaches.unit .compPrescan q0 h1 k1 ?_
    unfold sequenceNext
    rw [s1]
    refine Reaches.unit .compStart q1 h2 k2 ?_
    unfold sequenceNext
    rw [s2]
    refine Reaches.unit .compStepFirst q2 h3 k3 ?_
    unfold sequenceNext
    rw [s3]
    exact compLoop_reaches h4 q3 s3 (compressWrap_reaches h (k4.quiet q3) (compLoop_stopped h4))

/-! ### DECOMPRESS -/

theorem setBit_acc_dec {n : Nat} {s : State} {r : Bool × State} (h : setBit .acc n s = .ok r) :
    r.2.dec = s.dec := by
  unfold setBit at h
  obtain ⟨b, _, h⟩ := Res.bind_eq_ok.1 h
  obtain ⟨s', h1, h⟩ := Res.bind_eq_ok.1 h
  cases h
  simp only [writeBuf] at h1
  split at h1
  · cases h1; rfl
  · cases h1

theorem extractBits_dec {M : Buffer} {o k i : Nat} {s t : State} (h : extractBits M o k i s = .ok t) :
    t.dec = s.dec := by
  induction k generalizing i s with
  | zero => cases h; rfl
  | succ k ih =>
    unfold extractBits at h
    obtain ⟨b, _, h⟩ := Res.bind_eq_ok.1 h
    split at h
    · obtain ⟨r, h1, h⟩ := Res.bind_eq_ok.1 h
      exact (ih h).trans (setBit_acc_dec h1)
    · exact ih h

theorem extractU32_dec {M : Buffer} {o n : Nat} {s t : State} (h : extractU32 M o n s = .ok t) :
    t.dec = s.dec := by
  unfold extractU32 at h
  split at h
  · exact (extractBits_dec h : t.dec = (s.setAcc 0).dec)
  · cases h

theorem decRead_state {s t : State} (h : decRead s = .ok t) :
    (t.ports.code.isSome = true → t.dec.state = s.dec.state)
      ∧ (t.ports.code.isSome = false → t.dec.state = .done) := by
  unfold decRead at h
  split at h
  · cases h
    exact ⟨fun x => by simp [decReadEnd] at x, fun _ => rfl⟩
  · dsimp only at h
    split at h
    · cases h
      exact ⟨fun x => by simp [decReadEnd] at x, fun _ => rfl⟩
    · unfold decReadCode at h
      obtain ⟨u, h1, h⟩ := Res.bind_eq_ok.1 h
      cases h
      have : u.dec = s.dec := extractU32_dec h1
      refine ⟨fun _ => ?_, fun x => by simp at x⟩
      show u.dec.state = s.dec.state
      rw [this]

/-- One unit step of DECOMPRESS, rule by rule. -/
theorem decUnitStep_reaches {s v t : State} (h : decUnitStep s = .ok v) (hq : Quiet s)
    (hs : s.seq = .dRun) (hn : s.dec.stopped = false) (ht : Reaches (decNext v) t) :
    Reaches (decNext s) t := by
  unfold decUnitStep at h
  unfold decNext
  cases hst : s.dec.state with
  | awaitFirstCode =>
    rw [hst] at h
    dsimp only at h ⊢
    obtain ⟨u, h1, h⟩ := Res.bind_eq_ok.1 h
    have k1 := (Keeps.decRead (loop := false)).kept h1
    have su : u.seq = .dRun := k1.seq.trans hs
    obtain ⟨r1, r2⟩ := decRead_state h1
    refine Reaches.unit .decRead hq h1 k1 ?_
    unfold sequenceNext decReadNext
    rw [su]
    dsimp only
    split at h
    · rename_i hc
      rw [if_pos hc, if_pos ((r1 hc).trans hst)]
      have k2 := (Keeps.decFirst (loop := false)).kept h
      refine Reaches.unit .decFirst (k1.quiet hq) h k2 ?_
      unfold sequenceNext
      rw [k2.seq.trans su]
      exact ht
    · rename_i hc
      cases h
      rw [if_neg hc]
      exact ht
  | awaitNextCode =>
    rw [hst] at h
    dsimp only at h ⊢
    obtain ⟨u, h1, h⟩ := Res.bind_eq_ok.1 h
    have k1 := (Keeps.decRead (loop := false)).kept h1
    have su : u.seq = .dRun := k1.seq.trans hs
    obtain ⟨r1, r2⟩ := decRead_state h1
    have hq1 := k1.quiet hq
    refine Reaches.unit .decRead hq h1 k1 ?_
    unfold sequenceNext decReadNext
    rw [su]
    dsimp only
    split at h
    · rename_i hc
      cases h
      rw [if_pos hc, if_neg (by rw [r1 hc, hst]; simp)]
      unfold decNextCode at ht
      dsimp only at ht
      have k2 := Kept.decClassify u
      have sa := k2.seq.trans su
      have hq2 := k2.quiet hq1
      refine Reaches.unit .decClassify hq1 rfl k2 ?_
      unfold sequenceNext
      rw [sa]
      dsimp only
      unfold decClassifyNext
      generalize decClassify u = a at *
      split
      · rename_i he
        simp only [if_pos he] at ht
        exact ht
      · rename_i he
        simp only [if_neg he] at ht
        have k3 := Kept.decExpand a
        have sb := k3.seq.trans sa
        have hq3 := k3.quiet hq2
        refine Reaches.unit .decExpand hq2 rfl k3 ?_
        unfold sequenceNext
        rw [sb]
        dsimp only
        unfold decExpandNext
        generalize decExpand a = b at *
        split
        · rename_i he2
          simp only [if_pos he2] at ht
          exact ht
        · rename_i he2
          simp only [if_neg he2] at ht
          dsimp only
          have k4 := Kept.roomCheck b
          have sc := k4.seq.trans sb
          have hq4 := k4.quiet hq3
          generalize roomCheck b = c at *
          split
          · rename_i he3
            simp only [if_pos he3] at ht
            exact ht
          · rename_i he3
            simp only [if_neg he3] at ht
            refine Reaches.unit .decInsert hq4 rfl (Kept.decInsert c) ?_
            unfold sequenceNext
            rw [(Kept.decInsert c).seq.trans sc]
            exact ht
    · rename_i hc
      cases h
      rw [if_neg hc]
      exact ht
  | emitFromStack =>
    rw [hst] at h
    dsimp only at h ⊢
    have k1 := (Keeps.decPop (loop := false)).kept h
    refine Reaches.unit .decPop hq h k1 ?_
    unfold sequenceNext
    rw [k1.seq.trans hs]
    exact ht
  | done => simp [Dec.stopped, hst] at hn
  | error => simp [Dec.stopped, hst] at hn

/-- The loop of DECOMPRESS, rule by rule; it leaves the Decompressor stopped. -/
theorem decLoop_reaches {fuel : Nat} {s u t : State} (h : decLoop fuel s = .ok u) (hq : Quiet s)
    (hs : s.seq = .dRun) (ht : u.dec.stopped = true → Reaches (decNext u) t) :
    Reaches (decNext s) t := by
  induction fuel generalizing s with
  | zero =>
    unfold decLoop at h
    split at h
    · cases h; exact ht ‹_›
    · cases h
  | succ fuel ih =>
    unfold decLoop at h
    split at h
    · cases h; exact ht ‹_›
    · rename_i hn
      obtain ⟨v, hv, h⟩ := Res.bind_eq_ok.1 h
      have hk := (Keeps.decUnitStep (loop := false)).kept hv
      exact decUnitStep_reaches hv hq hs (by simpa using hn) (ih h (hk.quiet hq) (hk.seq.trans hs))

/-- DECOMPRESS, opened by the sequencer, rule by rule. -/
theorem beginDecompress_reaches {s t : State} (h : decompress s = .ok t) (hq : Quiet s) :
    Reaches (beginDecompress s) t := by
  unfold decompress at h
  unfold beginDecompress
  obtain ⟨a, h1, h⟩ := Res.bind_eq_ok.1 h
  have q0 : Quiet (s.setSeq .dCheck) := ⟨hq.op, hq.host, hq.stuck⟩
  have k1 := (Keeps.contValidate (loop := false)).kept h1
  have q1 := k1.quiet q0
  have s1 : a.seq = .dCheck := k1.seq
  refine Reaches.unit .contValidate q0 h1 k1 ?_
  unfold sequenceNext
  rw [s1]
  dsimp only
  unfold validateNext
  split at h
  · rename_i hr
    cases h
    rw [if_pos hr]
    exact Reaches.refl _
  · rename_i hr
    rw [if_neg hr]
    split at h
    · rename_i ht
      rw [if_pos ht]
      unfold decompressStored at h
      obtain ⟨b, h2, h⟩ := Res.bind_eq_ok.1 h
      cases h
      have q2 : Quiet (a.setSeq .dStored) := ⟨q1.op, q1.host, q1.stuck⟩
      have k2 := (Keeps.contStoredCopy (loop := false)).kept h2
      refine Reaches.unit .contStoredCopy q2 h2 k2 ?_
      have s2 : b.seq = .dStored := k2.seq
      unfold sequenceNext
      rw [s2]
      exact Reaches.refl _
    · rename_i ht
      rw [if_neg ht]
      unfold decompressCoded at h
      dsimp only at h
      obtain ⟨b, h2, h⟩ := Res.bind_eq_ok.1 h
      cases h
      have q2 : Quiet (a.setSeq .dRun) := ⟨q1.op, q1.host, q1.stuck⟩
      have k2 := Kept.decStart (a.setSeq .dRun)
      have s2 : (decStart (a.setSeq .dRun)).seq = .dRun := k2.seq
      have k3 := (Keeps.decLoop _).kept h2
      refine Reaches.unit .decStart q2 rfl k2 ?_
      unfold sequenceNext
      rw [s2]
      dsimp only
      refine decLoop_reaches h2 (k2.quiet q2) s2 (fun hb => ?_)
      have hd : decNext b = issue .decEnd b := by
        unfold Dec.stopped at hb
        unfold decNext
        cases hst : b.dec.state <;> rw [hst] at hb <;> first | rfl | cases hb
      rw [hd]
      refine Reaches.unit .decEnd (k3.quiet (k2.quiet q2)) rfl (Kept.decEnd b) ?_
      have s3 : (decEnd b).seq = .dRun := (Kept.decEnd b).seq.trans (k3.seq.trans s2)
      unfold sequenceNext
      rw [s3]
      exact Reaches.refl _

end Sys2Proof.Machine
end

