-- ==== Sys2Proof/Tests/Slice0.lean ====
section
/-! SUPPORT. The model's own tests: what well-formedness refuses, every operation's word written out from
30_encoding R82 and R83, one step of each operation on a small state with a result from
95_test_vectors, and a witness for each statement that has hypotheses. -/

namespace Sys2Proof.Tests

open Sys2Proof Sys2Proof.Machine Sys2Proof.Safety

/-! ### Helpers -/

/-- Whether an outcome is a next state with a property. -/
def nextIs (o : Host.Outcome State Fault Refusal) (p : State → Bool) : Bool :=
  match o with
  | .next t => p t
  | .fault _ => false
  | .refused _ => false

/-- Whether an outcome is the fault `f`. -/
def faultIs (o : Host.Outcome State Fault Refusal) (f : Fault) : Bool :=
  match o with
  | .next _ => false
  | .fault g => decide (g = f)
  | .refused _ => false

/-- Whether an outcome is the refusal `r`. -/
def refusedIs (o : Host.Outcome State Fault Refusal) (r : Refusal) : Bool :=
  match o with
  | .next _ => false
  | .fault _ => false
  | .refused q => decide (q = r)

theorem next_of {o : Host.Outcome State Fault Refusal} {p : State → Bool} (h : nextIs o p = true) :
    ∃ t, o = .next t ∧ p t = true := by
  cases o with
  | next t => exact ⟨t, rfl, h⟩
  | fault f => cases h
  | refused r => cases h

/-- `ended` as a Bool. -/
def isEnded (r : ResultCode) (s : State) : Bool :=
  !s.busy && s.done && decide (statusReserved s.status = 0) && decide (statusResult s.status = resultBits r)
    && decide (s.seq = .idle)

theorem ended_of {r : ResultCode} {s : State} (h : isEnded r s = true) : ended r s := by
  simpa [isEnded, ended, and_assoc] using h

/-- Small memories. -/
def small : State :=
  { State.reset with par := { Config.Params.default with srcCap := 64, dstCap := 64 } }

/-- A source in SRC, and its length in SRC_LEN. -/
def withSource (bs : List Byte) : State :=
  { small with src := Memory.writeList bs 0 [], srcLen := BitVec.ofNat 32 bs.length }

/-- Bytes in DST. -/
def withDst (bs : List Byte) : State := { small with dst := Memory.writeList bs 0 [] }

/-- The operands of a BitField operation. -/
def bitOperands (M : Buffer) (o : BitCursor) (n p : Word32) (s : State) : State :=
  { s with ports := { s.ports with buf := M, bitIndex := o, bitCount := n, pattern := p } }

/-- A dictionary in DICT_C, with the operands of a Dictionary operation. -/
def dictOperands (d : Dict) (P slot : Code) (B : Byte) : State :=
  { small with dictC := d, ports := { small.ports with pfx := P, slot := slot, byte := B } }

/-- The table after DICT_INIT with MIN_BITS 7. -/
def fresh : Dict := dictInit 7 Dict.reset

/-- The source `41 41 41 41 42` of 95_test_vectors 1.6. -/
def aaaab : State := withSource [0x41, 0x41, 0x41, 0x41, 0x42]

/-- The container of `aaaab` (95_test_vectors 1.6), with its `es`, its type tag and its payload. -/
def container (cs es tag : Byte) (payload : List Byte) : List Byte :=
  [cs, 0, 0, 0, 0, 0, 0, 0, es, 0, 0, 0, 0, 0, 0, 0, tag] ++ payload

/-- DECOMPRESS of the container of `aaaab`. -/
def aaaabBack : State := withSource (container 0x15 5 2 [0x41, 0x80, 0x41, 0x42])

/-! ### Well-formedness refuses -/

theorem test_wf_command : WellFormed.command 0x10 = false ∧ WellFormed.command 0x02 = true := by decide

theorem test_wf_params_header : WellFormed.params { Config.Params.default with srcCap := 16 } = false := by
  decide

theorem test_wf_params_length :
    WellFormed.params { Config.Params.default with maxSrcLen := 2 ^ 32 - 17 } = false := by decide

theorem test_wf_params_default : WellFormed.params Config.Params.default = true := by decide

theorem test_wf_line_src : WellFormed.line small.par (.src 63 [1, 2]) = false := by decide

theorem test_wf_line_dst : WellFormed.line small.par (.readDst 64) = false := by decide

theorem test_wf_program : WellFormed.program small.par [.len 1, .readDst 64, .wait] = false := by decide

/-! ### Every operation's word (30_encoding R82, R83) -/

theorem test_word_compress : decodeTableWord 8 0b00000001 = some .compress := by decide

theorem test_word_decompress : decodeTableWord 8 0b00000010 = some .decompress := by decide

theorem test_word_getBit : decodeTableWord 8 0b00010000 = some .getBit := by decide

theorem test_word_setBit : decodeTableWord 8 0b00010001 = some .setBit := by decide

theorem test_word_extractU32 : decodeTableWord 8 0b00010010 = some .extractU32 := by decide

theorem test_word_orU32At : decodeTableWord 8 0b00010011 = some .orU32At := by decide

theorem test_word_dictInit : decodeTableWord 8 0b00100000 = some .dictInit := by decide

theorem test_word_dictWidth : decodeTableWord 8 0b00100001 = some .dictWidth := by decide

theorem test_word_dictLookup : decodeTableWord 8 0b00100010 = some .dictLookup := by decide

theorem test_word_dictEligible : decodeTableWord 8 0b00100011 = some .dictEligible := by decide

theorem test_word_dictNextSlot : decodeTableWord 8 0b00100100 = some .dictNextSlot := by decide

theorem test_word_dictUnlink : decodeTableWord 8 0b00100101 = some .dictUnlink := by decide

theorem test_word_dictInsert : decodeTableWord 8 0b00100110 = some .dictInsert := by decide

theorem test_word_dictReadWidth : decodeTableWord 8 0b00100111 = some .dictReadWidth := by decide

theorem test_word_compPrescan : decodeTableWord 8 0b00110000 = some .compPrescan := by decide

theorem test_word_compStart : decodeTableWord 8 0b00110001 = some .compStart := by decide

theorem test_word_compStepFirst : decodeTableWord 8 0b00110010 = some .compStepFirst := by decide

theorem test_word_compStep : decodeTableWord 8 0b00110011 = some .compStep := by decide

theorem test_word_compEmit : decodeTableWord 8 0b00110100 = some .compEmit := by decide

theorem test_word_compFinish : decodeTableWord 8 0b00110101 = some .compFinish := by decide

theorem test_word_decStart : decodeTableWord 8 0b01000000 = some .decStart := by decide

theorem test_word_decRead : decodeTableWord 8 0b01000001 = some .decRead := by decide

theorem test_word_decFirst : decodeTableWord 8 0b01000010 = some .decFirst := by decide

theorem test_word_decClassify : decodeTableWord 8 0b01000011 = some .decClassify := by decide

theorem test_word_decExpand : decodeTableWord 8 0b01000100 = some .decExpand := by decide

theorem test_word_decInsert : decodeTableWord 8 0b01000101 = some .decInsert := by decide

theorem test_word_decPop : decodeTableWord 8 0b01000110 = some .decPop := by decide

theorem test_word_decEnd : decodeTableWord 8 0b01000111 = some .decEnd := by decide

theorem test_word_contWriteHeader : decodeTableWord 8 0b01010000 = some .contWriteHeader := by decide

theorem test_word_contStored : decodeTableWord 8 0b01010001 = some .contStored := by decide

theorem test_word_contParseHeader : decodeTableWord 8 0b01010010 = some .contParseHeader := by decide

theorem test_word_contValidate : decodeTableWord 8 0b01010011 = some .contValidate := by decide

theorem test_word_contStoredCopy : decodeTableWord 8 0b01010100 = some .contStoredCopy := by decide

theorem test_word_rejected : decode [0x03] = .unassigned 0x03 ∧ decode [] = .noBytes := by decide

theorem test_first_after_reset :
    nextIs (step (State.reset.withFetchWord 8 0x01)) (isEnded .ok) = true
      ∧ nextIs (step (State.reset.withFetchWord 8 0x02)) (isEnded .framing) = true
      ∧ nextIs (step (State.reset.withFetchWord 8 0x54)) (fun t => t.ports.length == 0) = true := by
  decide

/-! ### One step of each operation (95_test_vectors) -/

/-- B1. -/
theorem test_getBit_b1 :
    nextIs (exec .getBit (bitOperands .src 10 0 0 (withSource [0x00, 0x04]))) (fun t => t.ports.bit) = true := by
  decide

/-- B4. -/
theorem test_getBit_b4 :
    nextIs (exec .getBit (bitOperands .src 7 0 0 (withSource [0x7F]))) (fun t => !t.ports.bit) = true := by
  decide

/-- B5. -/
theorem test_setBit_b5 :
    nextIs (exec .setBit (bitOperands .dst 3 0 0 (withDst [0x01])))
      (fun t => !t.ports.bit && t.dst == [(0, 0x09)]) = true := by decide

/-- B7. -/
theorem test_setBit_b7 :
    nextIs (exec .setBit (bitOperands .dst 15 0 0 (withDst [0x00, 0x00])))
      (fun t => !t.ports.bit && t.dst == [(1, 0x80)]) = true := by decide

/-- B13. -/
theorem test_extractU32_b13 :
    nextIs (exec .extractU32 (bitOperands .src 7 12 0 (withSource [0x80, 0x00, 0x04])))
      (fun t => t.acc == 0x801) = true := by decide

/-- B14. -/
theorem test_extractU32_b14 :
    nextIs (exec .extractU32 (bitOperands .src 4 32 0 (withSource [0x10, 0x32, 0x54, 0x76, 0x08])))
      (fun t => t.acc == 0x87654321) = true := by decide

/-- B17. -/
theorem test_orU32At_b17 :
    nextIs (exec .orU32At (bitOperands .dst 7 0 0xFFF (withDst [])))
      (fun t => Memory.readList t.dst 4 0 == [0x80, 0xFF, 0x07, 0x00]) = true := by decide

/-- B20. -/
theorem test_orU32At_b20 :
    nextIs (exec .orU32At (bitOperands .dst 4 0 0xFFFFFFFF (withDst [])))
      (fun t => Memory.readList t.dst 4 0 == [0xF0, 0xFF, 0xFF, 0xFF]) = true := by decide

/-- 2.2, initial state with MIN_BITS 8. -/
theorem test_dictInit :
    nextIs (exec .dictInit { small with ports := { small.ports with minBits := 8 } })
      (fun t => t.dictC.codeWidth == 9 && t.dictC.ceiling == 512 && t.dictC.nextFree == 256
        && !t.dictC.full && t.dictC.recycleCursor == 4095) = true := by decide

/-- 2.2, width function. -/
theorem test_dictWidth :
    [128, 255, 256, 511, 512, 1023, 1024, 2047, 2048, 4095, 4096].map dictWidth
      = [8, 8, 9, 9, 10, 10, 11, 11, 12, 12, 12] := by decide

/-- 2.2, lookup: chain 41 is `130 -> 128`. -/
theorem test_dictLookup :
    nextIs (exec .dictLookup (dictOperands
      (dictInsert 0x41 0x42 (dictInsert 0x80 0x41 (dictInsert 0x41 0x41 fresh).2).2).2 0x41 0 0x42))
      (fun t => t.ports.code == some 130) = true := by decide

/-- 2.2, eligibility. -/
theorem test_dictEligible :
    nextIs (exec .dictEligible (dictOperands (fresh.putHead 300 (some 301)) 7 301 0)) (fun t => t.ports.bit) = true
      ∧ nextIs (exec .dictEligible (dictOperands (fresh.putHead 300 (some 301)) 7 300 0))
        (fun t => !t.ports.bit) = true := by decide

/-- N2: the scan wraps and skips the prefix. -/
theorem test_dictNextSlot_n2 :
    nextIs (exec .dictNextSlot (dictOperands
      { fresh with full := true, recycleCursor := 4094, head := [(4095, some 200)] } 128 0 0))
      (fun t => t.ports.code == some 129) = true := by decide

/-- Chain 65 of 2.2: `300 -> 290 -> 280`. -/
def chain65 : Dict :=
  { fresh with
    pfx := [(280, 65), (290, 65), (300, 65)], head := [(65, some 300)]
    link := [(290, some 280), (300, some 290)] }

/-- 2.2, unlink of the middle. -/
theorem test_dictUnlink_middle :
    nextIs (exec .dictUnlink (dictOperands chain65 0 290 0))
      (fun t => t.dictC.linkAt 300 == some 280 && t.dictC.headAt 65 == some 300) = true := by decide

/-- 2.2, unlink of the head. -/
theorem test_dictUnlink_head :
    nextIs (exec .dictUnlink (dictOperands chain65 0 300 0))
      (fun t => t.dictC.headAt 65 == some 290) = true := by decide

/-- 2.2, first growth. -/
theorem test_dictInsert_growth :
    nextIs (exec .dictInsert (dictOperands { fresh with nextFree := 255 } 0x41 0 0x41))
      (fun t => t.ports.code == some 255 && t.dictC.nextFree == 256 && t.dictC.codeWidth == 9
        && t.dictC.ceiling == 512) = true := by decide

/-- The start of 2.2's recycling insertion. -/
def recycling : Dict :=
  { fresh with
    codeWidth := 12, ceiling := 4096, nextFree := 4096, full := true, recycleCursor := 4095
    pfx := [(129, 66)], trailing := [(129, 0x30)], head := [(66, some 129), (128, some 200)] }

/-- 2.2, recycling insertion. -/
theorem test_dictInsert_recycling :
    nextIs (exec .dictInsert (dictOperands recycling 65 0 0x42))
      (fun t => t.ports.code == some 129 && t.dictC.headAt 66 == none && t.dictC.headAt 65 == some 129
        && t.dictC.pfxAt 129 == 65 && t.dictC.trailingAt 129 == 0x42 && t.dictC.recycleCursor == 129
        && t.dictC.nextFree == 4096) = true := by decide

/-- 2.2, read width one bit ahead. -/
theorem test_dictReadWidth :
    nextIs (exec .dictReadWidth (dictOperands { fresh with nextFree := 255 } 0 0 0))
      (fun t => t.ports.width == 9) = true := by decide

/-- 1.3, prescan. -/
theorem test_compPrescan :
    nextIs (exec .compPrescan (withSource [0x41, 0xFF])) (fun t => t.ports.minBits == 8) = true
      ∧ nextIs (exec .compPrescan aaaab) (fun t => t.ports.minBits == 7) = true := by decide

/-- 1.6, start. -/
theorem test_compStart :
    nextIs (exec .compStart aaaab)
      (fun t => t.comp.capBits == 176 && t.comp.outBit == 136 && t.comp.srcLen == 5) = true := by
  decide

/-- 1.6, step 1, and R162 on an empty source. -/
theorem test_compStepFirst :
    nextIs (exec .compStepFirst { aaaab with comp := { aaaab.comp with srcLen := 5 } })
      (fun t => t.comp.basecode == 0x41 && t.comp.srcIndex == 1 && t.comp.state == .accumulate) = true
      ∧ nextIs (exec .compStepFirst small) (fun t => t.comp.state == .exhausted) = true := by decide

/-- The compressor before step 2 of 1.6. -/
def beforeStep2 : State :=
  { aaaab with
    dictC := fresh
    comp := { state := .accumulate, basecode := 0x41, basecodeValid := true, srcIndex := 1, srcLen := 5
              outBit := 136, capBits := 176 } }

/-- 1.6, step 2. -/
theorem test_compStep :
    nextIs (exec .compStep beforeStep2)
      (fun t => t.comp.outBit == 144 && dstByte t 17 == 0x41 && t.dictC.nextFree == 129
        && t.comp.basecode == 0x41 && t.comp.srcIndex == 2) = true := by decide

/-- R164: FAIL when the room is one bit short. -/
theorem test_compEmit_fail :
    nextIs (exec .compEmit { beforeStep2 with comp := { beforeStep2.comp with outBit := 169 } })
      (fun t => !t.ports.bit && t.dst == [] && t.comp.outBit == 169) = true := by decide

/-- R164: an exact fit. -/
theorem test_compEmit_exact :
    nextIs (exec .compEmit { beforeStep2 with comp := { beforeStep2.comp with outBit := 168 } })
      (fun t => t.ports.bit && t.comp.outBit == 176 && dstByte t 21 == 0x41) = true := by decide

/-- 1.6, step 6. -/
theorem test_compFinish :
    nextIs (exec .compFinish { beforeStep2 with comp := { beforeStep2.comp with basecode := 0x42, outBit := 160 } })
      (fun t => t.comp.state == .exhausted && t.comp.outBit == 168 && dstByte t 20 == 0x42) = true := by
  decide

/-- 1.6, decoding: the start. -/
theorem test_decStart :
    nextIs (exec .decStart { aaaabBack with hdr := { aaaabBack.hdr with cs := 21, es := 5, ctype := 2 } })
      (fun t => t.dec.budgetBits == 168 && t.dec.inBit == 136 && t.dec.expSize == 5
        && t.dictD.nextFree == 128) = true := by decide

/-- The decompressor before the second code of 1.6. -/
def beforeCode2 : State :=
  { aaaabBack with
    dictD := fresh
    dec := { Dec.reset with
      state := .awaitNextCode, prevCode := 0x41, prevValid := true, firstByte := 0x41, inBit := 144
      budgetBits := 168, outIndex := 1, expSize := 5 } }

/-- 1.6, the second code. -/
theorem test_decRead :
    nextIs (exec .decRead beforeCode2)
      (fun t => t.ports.code == some 0x80 && t.dec.curCode == 0x80 && t.dec.inBit == 152 && t.acc == 0x80) = true := by
  decide

/-- D24: seven bits left are fewer than nine. -/
theorem test_decRead_end :
    nextIs (exec .decRead { beforeCode2 with dec := { beforeCode2.dec with inBit := 161 } })
      (fun t => t.ports.code == none && t.dec.state == .done) = true := by decide

/-- D27: a first code at or above the base. -/
theorem test_decFirst :
    nextIs (exec .decFirst { beforeCode2 with dec := { beforeCode2.dec with curCode := 0xFF } })
      (fun t => t.dec.state == .error) = true
      ∧ nextIs (exec .decFirst { beforeCode2 with dec := { beforeCode2.dec with curCode := 0x7F, outIndex := 0 } })
      (fun t => dstByte t 0 == 0x7F && t.dec.outIndex == 1 && t.dec.prevCode == 0x7F) = true := by
  decide

/-- 1.6: code 80 is SELF; D17: code 81 is undefined. -/
theorem test_decClassify :
    nextIs (exec .decClassify { beforeCode2 with dec := { beforeCode2.dec with curCode := 0x80 } })
      (fun t => t.ports.kind == .self && t.ports.xcode == 0x41) = true
      ∧ nextIs (exec .decClassify { beforeCode2 with dec := { beforeCode2.dec with curCode := 0x81 } })
      (fun t => t.ports.kind == .undefined && t.dec.state == .error) = true := by decide

/-- The decompressor before the fourth code of `ABABABA` (2.4) is expanded: SELF of code 80. -/
def beforeSelf : State :=
  { beforeCode2 with
    dictD := (dictInsert 0x42 0x41 (dictInsert 0x41 0x42 fresh).2).2
    ports := { beforeCode2.ports with kind := .self, xcode := 0x80 } }

/-- 2.4: the SELF code pushes the first byte of the previous expansion. -/
theorem test_decExpand_self :
    nextIs (exec .decExpand beforeSelf)
      (fun t => stackBytes t.dec == [0x41, 0x42, 0x41] && t.dec.firstByte == 0x41) = true := by decide

/-- 1.6: the insertion after the second code. -/
theorem test_decInsert :
    nextIs (exec .decInsert { beforeCode2 with dec := { beforeCode2.dec with curCode := 0x80 } })
      (fun t => t.dictD.pfxAt 128 == 0x41 && t.dictD.trailingAt 128 == 0x41 && t.dec.prevCode == 0x80
        && t.dec.state == .emitFromStack) = true := by decide

/-- A stack of three bytes. -/
def withStack : State :=
  { beforeCode2 with dec := { beforeCode2.dec with stack := [(0, 0x43), (1, 0x42), (2, 0x41)], sp := 3 } }

/-- R197: the top of the stack goes out first. -/
theorem test_decPop :
    nextIs (exec .decPop withStack)
      (fun t => Memory.readList t.dst 4 1 == [0x41, 0x42, 0x43, 0x00] && t.dec.outIndex == 4 && t.dec.sp == 0) = true := by
  decide

/-- D7: the codes run out. -/
theorem test_decEnd :
    nextIs (exec .decEnd { beforeCode2 with dec := { beforeCode2.dec with state := .done } })
      (fun t => t.ports.result == .framing) = true := by decide

/-- K12. -/
theorem test_contWriteHeader :
    nextIs (exec .contWriteHeader { small with
        hdr := { cs := 0x12345678, csHi := 0, es := 0x0A0B0C0D, esHi := 0, ctype := 3 } })
      (fun t => Memory.readList t.dst 17 0
        == [0x78, 0x56, 0x34, 0x12, 0, 0, 0, 0, 0x0D, 0x0C, 0x0B, 0x0A, 0, 0, 0, 0, 3]) = true := by
  decide

/-- 1.3, `41 FF`. -/
theorem test_contStored :
    nextIs (exec .contStored { withSource [0x41, 0xFF] with comp := { Comp.reset with srcLen := 2 } })
      (fun t => Memory.readList t.dst 19 0 == container 0x13 2 1 [0x41, 0xFF] && t.ports.length == 19) = true := by
  decide

/-- D8: the `_hi` words are read. -/
theorem test_contParseHeader :
    nextIs (exec .contParseHeader (withSource ([0x15, 0, 0, 0, 1, 0, 0, 0, 5, 0, 0, 0, 0xFF, 0, 0, 0, 2])))
      (fun t => t.hdr == { cs := 21, csHi := 1, es := 5, esHi := 255, ctype := 2 }) = true := by decide

/-- 1.2: the type check comes before the size check; D14: a header that is cut off. -/
theorem test_contValidate :
    nextIs (exec .contValidate (withSource (container 0x16 5 4 [0x41, 0x80, 0x41, 0x42])))
      (fun t => t.ports.result == .malformed) = true
      ∧ nextIs (exec .contValidate { aaaabBack with srcLen := 16 })
      (fun t => t.ports.result == .framing) = true := by decide

/-- S1. -/
theorem test_contStoredCopy :
    nextIs (exec .contStoredCopy { withSource (container 0x14 3 1 [1, 2, 3]) with
        hdr := { Header.reset with es := 3 } })
      (fun t => Memory.readList t.dst 3 0 == [1, 2, 3] && t.ports.length == 3) = true := by decide

/-- 1.6. -/
theorem test_compress_aaaab :
    nextIs (exec .compress aaaab)
      (fun t => isEnded .ok t && Memory.readList t.dst 26 0
        == container 0x15 5 2 [0x41, 0x80, 0x41, 0x42] ++ [0, 0, 0, 0, 0]) = true := by decide +kernel

/-- 1.7, `FF FF FF FF`. -/
theorem test_compress_ff :
    nextIs (exec .compress (withSource [0xFF, 0xFF, 0xFF, 0xFF]))
      (fun t => Memory.readList t.dst 21 0 == container 0x15 4 3 [0xFF, 0x00, 0xFE, 0x03]
        && t.resultLen == 21) = true := by decide +kernel

/-- D1. -/
theorem test_decompress_aaaab :
    nextIs (exec .decompress aaaabBack)
      (fun t => isEnded .ok t && t.resultLen == 5
        && Memory.readList t.dst 5 0 == [0x41, 0x41, 0x41, 0x41, 0x42]) = true := by decide

/-- D20. -/
theorem test_decompress_framing :
    nextIs (exec .decompress (withSource (container 0x14 6 2 [0x41, 0x80, 0x82])))
      (fun t => isEnded .framing t && t.resultLen == 0 && t.status == 0x22) = true := by decide

/-! ### A stuck engine (20_memory R71, R72, 60_exceptions R278) -/

/-- A running operation that reads beyond SRC: BUSY stays 1. -/
def stuckBlock : State := (aaaab.setStatus 0x01).setStuck (some .access)

/-- D26: outside the buffer the engine gets stuck and STATUS stays; an operation cannot write SRC. -/
theorem test_stuck_access :
    nextIs (exec .getBit (bitOperands .src 40 0 0 (aaaab.setStatus 0x01))) (fun t => t.stuck == some .access
      && t.status == 0x01) = true
      ∧ faultIs (exec .setBit (bitOperands .src 0 0 0 aaaab)) .srcReadOnly = true := by decide

/-- R72: what was written before the bad access stays. -/
theorem test_stuck_partial :
    nextIs (exec .decPop { withStack with dec := { withStack.dec with outIndex := 63 } })
      (fun t => t.stuck == some .access && t.dst == [(63, 0x41)]) = true
      ∧ nextIs (exec .extractU32 (bitOperands .src 39 2 0 (withSource [0, 0, 0, 0, 0x80])))
      (fun t => t.stuck == some .access && t.acc == 0x01) = true := by decide

/-- A stuck engine does not move, the host still reads BUSY = 1, and only reset frees it. -/
theorem test_stuck_host :
    nextIs (step ((stuckBlock.setOp (some 0x10)).setHost [.read 0x4])) (fun t => t.busData == 0x01
      && t.stuck == some .access && t.op == some 0x10) = true
      ∧ nextIs (step (stuckBlock.setHost [.cmd 0x02])) (fun t => t == stuckBlock) = true
      ∧ nextIs (step (stuckBlock.setHost [.reset])) (fun t => t.stuck == none && t.status == 0x00) = true := by
  decide

/-- K2. -/
theorem test_illegal_command :
    nextIs (hostLine (.cmd 0x10) aaaab) (fun t => t.status == 0x32 && t.cmd == 0x10) = true := by decide

/-! ### Witnesses: for each statement with hypotheses, states and operands that meet them, at the values
where its clauses meet -/

/-- Which of two agents moves is a free value, so at each moment one of the two clauses applies. -/
theorem witness_hostFirst (n : Nat) : Config.hostFirst n = true ∨ Config.hostFirst n = false := by
  cases Config.hostFirst n
  · exact .inr rfl
  · exact .inl rfl

/-- A busy block. -/
def busyBlock : State := small.setStatus 0x01

theorem witness_StepRunsDecodedOperation :
    small.stuck = none ∧ stuckBlock.stuck ≠ none ∧ (small.setOp (some 0x10)).op = some 0x10 ∧ decode [0x10] = .instr .getBit []
      ∧ (small.setOp (some 0x10)).host = []
      ∧ ((small.setOp (some 0x10)).setHost [.comment]).host = .comment :: [] ∧ HostLine.comment ≠ .wait
      ∧ small.seq = .idle := by decide

theorem witness_WhoMovesNext :
    small.op = none ∧ small.busy = false ∧ small.host = [] ∧ engineBusy (small.setHost [.wait]) = false
      ∧ engineBusy ((small.setOp (some 0x10)).setHost [.cmd 0x02]) = true ∧ HostLine.cmd 0x02 ≠ .wait
      ∧ stuckBlock.stuck ≠ none ∧ stuckBlock.host = [] ∧ engineBusy (stuckBlock.setHost [.cmd 0x02]) = false
      ∧ busyBlock.stuck = none ∧ busyBlock.busy = true := by
  decide

theorem witness_RegisterBlock : ¬(busyBlock.busy = true ∧ (0x8 : Nat) = 0xC) ∧ small.busy = false ∧ (0x10 : Nat) ≠ 0x0 ∧ (0x10 : Nat) ≠ 0x4
    ∧ (0x10 : Nat) ≠ 0x8 ∧ (0x10 : Nat) ≠ 0xC := by decide

/-- A block whose engine takes commands rule by rule. -/
def ruleBlock : State := { small with par := { small.par with grain := .rule } }

/-- Both grains, with an engine that is free. -/
theorem witness_HostCommandAccepted :
    small.busy = false ∧ small.stuck = none ∧ small.par.grain = .command
      ∧ ruleBlock.busy = false ∧ ruleBlock.par.grain = .rule ∧ ruleBlock.op = none ∧ ruleBlock.seq = .idle := by
  decide

/-- CMD values on both sides of the two legal ones. -/
theorem witness_IllegalCommandEndsAtOnce :
    small.busy = false ∧ ∀ v ∈ ([0x00, 0x03, 0xFF] : List Byte), v ≠ 0x01 ∧ v ≠ 0x02 := by decide

theorem witness_HandsOffWhileBusy : busyBlock.busy = true := by decide

theorem witness_HostLinesEffects :
    small.busy = false ∧ 62 + ([1, 2] : List Byte).length ≤ small.par.srcCap ∧ 63 < small.par.dstCap
      ∧ (small.setStatus 0x02).done = true ∧ small.done = false ∧ small.resultLen.toNat ≤ small.par.srcCap := by
  decide

/-- The last bit of a two-byte source, and the bit after it. -/
theorem witness_GetBitReadsOneBit :
    (15 : BitCursor).toNat / 8 < bufSize .src (withSource [0, 0])
      ∧ bufSize .src (withSource [0, 0]) ≤ (16 : BitCursor).toNat / 8 := by decide

/-- The last bit of DST and of `acc`, a bit of SRC, and the bits after them. -/
theorem witness_SetBitSetsOneBit :
    (511 : BitCursor).toNat / 8 < bufSize .dst small ∧ (31 : BitCursor).toNat / 8 < bufSize .acc small
      ∧ (0 : BitCursor).toNat / 8 < bufSize .src aaaab ∧ bufSize .dst small ≤ (512 : BitCursor).toNat / 8 := by
  decide

/-- A field of 32 bits that ends with the buffer, one that is too wide, and one that leaves the buffer. -/
theorem witness_ExtractU32ReadsField :
    (∀ j, j < (32 : Word32).toNat → ((480 : BitCursor).toNat + j) / 8 < bufSize .dst small)
      ∧ 32 < (33 : Word32).toNat
      ∧ ∃ j, j < (32 : Word32).toNat ∧ bufSize .dst small ≤ ((481 : BitCursor).toNat + j) / 8 := by
  refine ⟨by decide, by decide, 31, by decide, by decide⟩

/-- The last four bytes of DST, the last offset in `acc`, SRC, and one byte too far. -/
theorem witness_OrU32AtOrsWord :
    (487 : BitCursor).toNat / 8 + 4 ≤ small.par.dstCap ∧ (7 : BitCursor).toNat < 8
      ∧ (0 : BitCursor).toNat / 8 + 4 ≤ bufSize .src aaaab
      ∧ bufSize .dst small < (488 : BitCursor).toNat / 8 + 4
      ∧ bufSize .acc small < (8 : BitCursor).toNat / 8 + 4 := by decide

/-- B22: a 12-bit field at offset 7. -/
theorem witness_PackThenUnpack :
    let s := bitOperands .dst 7 12 0xFFF small
    s.ports.buf = .dst ∧ s.ports.bitCount.toNat ≤ 25
      ∧ s.ports.pattern.toNat < 2 ^ s.ports.bitCount.toNat
      ∧ s.ports.bitIndex.toNat / 8 + 4 ≤ s.par.dstCap
      ∧ ∀ j, j < s.ports.bitCount.toNat → bufBit .dst s (s.ports.bitIndex.toNat + j) = false := by
  decide

theorem witness_DictInitStartsEmptyTable :
    minBitsLegal 7 ∧ minBitsLegal 8 ∧ minBitsLegal small.ports.minBits := by
  unfold minBitsLegal
  decide

/-- A full table in which every slot has a child, so that none may be recycled. -/
def noLeaf : Dict :=
  { recycling with head := (List.range 4096).map (fun i => (i, some (0 : Code))) }

theorem get_map_range {α : Type} (f : Nat → α) (d : α) (n i : Nat) (h : i < n) (k : Nat) :
    Table.get d ((List.range' k n).map (fun j => (j, f j))) (k + i) = f (k + i) := by
  induction n generalizing k i with
  | zero => omega
  | succ n ih =>
    rw [List.range'_succ, List.map_cons, Table.get]
    by_cases hi : i = 0
    · subst hi
      rw [if_pos (by omega)]
      rfl
    · rw [if_neg (by omega)]
      have h2 := ih (i - 1) (by omega) (k + 1)
      rw [show k + 1 + (i - 1) = k + i by omega] at h2
      exact h2

theorem noLeaf_headAt (x : Nat) (h : x < 4096) : noLeaf.headAt x ≠ none := by
  have h1 := get_map_range (fun _ => some (0 : Code)) none 4096 x h 0
  rw [Nat.zero_add] at h1
  unfold Dict.headAt noLeaf
  rw [List.range_eq_range', h1]
  simp

theorem noLeaf_next (P : Code) : dictNextSlot noLeaf P = none := by
  have hb : noLeaf.base = 128 := by decide
  have hc : noLeaf.recycleCursor.toNat = 4095 := by decide
  have hf : noLeaf.full = true := by decide
  have hh := noLeaf_headAt
  generalize noLeaf = d at *
  have hn : dictNextSlot d P = scanSlots d P (4096 - d.base) d.recycleCursor := by
    simp [dictNextSlot, hf, Config.dictCapacity]
  rw [hn]
  cases hs : scanSlots d P (4096 - d.base) d.recycleCursor with
  | none => rfl
  | some c =>
    obtain ⟨k, _, _, _, hr, _⟩ := (scanSlots_spec (by omega) P _ _ (by omega)).1 c hs
    exact absurd hr.1 (hh _ c.isLt)

/-- A growing table with its last free slot; a full one with a slot to recycle; a full one with none. -/
theorem witness_DictNextSlotScansCircle :
    (∀ d ∈ [{ fresh with nextFree := 4095 }, recycling],
        minBitsLegal d.minBits ∧ d.base ≤ d.recycleCursor.toNat ∧ (d.full = false → d.nextFree.toNat < 4096))
      ∧ recycling.full = true ∧ dictNextSlot recycling 65 = some 129
      ∧ (noLeaf.full = true ∧ noLeaf.base ≤ noLeaf.recycleCursor.toNat ∧ dictNextSlot noLeaf 65 = none) := by
  refine ⟨?_, rfl, by decide, rfl, by decide +kernel, noLeaf_next 65⟩
  unfold minBitsLegal
  decide

/-- Every place in the chain `300 -> 290 -> 280`. -/
theorem witness_DictUnlinkRemovesSlot :
    chainIs chain65 (chain65.headAt 65) [300, 290, 280] ∧ ([300, 290, 280] : List Code).Nodup
      ∧ (∀ s ∈ ([300, 290, 280] : List Code), (chain65.pfxAt s.toNat).toNat = 65)
      ∧ ([300, 290, 280] : List Code).length ≤ 4096 - chain65.base := by
  unfold chainIs chainIs chainIs chainIs
  decide

/-- The first insertion, the one that grows the width, and the last one. -/
theorem witness_DictInsertGrowth :
    ∀ d ∈ [fresh, { fresh with nextFree := 255 },
        { fresh with nextFree := 4095, codeWidth := 12, ceiling := 4096 }],
      dictRegs d ∧ d.full = false := by
  unfold dictRegs
  decide

theorem witness_DictInsertRecycling :
    recycling.full = true ∧ dictNextSlot recycling 65 = some 129
      ∧ noLeaf.full = true ∧ dictNextSlot noLeaf 65 = none :=
  ⟨rfl, by decide, rfl, noLeaf_next 65⟩

theorem witness_DictReadWidthOneAhead : dictRegs recycling ∧ dictRegs { fresh with nextFree := 255 } := by
  unfold dictRegs
  decide

theorem witness_CompPrescanChoosesMode :
    aaaab.srcLen.toNat ≤ aaaab.par.srcCap
      ∧ (∀ i, i < aaaab.srcLen.toNat → (srcByte aaaab i).toNat < 0x80)
      ∧ 1 < (withSource [0x41, 0x80]).srcLen.toNat ∧ 0x80 ≤ (srcByte (withSource [0x41, 0x80]) 1).toNat := by
  decide

/-- The largest source that DST takes. -/
theorem witness_CompStartInitialises :
    ({ small with srcLen := 43 } : State).srcLen.toNat + 21 ≤ small.par.dstCap
      ∧ ({ small with srcLen := 43 } : State).srcLen.toNat + 17 < 2 ^ 32 := by decide

theorem witness_CompStepFirstTakesByte :
    small.comp.srcIndex = small.comp.srcLen
      ∧ ({ aaaab.comp with srcLen := 5 } : Comp).srcIndex ≠ ({ aaaab.comp with srcLen := 5 } : Comp).srcLen
      ∧ 0 < srcSize aaaab := by decide

/-- Step 3 of 95_test_vectors 1.6 is a hit; step 2 is a miss that fits exactly, or by one bit does not. -/
theorem witness_CompStepConsumesByte :
    beforeStep2.comp.srcIndex.toNat < srcSize beforeStep2
      ∧ dictLookup (dictInsert 0x41 0x41 fresh).2 0x41 0x41 = some 128
      ∧ dictLookup beforeStep2.dictC 0x41 (srcByte beforeStep2 1) = none
      ∧ 176 - 169 < beforeStep2.dictC.codeWidth.toNat ∧ beforeStep2.dictC.codeWidth.toNat ≤ 176 - 168
      ∧ 168 / 8 + 4 ≤ beforeStep2.par.dstCap := by decide

theorem witness_CompEmitPacksCode :
    176 - 169 < beforeStep2.dictC.codeWidth.toNat ∧ beforeStep2.dictC.codeWidth.toNat ≤ 176 - 168
      ∧ 168 / 8 + 4 ≤ beforeStep2.par.dstCap := by decide

/-- The second code of 1.6; a budget one bit short; a full output. -/
theorem witness_DecReadNextCode :
    dictReadWidth beforeCode2.dictD = 8 ∧ beforeCode2.dec.outIndex ≠ beforeCode2.dec.expSize
      ∧ 8 ≤ beforeCode2.dec.budgetBits.toNat - beforeCode2.dec.inBit.toNat
      ∧ (∀ j, j < 8 → (beforeCode2.dec.inBit.toNat + j) / 8 < srcSize beforeCode2)
      ∧ beforeCode2.dec.budgetBits.toNat - 161 < 8 := by decide

/-- The largest literal, and the first code that is none. -/
theorem witness_DecFirstTakesLiteral :
    beforeCode2.dictD.base ≤ (128 : Code).toNat ∧ (127 : Code).toNat < beforeCode2.dictD.base
      ∧ (0 : Word32).toNat < beforeCode2.par.dstCap := by decide

/-- Codes 80 (SELF), 81 (undefined) and 7F (direct) of a fresh table, and any other code of a full one. -/
theorem witness_DecClassifyKinds :
    dictNextSlot fresh 0x41 = some 0x80 ∧ dictNextSlot fresh 0x41 ≠ some 0x81 ∧ fresh.full = false
      ∧ fresh.nextFree.toNat < (0x81 : Code).toNat ∧ (0x7F : Code).toNat ≤ fresh.nextFree.toNat
      ∧ recycling.full = true ∧ dictNextSlot recycling 65 ≠ some 4095 := by decide

/-- A table, with a MIN_BITS that no run reaches, in which slot `x` has the prefix `x - 1`: the expansion of
slot 4095 fills the stack. -/
def longChain : Dict := { Dict.reset with pfx := (List.range 4096).map (fun i => (i, BitVec.ofNat 16 (i - 1))) }

theorem longChain_expansion (fuel x : Nat) (hx : x < 4096) (hf : x ≤ fuel) :
    ∃ l, expansionRev longChain fuel x = some l ∧ l.length = x + 1 := by
  have hb : longChain.base = 1 := by decide
  induction fuel generalizing x with
  | zero => exact ⟨[BitVec.ofNat 8 x], by unfold expansionRev; rw [if_pos (by omega)], by simp; omega⟩
  | succ fuel ih =>
    by_cases h0 : x < 1
    · exact ⟨[BitVec.ofNat 8 x], by unfold expansionRev; rw [if_pos (by omega)], by simp; omega⟩
    · have hp : longChain.pfxAt x = BitVec.ofNat 16 (x - 1) := by
        have h1 := get_map_range (fun i => BitVec.ofNat 16 (i - 1)) 0 4096 x hx 0
        rw [Nat.zero_add] at h1
        unfold Dict.pfxAt longChain
        rw [List.range_eq_range', h1]
      have hn : (longChain.pfxAt x).toNat = x - 1 := by
        rw [hp, BitVec.toNat_ofNat, Nat.mod_eq_of_lt (by omega)]
      obtain ⟨l, h1, h2⟩ := ih (x - 1) (by omega) (by omega)
      refine ⟨longChain.trailingAt x :: l, ?_, by simp [h2]; omega⟩
      unfold expansionRev
      rw [if_neg (by omega), hn, h1]

/-- A SELF expansion of three bytes, and one that does not fit. -/
theorem witness_DecExpandFillsStack :
    (expansionRev beforeSelf.dictD (4096 - beforeSelf.dictD.base) beforeSelf.ports.xcode.toNat = some [0x42, 0x41]
      ∧ ((if beforeSelf.ports.kind = .self then [beforeSelf.dec.firstByte] else [])
          ++ ([0x42, 0x41] : List Byte)).length ≤ 4096)
      ∧ ∃ bs, expansionRev longChain (4096 - longChain.base) (4095 : Code).toNat = some bs
        ∧ 4096 < ((if CodeKind.self = .self then [(0x41 : Byte)] else []) ++ bs).length := by
  refine ⟨by decide, ?_⟩
  have hb : longChain.base = 1 := by decide
  obtain ⟨l, h1, h2⟩ := longChain_expansion (4096 - longChain.base) 4095 (by omega) (by omega)
  exact ⟨l, h1, by simp [h2]⟩

theorem witness_RoomCheckBeforeInsert :
    let s := { withStack with seq := .dRun }
    s.seq = .dRun ∧ s.dec.state ≠ .error ∧ s.dec.outIndex.toNat + s.dec.sp.toNat ≤ s.dec.expSize.toNat
      ∧ (3 : Word32).toNat < s.dec.outIndex.toNat + s.dec.sp.toNat := by decide

theorem witness_DecPopEmptiesStack :
    withStack.dec.outIndex.toNat + withStack.dec.sp.toNat ≤ withStack.par.dstCap
      ∧ withStack.dec.outIndex.toNat + withStack.dec.sp.toNat < 2 ^ 32 := by decide

theorem witness_DecEndDecides :
    let d := { beforeCode2.dec with state := .done, outIndex := 5 }
    (d.state = .done ∧ d.outIndex = d.expSize) ∧ beforeCode2.dec.state ≠ .done
      ∧ beforeCode2.dec.outIndex ≠ beforeCode2.dec.expSize := by decide

theorem witness_ContWriteHeaderBytes : 17 ≤ small.par.dstCap := by decide

/-- The largest source whose stored form DST takes. -/
theorem witness_ContStoredCopiesSource :
    let s := { small with srcLen := 47, comp := { Comp.reset with srcLen := 47 } }
    s.comp.srcLen.toNat ≤ srcSize s ∧ s.comp.srcLen.toNat + 17 ≤ s.par.dstCap
      ∧ s.comp.srcLen.toNat + 17 < 2 ^ 32 := by decide

theorem witness_ContParseHeaderFields : 17 ≤ srcSize { small with srcLen := 17 } := by decide

/-- Each check of CONT_VALIDATE, the one that fails first, on containers at its boundary; the first two leave the
header registers. -/
theorem witness_ContValidateOrder :
    nextIs (exec .contValidate { small with srcLen := 65 })
        (fun t => t.ports.result == .resource && t.hdr == small.hdr) = true
      ∧ nextIs (exec .contValidate { aaaabBack with srcLen := 16 })
        (fun t => t.ports.result == .framing && t.hdr == small.hdr) = true
      ∧ nextIs (exec .contValidate (withSource (container 0x15 5 4 [0x41, 0x80, 0x41, 0x42])))
        (fun t => t.ports.result == .malformed) = true
      ∧ nextIs (exec .contValidate { aaaabBack with par := { small.par with expandedSizeCeiling := 5 } })
        (fun t => t.ports.result == .malformed) = true
      ∧ nextIs (exec .contValidate { aaaabBack with srcLen := 20 }) (fun t => t.ports.result == .framing) = true
      ∧ nextIs (exec .contValidate (withSource (container 0x14 2 1 [1, 2, 3])))
        (fun t => t.ports.result == .framing) = true
      ∧ nextIs (exec .contValidate { aaaabBack with par := { small.par with dstCap := 4 } })
        (fun t => t.ports.result == .resource) = true
      ∧ nextIs (exec .contValidate { aaaabBack with par := { small.par with dstCap := 5 } })
        (fun t => t.ports.result == .ok) = true := by decide

theorem witness_ContStoredCopyCopiesPayload :
    let s := { withSource (container 0x14 3 1 [1, 2, 3]) with hdr := { Header.reset with es := 3 } }
    17 + s.hdr.es.toNat ≤ srcSize s ∧ s.hdr.es.toNat ≤ s.par.dstCap := by decide

/-- Refused by one byte of DST, and not. -/
theorem witness_CompressAlwaysCompletes :
    small.par.maxSrcLen ≤ 2 ^ 32 - 18 ∧ small.par.dstCap < 44 + 21
      ∧ 43 ≤ small.par.maxSrcLen ∧ 43 ≤ small.par.srcCap ∧ 43 + 21 ≤ small.par.dstCap := by decide

/-- A source that is stored, one coded in 7-bit mode and one coded in 8-bit mode. -/
theorem witness_CompressModeAndStoredForm :
    (∃ t, exec .compress (withSource [0xFF]) = .next t ∧ ended .ok t)
      ∧ (∃ t, exec .compress aaaab = .next t ∧ ended .ok t)
      ∧ ∃ t, exec .compress (withSource [0xFF, 0xFF, 0xFF]) = .next t ∧ ended .ok t := by
  have h : ∀ s, nextIs (exec .compress s) (isEnded .ok) = true →
      ∃ t, exec .compress s = .next t ∧ ended .ok t := by
    intro s hs
    obtain ⟨t, h1, h2⟩ := next_of hs
    exact ⟨t, h1, ended_of h2⟩
  exact ⟨h _ (by decide), h _ (by decide +kernel), h _ (by decide +kernel)⟩

theorem witness_CompressLeavesZerosPastOutput :
    ∃ t, exec .compress aaaab = .next t ∧ ended .ok t := witness_CompressModeAndStoredForm.2.1

/-- Two states with the same source that differ in DST and in a dictionary. -/
theorem witness_CompressDependsOnSourceOnly :
    let s' := { aaaab with dst := [(3, 7)], dictC := chain65 }
    aaaab.par = s'.par ∧ aaaab.srcLen = s'.srcLen
      ∧ (∀ i, i < aaaab.srcLen.toNat → srcByte aaaab i = srcByte s' i)
      ∧ nextIs (exec .compress aaaab) (fun _ => true) = true
      ∧ nextIs (exec .compress s') (fun _ => true) = true := by decide

/-- A container that is decoded, and one whose header is refused. -/
theorem witness_DecompressLeavesRest :
    nextIs (exec .decompress aaaabBack) (fun _ => true) = true
      ∧ nextIs (exec .contValidate { aaaabBack with srcLen := 16 }) (fun u => decide (u.ports.result ≠ .ok)) = true
      ∧ nextIs (exec .decompress { aaaabBack with srcLen := 16 }) (fun _ => true) = true := by decide

theorem witness_DecompressStoredGivesPayload :
    let s := withSource (container 0x14 3 1 [1, 2, 3])
    s.srcLen.toNat = 3 + 17 ∧ 3 + 17 ≤ s.par.srcCap ∧ 3 ≤ s.par.dstCap ∧ 3 < s.par.expandedSizeCeiling
      ∧ srcByte s 16 = 1 ∧ word32At (srcByte s) 0 = 3 + 17 ∧ word32At (srcByte s) 8 = 3 := by decide

/-- The source of 1.6 goes through COMPRESS, COPYBACK and DECOMPRESS. -/
theorem witness_RoundTrip :
    aaaab.srcLen.toNat < aaaab.par.expandedSizeCeiling ∧ aaaab.srcLen.toNat + 21 ≤ aaaab.par.srcCap
      ∧ aaaab.srcLen.toNat + 21 ≤ aaaab.par.dstCap
      ∧ nextIs (exec .compress aaaab) (fun t => nextIs (hostLine .copyback t)
          (fun u => nextIs (exec .decompress u) (fun v => isEnded .ok v && v.resultLen == 5))) = true := by
  decide +kernel

/-- A ceiling equal to the source's length. -/
theorem witness_RoundTripFailsAboveCeiling :
    let s := { aaaab with par := { aaaab.par with expandedSizeCeiling := 5 } }
    s.par.expandedSizeCeiling ≤ s.srcLen.toNat ∧ s.srcLen.toNat + 21 ≤ s.par.srcCap
      ∧ s.srcLen.toNat + 21 ≤ s.par.dstCap
      ∧ nextIs (exec .compress s) (fun t => nextIs (hostLine .copyback t) (fun _ => true)) = true := by
  decide

/-- A COMPRESS and a DECOMPRESS that wait to be taken rule by rule. -/
theorem witness_RuleStepsReachCommandResult :
    let s := { aaaab with cmd := 0x01, status := 0x01 }
    let u := { aaaabBack with cmd := 0x02, status := 0x01 }
    (s.stuck = none ∧ s.op = none ∧ s.busy = true ∧ s.seq = .idle ∧ s.host = [])
      ∧ nextIs (exec .compress s) (fun _ => true) = true
      ∧ (u.stuck = none ∧ u.op = none ∧ u.busy = true ∧ u.seq = .idle ∧ u.host = [])
      ∧ nextIs (exec .decompress u) (fun _ => true) = true := by decide

theorem witness_EngineLeavesHostState :
    isCommand .compStart = false ∧ nextIs (exec .compStart aaaab) (fun _ => true) = true
      ∧ nextIs (engineStep (aaaab.setOp (some 0x01))) (fun _ => true) = true := by decide

/-- An operation that gets the engine stuck, one that stops the model, and a stuck engine with each kind of line. -/
theorem witness_StuckEngineWaitsForReset :
    let s := bitOperands .src 40 0 0 aaaab
    nextIs (exec .getBit s) (fun t => decide (t.stuck ≠ s.stuck)) = true
      ∧ faultIs (exec .setBit (bitOperands .src 0 0 0 aaaab)) .srcReadOnly = true
      ∧ stuckBlock.stuck ≠ none ∧ stuckBlock.busy = true
      ∧ (stuckBlock.setHost [.reset]).host.head? = some .reset
      ∧ (stuckBlock.setHost [.read 0x4]).host.head? ≠ some .reset
      ∧ nextIs (step (stuckBlock.setHost [.reset])) (fun _ => true) = true
      ∧ nextIs (step (stuckBlock.setHost [.read 0x4])) (fun _ => true) = true := by decide

theorem witness_CanonicalFormKept :
    canonical aaaab = true ∧ nextIs (step (aaaab.setOp (some 0x01))) (fun t => canonical t) = true := by
  decide +kernel

theorem witness_StatusLegalKept :
    statusLegal aaaab.status ∧ nextIs (step (aaaab.setOp (some 0x01))) (fun _ => true) = true := by
  unfold statusLegal
  decide

theorem witness_WidthInvariantKept :
    widthsLegal beforeStep2 ∧ nextIs (step (beforeStep2.setOp (some 0x33))) (fun _ => true) = true := by
  unfold widthsLegal minBitsLegal dictRegs
  decide

end Sys2Proof.Tests
end

section
/-! PROOFS. Scope (00_scope R17): who moves when the engine has work, what a move of the engine is, and from these
O4 (a step runs the decoded operation) and O54 (a command taken rule by rule reaches what the whole command gives). -/

namespace Sys2Proof.Machine

open Sys2Proof Sys2Proof.Safety

/-! ### Who moves -/

theorem engineBusy_of_op {s : State} {w : Byte} (hs : s.stuck = none) (ho : s.op = some w) : engineBusy s = true := by
  simp [engineBusy, hs, ho]

theorem engineBusy_of_busy {s : State} (hs : s.stuck = none) (hb : s.busy = true) : engineBusy s = true := by
  simp [engineBusy, hs, hb]

/-- With no host line, or a polling one, an engine with work moves. -/
theorem mover_of_host_waits {s : State} (hb : engineBusy s = true)
    (hh : s.host = [] ∨ s.host.head? = some .wait) : mover s = .engine s := by
  unfold mover
  cases hl : s.host with
  | nil => exact if_pos hb
  | cons l rest =>
    have hw : l = .wait := by simpa [hl] using hh
    simp [hb, hw]

/-- Before another host line it moves when the free value lets it, and the turn is counted (log entry 7). -/
theorem mover_of_host_yields {s : State} {l : HostLine} {rest : List HostLine} (hb : engineBusy s = true)
    (hh : s.host = l :: rest) (hl : l ≠ .wait) (hf : Config.hostFirst s.turn = false) :
    mover s = .engine (s.setTurn (s.turn + 1)) := by
  simp [mover, hh, hb, hl, hf]

theorem step_of_engine_moves {s t : State} (h : mover s = .engine t) : step s = engineStep t := by
  rw [step, h]

/-! ### A move of the engine -/

theorem engineStep_of_decode {s : State} {w : Byte} {i : Instr} (ho : s.op = some w)
    (hd : decode [w] = .instr i []) : engineStep s = sequenceOutcome i (exec i (s.setOp none)) := by
  have hf : fetch s = .operation i := by simp only [fetch, ho, hd]
  rw [engineStep, hf]

theorem engineStep_of_no_op {s : State} (ho : s.op = none) : engineStep s = beginCommand s := by
  have hf : fetch s = .opening := by simp only [fetch, ho]
  rw [engineStep, hf]

theorem sequenceNext_of_idle (i : Instr) {s : State} (h : s.seq = .idle) : sequenceNext i s = s := by
  unfold sequenceNext
  rw [h]

/-- Nothing follows an operation with SEQ IDLE, or one after which the engine is stuck (60_exceptions R278). -/
theorem sequenceOutcome_of_rest (i : Instr) {t : State} (h : t.seq = .idle ∨ t.stuck ≠ none) :
    sequenceOutcome i (.next t) = .next t := by
  rw [sequenceOutcome]
  rcases h with h | h
  · rw [sequenceNext_of_idle i h, ite_self]
  · rw [if_neg h]

/-! ### Opening an accepted command -/

theorem beginCommand_compress {s : State} (hs : s.seq = .idle) (hc : s.cmd = 0x01) :
    beginCommand s = .next (beginCompress s) := by
  have hd : decodeOp 0x01 = some .compress := by decide
  rw [beginCommand, if_pos hs, hc, hd]

theorem beginCommand_decompress {s : State} (hs : s.seq = .idle) (hc : s.cmd = 0x02) :
    beginCommand s = .next (beginDecompress s) := by
  have hd : decodeOp 0x02 = some .decompress := by decide
  rw [beginCommand, if_pos hs, hc, hd]

/-- The first step of a quiet busy block opens the command that waits in CMD, at either grain. -/
theorem Reaches.opening {s u t : State} (hq : Quiet s) (hb : s.busy = true) (ho : beginCommand s = .next u)
    (h : Reaches u t) : Reaches s t := by
  refine Reaches.head ?_ h
  calc step s = engineStep s :=
        step_of_engine_moves (mover_of_host_waits (engineBusy_of_busy hq.stuck hb) (.inl hq.host))
    _ = beginCommand s := engineStep_of_no_op hq.op
    _ = .next u := ho

/-! ### The statements -/

/-- Settles O54: the first step opens the command; each further one runs the operation that the whole command would
run next (`beginCompress_reaches`, `beginDecompress_reaches`). Neither command gets the engine stuck, so its next
state is its answer (`compress_next`, `decompress_next`). -/
theorem ruleStepsReachCommandResult : Obligations.RuleStepsReachCommandResult := by
  intro s t hmax hstuck hop hbusy hseq hhost
  have hq : Quiet s := ⟨hop, hhost, hstuck⟩
  refine ⟨fun hcmd h => ?_, fun hcmd h => ?_⟩
  · exact Reaches.opening hq hbusy (beginCommand_compress hseq hcmd) (beginCompress_reaches (compress_next hmax h) hq)
  · exact Reaches.opening hq hbusy (beginCommand_decompress hseq hcmd)
      (beginDecompress_reaches (decompress_next h) hq)

/-- Settles O4, by who moves in each of the two cases of the host's next line. -/
theorem stepRunsDecodedOperation : Obligations.StepRunsDecodedOperation := by
  intro s w i hstuck hop hd
  have hb : engineBusy s = true := engineBusy_of_op hstuck hop
  refine ⟨fun hh => ?_, fun l rest hh hl hf => ?_, fun t => sequenceOutcome_of_rest i⟩
  · rw [step_of_engine_moves (mover_of_host_waits hb hh), engineStep_of_decode hop hd]
  · rw [step_of_engine_moves (mover_of_host_yields hb hh hl hf)]
    exact engineStep_of_decode (s := s.setTurn (s.turn + 1)) hop hd

end Sys2Proof.Machine
end

section
/-! PROOFS. State (10_state R21, R24 to R26, R54, section 2): the register block the host sees (O6), what a move of the
engine leaves alone (O55), and that every step keeps STATUS legal (O58). -/

namespace Sys2Proof.Machine

open Sys2Proof Sys2Proof.Safety

/-! ### The register block -/

theorem hostRead_of_allowed {off : Nat} {s : State} (h : ¬(s.busy = true ∧ off = 0xC)) :
    hostRead off s = .next (s.setBusData (busRead off s)) := if_neg h

theorem busRead_of_no_register {off : Nat} (h0 : off ≠ 0x0) (h4 : off ≠ 0x4) (h8 : off ≠ 0x8) (hC : off ≠ 0xC)
    (s : State) : busRead off s = 0 := by
  unfold busRead
  split
  · exact absurd rfl h0
  · exact absurd rfl h4
  · exact absurd rfl h8
  · exact absurd rfl hC
  · rfl

/-- CMD and SRC_LEN are the only registers that a write reaches. -/
theorem busWrite_of_not_writable {off : Nat} (h0 : off ≠ 0x0) (h8 : off ≠ 0x8) (v : Word32) (s : State) :
    busWrite off v s = .next s := by
  unfold busWrite
  split
  · exact absurd rfl h0
  · exact absurd rfl h8
  · rfl

/-- The CMD line widens its byte for the bus, which hands the same byte on. -/
theorem hostLine_cmd (v : Byte) (s : State) : hostLine (.cmd v) s = .next (cmdAccept v s) := by
  have hv : (v.setWidth 32).setWidth 8 = v := by simp
  exact congrArg (fun b => Host.Outcome.next (cmdAccept b s)) hv

theorem busWrite_srcLen {s : State} (hb : s.busy = false) (v : Word32) :
    busWrite 0x8 v s = .next (s.setSrcLen v) := if_neg (by simp [hb])

/-! ### What the engine leaves alone -/

/-- Only the units' state, DST, `acc`, the latches and whether the engine is stuck may differ. -/
def UnitFrame (s t : State) : Prop :=
  t = { s with
    dst := t.dst, dictC := t.dictC, dictD := t.dictD, comp := t.comp, dec := t.dec, hdr := t.hdr
    acc := t.acc, stuck := t.stuck, ports := t.ports }

theorem Kept.unitFrame {s t : State} (h : Kept s t) : UnitFrame s t := by
  unfold UnitFrame
  rw [h.stuck]
  exact h.frame

theorem GotStuck.unitFrame {s t : State} (h : GotStuck s t) : UnitFrame s t := by
  obtain ⟨u, r, hk, rfl⟩ := h
  exact congrArg (State.setStuck (some r)) hk.frame

theorem exec_unitFrame {i : Instr} (hi : isCommand i = false) {s t : State} (h : exec i s = .next t) :
    UnitFrame s t := by
  obtain ⟨r, he, hk⟩ := exec_keeps hi s
  rw [he, toOutcome_eq_next] at h
  rcases h with hok | hstuck
  · exact (hk.kept hok).unitFrame
  · exact (hk.stuck t hstuck).unitFrame

theorem Moved.hostState {s t : State} (h : Moved s t) :
    t.src = s.src ∧ t.srcLen = s.srcLen ∧ t.cmd = s.cmd ∧ t.par = s.par ∧ t.host = s.host := by
  rw [h.frame]
  exact ⟨rfl, rfl, rfl, rfl, rfl⟩

/-! ### What a step keeps -/

theorem Moved.hostMoved {s t : State} (h : Moved s t) : HostMoved s t := ⟨h.canon, h.widths, h.status⟩

theorem HostMoved.refl (s : State) : HostMoved s s := ⟨id, id, id⟩

theorem HostMoved.trans {s t u : State} (h : HostMoved s t) (h' : HostMoved t u) : HostMoved s u :=
  ⟨h'.canon ∘ h.canon, h'.widths ∘ h.widths, h'.status ∘ h.status⟩

/-- Taking a line off the host's list and counting the turn keeps what a move keeps. -/
theorem mover_hostMoved {s t : State} (h : mover s = .engine t ∨ ∃ l, mover s = .host l t) : HostMoved s t := by
  rw [mover_frame h]
  exact ⟨id, id, id⟩

/-- Whoever moves, a step keeps the three invariants. -/
theorem step_hostMoved {s t : State} (h : step s = .next t) : HostMoved s t := by
  unfold step at h
  cases hm : mover s with
  | engine u =>
    rw [hm] at h
    exact (mover_hostMoved (.inl hm)).trans (engineStep_moved h).hostMoved
  | host l u =>
    rw [hm] at h
    exact (mover_hostMoved (.inr ⟨l, hm⟩)).trans (hostLine_moved h)
  | nobody =>
    rw [hm] at h
    cases h
    exact HostMoved.refl s

/-! ### The statements -/

/-- Settles O6, register by register. -/
theorem registerBlock : Obligations.RegisterBlock := by
  intro s
  refine ⟨fun off h => hostRead_of_allowed h, rfl, rfl, rfl, rfl, fun off h0 h4 h8 hC => ?_, fun v => ?_,
    fun v => ?_, fun v hb => busWrite_srcLen hb v⟩
  · exact ⟨busRead_of_no_register h0 h4 h8 hC s, fun v => busWrite_of_not_writable h0 h8 v s⟩
  · exact ⟨rfl, rfl⟩
  · exact (hostLine_cmd (v.setWidth 8) s).symm

/-- Settles O55: an internal operation answers or gets the engine stuck inside the units' frame, and no move of the
engine leaves the frame of `Moved`. -/
theorem engineLeavesHostState : Obligations.EngineLeavesHostState :=
  ⟨fun _ _ _ hi h => exec_unitFrame hi h, fun _ _ h => (engineStep_moved h).hostState⟩

/-- Settles O58: each of the two sides' moves keeps STATUS legal, and so does choosing between them. -/
theorem statusLegalKept : Obligations.StatusLegalKept :=
  fun _ _ hs h => (step_hostMoved h).status hs

end Sys2Proof.Machine
end

section
/-! PROOFS. Memory (20_memory R60, R61, R78, R79): what COMPRESS leaves in DST past its container (O47), what DECOMPRESS
leaves of DST and of the rest (O50), and that every step keeps the tables and memories in canonical form (O57). -/

namespace Sys2Proof.Machine

open Sys2Proof Sys2Proof.Safety

/-! ### How a command has ended -/

theorem resultBits_injective : Function.Injective resultBits := by
  intro r q h
  revert h
  cases r <;> cases q <;> decide

/-- A command ends with one result. -/
theorem ended_unique {r q : ResultCode} {t : State} (hr : ended r t) (hq : ended q t) : r = q := by
  obtain ⟨_, _, _, hr, _⟩ := hr
  obtain ⟨_, _, _, hq, _⟩ := hq
  exact resultBits_injective (hr.symm.trans hq)

/-! ### COMPRESS -/

/-- DST as COMP_START zeroes it: the room of the stored container and the headroom of 4 bytes (43_compressor R161). -/
def zeroedDst (s : State) : State := s.setDst (Memory.fill 0x00 (s.srcLen.toNat + 21) 0 s.dst)

theorem dstByte_zeroedDst (s : State) (a : Nat) :
    dstByte (zeroedDst s) a = if a < s.srcLen.toNat + 21 then 0x00 else dstByte s a := by
  simp [zeroedDst, dstByte, Memory.read_fill]

theorem bufBit_zeroedDst (s : State) (k : Nat) :
    bufBit .dst (zeroedDst s) k = if k < 8 * (s.srcLen.toNat + 21) then false else bufBit .dst s k := by
  have hk : k < 8 * (s.srcLen.toNat + 21) ↔ k / 8 < s.srcLen.toNat + 21 := by omega
  simp only [bufBit, bufByte, dstByte_zeroedDst, hk]
  split
  · exact BitVec.getLsbD_zero
  · rfl

/-- A COMPRESS that is not refused leaves DST past its container as COMP_START zeroed it: a coded container ends with
its last bit, and a stored one fills the capacity. -/
theorem compress_past_output {s t : State} (hmax : s.par.maxSrcLen ≤ 2 ^ 32 - 18)
    (hr : compressRefused s ≠ true) (h : compress s = .ok t) :
    t.resultLen.toNat ≤ s.srcLen.toNat + 17
      ∧ ∀ a, t.resultLen.toNat ≤ a → dstByte t a = dstByte (zeroedDst s) a := by
  rw [Ne, compressRefused_iff] at hr
  by_cases hfit : 136 + totalBits (sourceCodes s) ≤ 8 * (s.srcLen.toNat + 17)
  · obtain ⟨u, e, _, _, hlen, _, _, _, _, _, hbits, _⟩ :=
      compress_coded hmax (by omega) (by omega) (by omega) hfit
    obtain rfl : u = t := Except.ok.inj (e.symm.trans h)
    unfold ceilDiv at hlen
    refine ⟨by omega, fun a ha => dstByte_ext fun j _ => ?_⟩
    have hout : packedBit (sourceCodes s) 136 (8 * a + j) = false :=
      packedBit_out (sourceCodes_fit s) (.inr (by omega))
    rw [hbits _ (by omega), hout, Bool.or_false, bufBit_zeroedDst]
  · obtain ⟨u, e, _, _, hlen, _, _, _, _, _, _, hrest, _⟩ :=
      compress_stored hmax (by omega) (by omega) (by omega) hfit
    obtain rfl : u = t := Except.ok.inj (e.symm.trans h)
    exact ⟨by omega, fun a ha => by rw [hrest a (by omega), dstByte_zeroedDst]⟩

/-! ### DECOMPRESS -/

/-- The frame that DECOMPRESS keeps. -/
def DecompressFrame (s t : State) : Prop :=
  t = { s with
    status := t.status, resultLen := t.resultLen, seq := .idle, dst := t.dst, dictD := t.dictD
    dec := t.dec, hdr := t.hdr, acc := t.acc, ports := t.ports, free := t.free }

/-- The result that CONT_VALIDATE leaves in its latch (45_container R233). -/
def validateResult (s : State) : ResultCode :=
  if s.par.srcCap < s.srcLen.toNat then .resource
  else if s.srcLen.toNat < Config.headerSize then .framing
  else headerVerdict s.srcLen.toNat (s.setHdr (headerOf s))

theorem contValidate_result {s u : State} (h : contValidate s = .ok u) : u.ports.result = validateResult s := by
  unfold contValidate at h
  unfold validateResult
  split at h
  · cases h
    exact (if_pos ‹_›).symm
  · rename_i hcap
    rw [if_neg hcap]
    split at h
    · cases h
      exact (if_pos ‹_›).symm
    · rename_i hlen
      have hlen' : ¬ s.srcLen.toNat < 17 := hlen
      rw [contParseHeader_eq s (by unfold srcSize; omega), Res.ok_bind] at h
      cases h
      exact (if_neg hlen).symm

/-- Both runs of CONT_VALIDATE give one result: SEQ, which DECOMPRESS writes before it, plays no part. -/
theorem contValidate_result_setSeq {s u a : State} {q : Seq} (hu : contValidate s = .ok u)
    (ha : contValidate (s.setSeq q) = .ok a) : a.ports.result = u.ports.result :=
  (contValidate_result ha).trans (contValidate_result hu).symm

/-- CONT_VALIDATE never gets the engine stuck, so a next state of it is its answer. -/
theorem contValidate_next {s u : State} (h : exec .contValidate s = .next u) : contValidate s = .ok u := by
  obtain ⟨_, _, e, _⟩ := contValidate_spec s
  exact toOutcome_next_of_ok e h

/-- DECOMPRESS of a header that CONT_VALIDATE refuses ends with its result, writes no DST byte and gives length 0
(20_memory R78, 45_container R247). -/
theorem decompress_of_validate_refused {s t u : State} (h : decompress s = .ok t) (hu : contValidate s = .ok u)
    (hr : u.ports.result ≠ .ok) : ended u.ports.result t ∧ t.dst = s.dst ∧ t.resultLen = 0 := by
  obtain ⟨_, _, ha, _⟩ := contValidate_spec (s.setSeq .dCheck)
  have e := contValidate_result_setSeq hu ha
  have hd := (decompress_validated ha).1 (by rw [e]; exact hr)
  rw [hd, e] at h
  cases h
  exact ⟨ended_cmdEnd _ _ _, rfl, ite_self _⟩

theorem decompress_stored_frame {s t : State} (ha : Accepted s) (ht : srcByte s 16 = 1)
    (h : decompress s = .ok t) : DecompressFrame s t := by
  rw [(decompress_accepted ha).1 ht] at h
  obtain ⟨b, hb, h⟩ := Res.bind_eq_ok.1 h
  cases h
  have hes : (headerOf s).es.toNat = word32At (srcByte s) 8 := toNat_word32At _ _
  have hs := ha.stored ht
  have hcap := ha.cap
  have hroom := ha.room
  obtain ⟨m, e, _⟩ := contStoredCopy_eq
    ((((s.setSeq .dCheck).setHdr (headerOf s)).setPorts { s.ports with result := .ok }).setSeq .dStored)
    (by show 17 + (headerOf s).es.toNat ≤ srcSize s; unfold srcSize; omega)
    (by show (headerOf s).es.toNat ≤ s.par.dstCap; omega)
  obtain rfl := Except.ok.inj (hb.symm.trans e)
  rfl

/-- DECOMPRESS keeps its frame and writes no DST byte from the declared size on (20_memory R78, R79). -/
theorem decompress_leaves_rest {s t : State} (h : decompress s = .ok t) :
    DecompressFrame s t ∧ ∀ a, word32At (srcByte s) 8 ≤ a → dstByte t a = dstByte s a := by
  by_cases ha : Accepted s
  · by_cases ht : srcByte s 16 = 1
    · obtain ⟨u, e, _, _, _, _, hrest⟩ := decompress_stored ha ht
      obtain rfl : u = t := Except.ok.inj (e.symm.trans h)
      exact ⟨decompress_stored_frame ha ht h, hrest⟩
    · obtain ⟨b, e, hb⟩ := decompress_coded ha ht
      obtain rfl : _ = t := Except.ok.inj (e.symm.trans h)
      have hes : b.dec.expSize.toNat = word32At (srcByte s) 8 := by
        rw [hb.size]
        exact toNat_word32At _ _
      obtain ⟨r, _, _, _, hfin, _, hbeyond⟩ := decodeFinish_spec b
      refine ⟨?_, fun a ha' => ?_⟩
      · unfold DecompressFrame
        have hf := hb.frame
        generalize decodeFinish (decEnd b) = t at *
        rw [hf] at hfin
        rw [hfin]
        rfl
      · exact (hbeyond a (by omega)).trans (hb.beyond a (by omega))
  · obtain ⟨_, _, _, e⟩ := decompress_refused ha
    obtain rfl : _ = t := Except.ok.inj (e.symm.trans h)
    exact ⟨rfl, fun _ _ => rfl⟩

/-! ### The statements -/

/-- Settles O57: each of the two sides' moves keeps the canonical form, and so does choosing between them. -/
theorem canonicalFormKept : Obligations.CanonicalFormKept :=
  fun _ _ hs h => (step_hostMoved h).canon hs

/-- Settles O47: a COMPRESS that ends with OK was not refused, and past its container it leaves DST as COMP_START
zeroed it. -/
theorem compressLeavesZerosPastOutput : Obligations.CompressLeavesZerosPastOutput := by
  intro s t hmax h hok
  have hc : compress s = .ok t := compress_next hmax h
  have hr : compressRefused s ≠ true := by
    intro hr
    obtain rfl : raiseError .resource s = t := Except.ok.inj ((if_pos hr).symm.trans hc)
    cases ended_unique hok (ended_cmdEnd .resource 0 s)
  obtain ⟨hlen, hpast⟩ := compress_past_output hmax hr hc
  refine ⟨fun a ha hlt => ?_, fun a ha => ?_⟩
  · rw [hpast a ha, dstByte_zeroedDst, if_pos hlt]
  · rw [hpast a (by omega), dstByte_zeroedDst, if_neg (by omega)]

/-- Settles O50: the frame and the bytes beyond the declared size for each way that DECOMPRESS can go, and what a
refused header gives. -/
theorem decompressLeavesRest : Obligations.DecompressLeavesRest := by
  intro s t h
  have hd : decompress s = .ok t := decompress_next h
  obtain ⟨hframe, hbeyond⟩ := decompress_leaves_rest hd
  exact ⟨hframe, hbeyond, fun u hu hr => decompress_of_validate_refused hd (contValidate_next hu) hr⟩

end Sys2Proof.Machine
end

section
/-! PROOFS. Encoding (30_encoding): decoding and encoding agree (O2) and follow the spec's tables (O3), a CMD write of
no host command ends at once (O8), and what the lines of a host program do on an idle block (O10). -/

namespace Sys2Proof.Machine

open Sys2Proof Sys2Proof.Safety

/-! ### Operation codes (R81 to R84) -/

/-- Decoding goes by the first byte alone. -/
theorem decode_opcodeOf_cons (i : Instr) (rest : List Byte) : decode (opcodeOf i :: rest) = .instr i rest := by
  cases i <;> rfl

/-- A code that the tables give to an operation is the one that the operation is encoded as. -/
theorem opcodeOf_of_decodeOp {w : Byte} {i : Instr} (h : decodeOp w = some i) : opcodeOf i = w := by
  unfold decodeOp at h
  split at h <;> cases h
  all_goals
    rename_i hw
    exact BitVec.eq_of_toNat_eq hw.symm

theorem decode_cons_of_some {w : Byte} {i : Instr} (h : decodeOp w = some i) (rest : List Byte) :
    decode (w :: rest) = .instr i rest := by
  simp only [decode, h]

theorem decode_cons_of_none {w : Byte} (h : decodeOp w = none) (rest : List Byte) :
    decode (w :: rest) = .unassigned w := by
  simp only [decode, h]

/-- A byte that decodes to nothing encodes nothing. -/
theorem encode_ne_of_decodeOp_none {w : Byte} (h : decodeOp w = none) (i : Instr) : encode i ≠ [w] := by
  intro he
  have hd : decode [opcodeOf i] = .instr i [] := decode_opcodeOf i
  rw [List.singleton_inj.1 he, decode_cons_of_none h] at hd
  cases hd

/-- The tables name an operation by the word that is its code. -/
theorem decodeTableWord_opcodeOf (i : Instr) : decodeTableWord 8 (opcodeOf i).toNat = some i := by
  have hb : tableByte 8 (opcodeOf i).toNat = opcodeOf i := by
    rw [tableByte, Nat.mod_eq_of_lt (opcodeOf i).isLt, BitVec.ofNat_toNat, BitVec.setWidth_eq]
  simp only [decodeTableWord, hb, decode_opcodeOf]

/-- Only the codes of COMPRESS and DECOMPRESS start a command (R82, R84). -/
theorem isHostCommand_of_illegal {v : Byte} (h1 : v ≠ 0x01) (h2 : v ≠ 0x02) : isHostCommand v = false := by
  unfold isHostCommand
  split
  · exact absurd (opcodeOf_of_decodeOp ‹_›).symm h1
  · exact absurd (opcodeOf_of_decodeOp ‹_›).symm h2
  · rfl

/-! ### A CMD write of no host command (R84) -/

theorem cmdAccept_of_illegal {s : State} {v : Byte} (hb : s.busy = false) (hv : isHostCommand v = false) :
    cmdAccept v s = raiseError .illegalCommand ((s.setCmd v).setStatus (statusOf true false .ok)) := by
  simp [cmdAccept, hb, hv]

/-! ### The lines of a host program on an idle block (R100) -/

theorem hostSrc_of_idle {s : State} {a : Nat} {bs : List Byte} (hb : s.busy = false)
    (hfit : a + bs.length ≤ s.par.srcCap) :
    hostSrc a bs s = .next (s.setSrc (Memory.writeList bs a s.src)) := by
  simp [hostSrc, hb, hfit]

theorem hostReadDst_of_idle {s : State} {a : Nat} (hb : s.busy = false) (ha : a < s.par.dstCap) :
    hostReadDst a s = .next (s.setBusData ((dstByte s a).setWidth 32)) := by
  simp [hostReadDst, hb, ha, dstByte]

theorem hostWait_of_done {s : State} (hd : s.done = true) :
    hostWait s = .next (s.setBusData (s.status.setWidth 32)) := if_pos hd

/-- A poll that finds DONE = 0 puts the line back. -/
theorem hostWait_of_not_done {s : State} (hd : s.done = false) :
    hostWait s = .next ((s.setBusData (s.status.setWidth 32)).setHost (.wait :: s.host)) :=
  if_neg (by simp [hd])

theorem hostCopyback_of_idle {s : State} (hb : s.busy = false) (hsrc : s.resultLen.toNat ≤ s.par.srcCap)
    (hdst : s.resultLen.toNat ≤ s.par.dstCap) :
    hostCopyback s = .next ((s.setSrc
      (Memory.writeList (Memory.readList s.dst s.resultLen.toNat 0) 0 s.src)).setSrcLen s.resultLen) := by
  simp [hostCopyback, hb, hsrc, hdst]

/-- The first `n` bytes of one memory, copied over those of another. -/
theorem Memory.read_copyFirst (m d : List Host.Cell) (n x : Nat) :
    Memory.read (Memory.writeList (Memory.readList d n 0) 0 m) x
      = if x < n then Memory.read d x else Memory.read m x := by
  rw [Memory.read_writeList, Memory.length_readList, Nat.zero_add, Nat.sub_zero]
  by_cases hx : x < n
  · rw [if_pos ⟨Nat.zero_le x, hx⟩, if_pos hx, Memory.getD_readList d n 0 x hx, Nat.zero_add]
  · rw [if_neg (fun h => hx h.2), if_neg hx]

/-! ### The statements -/

/-- Settles O10, line by line: the bytes a SRC line and a COPYBACK leave are those of a written list. -/
theorem hostLinesEffects : Obligations.HostLinesEffects := by
  intro s hb
  refine ⟨fun a bs hfit => ?_, fun n => busWrite_srcLen hb n, fun a ha => hostReadDst_of_idle hb ha,
    fun hd => hostWait_of_done hd, fun hd => hostWait_of_not_done hd, fun hsrc hdst => ?_⟩
  · exact ⟨_, hostSrc_of_idle hb hfit, rfl, Memory.read_writeList bs a s.src⟩
  · exact ⟨_, hostCopyback_of_idle hb hsrc hdst, rfl, Memory.read_copyFirst s.src s.dst _⟩

/-- Settles O2: an operation's byte decodes to it, and another byte is told by what the tables give for it. -/
theorem decodeEncodeAgree : Obligations.DecodeEncodeAgree := by
  refine ⟨decode_opcodeOf_cons, fun w rest => ?_⟩
  cases hw : decodeOp w with
  | some i => exact .inl ⟨i, decode_cons_of_some hw rest, congrArg (fun b => [b]) (opcodeOf_of_decodeOp hw)⟩
  | none => exact .inr ⟨decode_cons_of_none hw rest, encode_ne_of_decodeOp_none hw⟩

/-- Settles O3: each assigned word is the code of its operation, and the tables skip the other two. -/
theorem tableWordsDecode : Obligations.TableWordsDecode :=
  ⟨decodeTableWord_opcodeOf .compress, decodeTableWord_opcodeOf .orU32At, decodeTableWord_opcodeOf .dictInsert,
    decodeTableWord_opcodeOf .compStep, decodeTableWord_opcodeOf .decExpand,
    decodeTableWord_opcodeOf .contValidate, by decide, by decide⟩

/-- Settles O8: the write runs no unit, and what ends the command is the shared end of commands. -/
theorem illegalCommandEndsAtOnce : Obligations.IllegalCommandEndsAtOnce := by
  intro s v hb h1 h2
  refine ⟨_, ?_, ended_cmdEnd .illegalCommand 0 ((s.setCmd v).setStatus (statusOf true false .ok)), rfl, rfl, rfl⟩
  rw [hostLine_cmd, cmdAccept_of_illegal hb (isHostCommand_of_illegal h1 h2), raiseError]

end Sys2Proof.Machine
end

section
/-! PROOFS. BitField (41_bitfield): GET_BIT (O12), SET_BIT (O13), EXTRACT_U32 (O14) and OR_U32_AT (O15) under their
own codes, and that a packed field is extracted again (O16, R115). -/

namespace Sys2Proof.Machine

open Sys2Proof Sys2Proof.Safety

/-! ### The unit's codes run its operations, with operands and results in the latches -/

theorem exec_getBit (s : State) :
    exec .getBit s = toOutcome (do
      let b ← getBit s.ports.buf s.ports.bitIndex.toNat s
      .ok (s.setPorts { s.ports with bit := b })) := rfl

theorem exec_setBit (s : State) :
    exec .setBit s = toOutcome (do
      let r ← setBit s.ports.buf s.ports.bitIndex.toNat s
      .ok (r.2.setPorts { s.ports with bit := r.1 })) := rfl

theorem exec_extractU32 (s : State) :
    exec .extractU32 s = toOutcome (extractU32 s.ports.buf s.ports.bitIndex.toNat s.ports.bitCount.toNat s) := rfl

theorem exec_orU32At (s : State) :
    exec .orU32At s = toOutcome (orU32At s.ports.buf s.ports.bitIndex.toNat s.ports.pattern s) := rfl

/-- The latches are no part of a buffer. -/
theorem bufBit_setPorts (M : Buffer) (p : Ports) (s : State) (k : Nat) :
    bufBit M (s.setPorts p) k = bufBit M s k := by
  cases M <;> rfl

/-- Writing the accumulator resizes no buffer. -/
theorem bufSize_setAcc (M : Buffer) (v : Word32) (s : State) : bufSize M (s.setAcc v) = bufSize M s := by
  cases M <;> rfl

/-! ### SET_BIT (R111) -/

/-- The bits of DST with one bit written by OR. -/
theorem bufBit_dst_orBit (s : State) (n k : Nat) :
    bufBit .dst (s.setDst (Memory.write s.dst (n / 8) (dstByte s (n / 8) ||| ((1 : Byte) <<< (n % 8))))) k
      = (bufBit .dst s k || decide (k = n)) := by
  rw [bufBit_dst_write]
  by_cases hbyte : n / 8 = k / 8
  · have hbit : k % 8 = n % 8 ↔ k = n := by omega
    rw [if_pos hbyte, getLsbD_or_one _ _ _ (Nat.mod_lt _ (by omega)) (Nat.mod_lt _ (by omega)), hbyte]
    simp only [hbit]
    rfl
  · have hne : k ≠ n := fun h => hbyte (by rw [h])
    rw [if_neg hbyte, decide_eq_false hne, Bool.or_false]

/-- What SET_BIT has done to the buffer `M`: bit `n` is 1, every other bit of `M` is as before, and so is everything
else. -/
structure BitSet (M : Buffer) (n : Nat) (s t : State) : Prop where
  frame : t = { s with dst := t.dst, acc := t.acc }
  bits : ∀ k, bufBit M t k = (bufBit M s k || decide (k = n))
  acc : M = .dst → t.acc = s.acc
  dst : M = .acc → t.dst = s.dst

/-- SET_BIT inside a buffer that the engine may write. -/
theorem setBit_eq {M : Buffer} {n : Nat} {s : State} (hM : M ≠ .src) (h : n / 8 < bufSize M s) :
    ∃ t, setBit M n s = .ok (bufBit M s n, t) ∧ BitSet M n s t := by
  cases M with
  | src => exact absurd rfl hM
  | dst => exact ⟨_, setBit_dst h, rfl, bufBit_dst_orBit s n, fun _ => rfl, nofun⟩
  | acc =>
    have hn : n < 32 := by
      have : n / 8 < 4 := h
      omega
    obtain ⟨v, he, hv⟩ := setBit_acc (s := s) hn
    refine ⟨s.setAcc v, by rw [bufBit_acc, he], rfl, fun k => ?_, nofun, fun _ => rfl⟩
    rw [bufBit_acc, bufBit_acc, State.setAcc_acc]
    by_cases hk : k < 32
    · exact hv k hk
    · rw [BitVec.getLsbD_of_ge _ _ (by omega), BitVec.getLsbD_of_ge _ _ (by omega),
        decide_eq_false (by omega : k ≠ n)]
      rfl

theorem setBit_src {n : Nat} {s : State} (h : n / 8 < bufSize .src s) :
    setBit .src n s = .error (.fault .srcReadOnly) := by
  rw [setBit, readBuf_eq h]
  rfl

theorem setBit_stuck {M : Buffer} {n : Nat} {s : State} (h : ¬ n / 8 < bufSize M s) :
    setBit M n s = .error (stuckAt .access s) := by
  rw [setBit, readBuf_stuck h]
  rfl

/-! ### EXTRACT_U32 (R112, R114) -/

theorem extractU32_of_count_gt {n : Nat} (M : Buffer) (o : Nat) (s : State) (hn : 32 < n) :
    extractU32 M o n s = .error (stuckAt .extractCount s) := if_neg (by omega)

/-- EXTRACT_U32 of the accumulator, which it clears first, gives 0. -/
theorem extractU32_acc {o n : Nat} {s : State} (hn : n ≤ 32) (hr : ∀ j, j < n → (o + j) / 8 < bufSize .acc s) :
    extractU32 .acc o n s = .ok (s.setAcc 0) := by
  rw [extractU32, if_pos hn]
  exact extractBits_acc_zero o n 0 _ rfl fun j _ hj => hr j (by omega)

theorem extractU32_acc_stuck {o n : Nat} {s : State} (hn : n ≤ 32)
    (hr : ∃ j, j < n ∧ bufSize .acc s ≤ (o + j) / 8) :
    extractU32 .acc o n s = .error (stuckAt .access (s.setAcc 0)) := by
  obtain ⟨j, hj, hout⟩ := hr
  rw [extractU32, if_pos hn]
  exact extractBits_acc_stuck o n 0 _ rfl ⟨j, Nat.zero_le j, by omega, hout⟩

/-- EXTRACT_U32 of a field that leaves SRC or DST: the engine is stuck, with the bits inside the buffer read
(log entry 10). -/
theorem extractU32_stuck {M : Buffer} (hM : M ≠ .acc) {o n : Nat} {s : State} (hn : n ≤ 32)
    (hr : ∃ j, j < n ∧ bufSize M s ≤ (o + j) / 8) :
    ∃ v : Word32, extractU32 M o n s = .error (stuckAt .access (s.setAcc v))
      ∧ ∀ j, j < 32 → v.getLsbD j = (decide ((o + j) / 8 < bufSize M s) && bufBit M s (o + j)) := by
  obtain ⟨j, hj, hout⟩ := hr
  obtain ⟨v, he, hv⟩ := extractBits_stuck hM o n 0 (s.setAcc 0) (by omega)
    ⟨j, Nat.zero_le j, by omega, by rwa [bufSize_setAcc]⟩
  have hbuf : ∀ k, bufBit M (s.setAcc 0) k = bufBit M s k := by
    intro k
    cases M with
    | src | dst => rfl
    | acc => exact absurd rfl hM
  refine ⟨v, (if_pos hn).trans he, fun j hj => ?_⟩
  rw [hv j hj, bufSize_setAcc, hbuf]
  simp

/-! ### OR_U32_AT (R113) -/

/-- OR_U32_AT on SRC stops at its first write (20_memory R60). -/
theorem orU32At_src {o : Nat} (p : Word32) {s : State} (h : o / 8 + 4 ≤ bufSize .src s) :
    orU32At .src o p s = .error (.fault .srcReadOnly) := by
  rw [orU32At, if_pos h, orBytes, readBuf_eq (by omega)]
  rfl

/-- A pattern of at most `n` bits has no bit from `n` on. -/
theorem getLsbD_of_toNat_lt {p : Word32} {n j : Nat} (hp : p.toNat < 2 ^ n) (hj : n ≤ j) : p.getLsbD j = false :=
  Nat.testBit_lt_two_pow (Nat.lt_of_lt_of_le hp (Nat.pow_le_pow_right (by omega) hj))

/-- Packing a field of DST (R115): of at most 25 bits, none of a pattern that fits is shifted out of the word, whatever
the offset within the byte, so that OR_U32_AT ORs the pattern into the field and leaves every other bit as it was. -/
theorem orU32At_dst_field {o n : Nat} {p : Word32} {s : State} (hn : n ≤ 25) (hp : p.toNat < 2 ^ n)
    (hroom : o / 8 + 4 ≤ s.par.dstCap) :
    ∃ m, orU32At .dst o p s = .ok (s.setDst m)
      ∧ (∀ j, j < n → bufBit .dst (s.setDst m) (o + j) = (bufBit .dst s (o + j) || p.getLsbD j))
      ∧ ∀ k, (k < o ∨ o + n ≤ k) → bufBit .dst (s.setDst m) k = bufBit .dst s k := by
  obtain ⟨m, he, hbits, _⟩ := orU32At_dst_bits o p s hroom
  refine ⟨m, he, fun j hj => ?_, fun k hk => ?_⟩
  · have hin : o ≤ o + j ∧ o + j < o + (32 - o % 8) := by omega
    rw [hbits, decide_eq_true hin, Bool.true_and, Nat.add_sub_cancel_left]
  · rw [hbits]
    rcases hk with hbefore | hafter
    · have hout : ¬ (o ≤ k ∧ k < o + (32 - o % 8)) := by omega
      rw [decide_eq_false hout, Bool.false_and, Bool.or_false]
    · rw [getLsbD_of_toNat_lt hp (by omega), Bool.and_false, Bool.or_false]

/-! ### The statements -/

/-- Settles O12: inside and outside the buffer. -/
theorem getBitReadsOneBit : Obligations.GetBitReadsOneBit := by
  intro s
  rw [exec_getBit]
  refine ⟨fun hin => ?_, fun hout => ?_⟩
  · rw [getBit_eq hin]
    rfl
  · rw [getBit_stuck (Nat.not_lt.2 hout)]
    rfl

/-- Settles O13: a buffer that the engine may write, SRC, and outside the buffer; the latch that then takes the prior
value is no part of a buffer. -/
theorem setBitSetsOneBit : Obligations.SetBitSetsOneBit := by
  intro s
  rw [exec_setBit]
  refine ⟨fun hM hin => ?_, fun hM hin => ?_, fun hout => ?_⟩
  · obtain ⟨t, he, hset⟩ := setBit_eq hM hin
    rw [he]
    refine ⟨_, rfl, ?_, fun k => (bufBit_setPorts _ _ t k).trans (hset.bits k), hset.acc, hset.dst⟩
    exact congrArg (State.setPorts _) hset.frame
  · rw [hM, setBit_src hin]
    rfl
  · rw [setBit_stuck (Nat.not_lt.2 hout)]
    rfl

/-- Settles O14: for each clause with a legal count, the accumulator as its own source apart from SRC and DST. -/
theorem extractU32ReadsField : Obligations.ExtractU32ReadsField := by
  intro s
  rw [exec_extractU32]
  refine ⟨fun hn hin => ?_, fun hn => ?_, fun hn hout => ?_⟩
  · by_cases hM : s.ports.buf = .acc
    · rw [hM] at hin ⊢
      rw [extractU32_acc hn hin]
      exact ⟨0, rfl, fun j _ => by simp⟩
    · obtain ⟨v, he, hv⟩ := extractU32_eq hM _ _ s hn hin
      refine ⟨v, by rw [he]; rfl, fun j hj => ?_⟩
      rw [hv j hj, decide_eq_true hM, Bool.and_true]
  · rw [extractU32_of_count_gt _ _ s hn]
    rfl
  · by_cases hM : s.ports.buf = .acc
    · rw [hM] at hout ⊢
      rw [extractU32_acc_stuck hn hout]
      exact ⟨0, rfl, fun j _ => by simp⟩
    · obtain ⟨v, he, hv⟩ := extractU32_stuck hM hn hout
      refine ⟨v, by rw [he]; rfl, fun j hj => ?_⟩
      rw [hv j hj, decide_eq_true hM, Bool.and_true]

/-- Settles O15: the three buffers, and too little room in any of them. -/
theorem orU32AtOrsWord : Obligations.OrU32AtOrsWord := by
  intro s
  rw [exec_orU32At]
  refine ⟨fun hM hroom => ?_, fun hM ho => ?_, fun hM hroom => ?_, fun hroom => ?_⟩
  · obtain ⟨m, he, hbytes, _⟩ := orU32At_dst _ s.ports.pattern s hroom
    rw [hM, he]
    exact ⟨_, rfl, rfl, hbytes⟩
  · rw [hM, orU32At_acc _ _ s ho]
    rfl
  · rw [hM, orU32At_src _ hroom]
    rfl
  · rw [orU32At_stuck _ _ _ s (Nat.not_le.2 hroom)]
    rfl

/-- Settles O16: the packed field holds the pattern, which EXTRACT_U32 then reads, writing nothing but `acc`. -/
theorem packThenUnpack : Obligations.PackThenUnpack := by
  intro s hM hn hp hroom hzero
  obtain ⟨m, hor, hfield, hrest⟩ := orU32At_dst_field hn hp hroom
  obtain ⟨v, hext, hv⟩ := extractU32_eq (M := .dst) nofun s.ports.bitIndex.toNat s.ports.bitCount.toNat (s.setDst m)
    (by omega) (fun j hj => by show _ < s.par.dstCap; omega)
  refine ⟨s.setDst m, (s.setDst m).setAcc v, ?_, ?_, ?_, hrest⟩
  · rw [exec_orU32At, hM, hor]
    rfl
  · rw [exec_extractU32, State.setDst_ports, hM, hext]
    rfl
  · apply BitVec.eq_of_getLsbD_eq
    intro j hj
    rw [State.setAcc_acc, hv j hj]
    by_cases hjn : j < s.ports.bitCount.toNat
    · rw [decide_eq_true hjn, Bool.true_and, hfield j hjn, hzero j hjn, Bool.false_or]
    · rw [decide_eq_false hjn, Bool.false_and, getLsbD_of_toNat_lt hp (by omega)]

end Sys2Proof.Machine
end

section
/-! PROOFS. Dictionary (42_dictionary R130 to R139): each operation of the DictionaryTable unit under its own code
(O17 to O25), and that every step keeps the width, the ceiling, `next_free` and `full` of both dictionaries in agreement
(O59, R143). -/

namespace Sys2Proof.Machine

open Sys2Proof Sys2Proof.Safety

/-! ### The unit's codes run its operations on the latched dictionary, with operands and results in the latches -/

theorem exec_dictInit (s : State) :
    exec .dictInit s = .next (s.setDict s.ports.dict (dictInit s.ports.minBits (s.dict s.ports.dict))) := rfl

theorem exec_dictWidth (s : State) :
    exec .dictWidth s
      = .next (s.setPorts { s.ports with width := BitVec.ofNat 4 (dictWidth s.ports.freeSlot.toNat) }) := rfl

theorem exec_dictLookup (s : State) :
    exec .dictLookup s = .next (s.setPorts
      { s.ports with code := dictLookup (s.dict s.ports.dict) s.ports.pfx s.ports.byte }) := rfl

theorem exec_dictEligible (s : State) :
    exec .dictEligible s = .next (s.setPorts
      { s.ports with bit := dictEligible (s.dict s.ports.dict) s.ports.slot s.ports.pfx }) := rfl

theorem exec_dictNextSlot (s : State) :
    exec .dictNextSlot s
      = .next (s.setPorts { s.ports with code := dictNextSlot (s.dict s.ports.dict) s.ports.pfx }) := rfl

theorem exec_dictUnlink (s : State) :
    exec .dictUnlink s = .next (s.setDict s.ports.dict (dictUnlink s.ports.slot (s.dict s.ports.dict))) := rfl

theorem exec_dictInsert {s : State} {c : Option Code} {d : Dict}
    (h : dictInsert s.ports.pfx s.ports.byte (s.dict s.ports.dict) = (c, d)) :
    exec .dictInsert s = .next ((s.setDict s.ports.dict d).setPorts { s.ports with code := c }) := by
  rw [exec, execDictInsert, h]

theorem exec_dictReadWidth (s : State) :
    exec .dictReadWidth s
      = .next (s.setPorts { s.ports with width := BitVec.ofNat 4 (dictReadWidth (s.dict s.ports.dict)) }) := rfl

/-- Writing a dictionary back as it is changes nothing. -/
theorem State.setDict_dict (D : DictSel) (s : State) : s.setDict D (s.dict D) = s := by
  cases D <;> rfl

/-! ### The registers -/

/-- A width of the table fits its 4-bit latch. -/
theorem toNat_ofNat_of_width {w : Nat} (h : w ≤ 12) : (BitVec.ofNat 4 w).toNat = w := by
  rw [BitVec.toNat_ofNat, Nat.mod_eq_of_lt (by omega)]

/-- With a legal MIN_BITS none of the values that DICT_INIT writes leaves its register (R130). -/
theorem dictInit_regs {mb : BitVec 4} (h : minBitsLegal mb) (d : Dict) :
    (dictInit mb d).codeWidth.toNat = mb.toNat + 1 ∧ (dictInit mb d).ceiling.toNat = 2 ^ (mb.toNat + 1)
      ∧ (dictInit mb d).nextFree.toNat = 2 ^ mb.toNat := by
  rcases h with rfl | rfl <;> exact ⟨rfl, rfl, rfl⟩

/-- While the table grows, `next_free` is a slot. -/
theorem toNat_setWidth_of_lt {n : BitVec 13} (h : n.toNat < 4096) : (n.setWidth 12).toNat = n.toNat := by
  rw [BitVec.toNat_setWidth, Nat.mod_eq_of_lt h]

/-! ### DICT_NEXT_SLOT (R134) -/

theorem dictNextSlot_of_growing {d : Dict} (hf : d.full = false) (P : Code) :
    dictNextSlot d P = some (d.nextFree.setWidth 12) := if_neg (by simp [hf])

theorem dictNextSlot_of_full {d : Dict} (hf : d.full = true) (P : Code) :
    dictNextSlot d P = scanSlots d P (4096 - d.base) d.recycleCursor := if_pos hf

/-! ### DICT_UNLINK (R135) -/

theorem dictUnlink_of_head {d : Dict} {s : Code} (h : d.headAt (d.pfxAt s.toNat).toNat = some s) :
    dictUnlink s d = d.putHead (d.pfxAt s.toNat).toNat (d.linkAt s.toNat) := if_pos h

theorem dictUnlink_of_not_head {d : Dict} {s : Code} (h : d.headAt (d.pfxAt s.toNat).toNat ≠ some s) :
    dictUnlink s d = unlinkFrom s (4096 - d.base) (d.headAt (d.pfxAt s.toNat).toNat) d := if_neg h

/-- The head of every other chain stays. -/
theorem dictUnlink_headAt_of_ne {d : Dict} {s : Code} {p : Nat} (hp : p ≠ (d.pfxAt s.toNat).toNat) :
    (dictUnlink s d).headAt p = d.headAt p := by
  by_cases h : d.headAt (d.pfxAt s.toNat).toNat = some s
  · rw [dictUnlink_of_head h, Dict.headAt_putHead, if_neg (Ne.symm hp)]
  · rw [dictUnlink_of_not_head h, unlinkFrom_headAt]

/-- DICT_UNLINK takes a member out of the chain of its bucket and writes no link but those of the chain's other members.
The first member goes by a write of the head, a later one by the walk (`unlinkFrom_chain`). -/
theorem dictUnlink_chain {d : Dict} {s : Code} {l : List Code}
    (hc : chainIs d (d.headAt (d.pfxAt s.toNat).toNat) l) (hn : l.Nodup) (hs : s ∈ l)
    (hlen : l.length ≤ 4096 - d.base) :
    chainIs (dictUnlink s d) ((dictUnlink s d).headAt (d.pfxAt s.toNat).toNat) (l.erase s)
      ∧ (∀ x, (∀ e ∈ l, e.toNat ≠ x) → (dictUnlink s d).linkAt x = d.linkAt x)
      ∧ (dictUnlink s d).linkAt s.toNat = d.linkAt s.toNat := by
  by_cases h : d.headAt (d.pfxAt s.toNat).toNat = some s
  · cases l with
    | nil => cases hs
    | cons a l =>
      obtain ⟨ha, htail⟩ := hc
      obtain rfl : s = a := Option.some.inj (h.symm.trans ha)
      rw [dictUnlink_of_head h, Dict.headAt_putHead, if_pos rfl, List.erase_cons_head]
      exact ⟨chainIs_congr (d := d) (fun _ _ => rfl) htail, fun _ _ => rfl, rfl⟩
  · rw [dictUnlink_of_not_head h, unlinkFrom_headAt]
    exact unlinkFrom_chain s _ _ d l hc hn hs h hlen

/-! ### DICT_INSERT (R136) -/

/-- The arrays of `d'` are those of `d` but for the entry `{P, B}` in slot `c` at the head of bucket `P`. -/
structure EntryPlaced (c P : Code) (B : Byte) (d d' : Dict) : Prop where
  pfx : ∀ x, d'.pfxAt x = if x = c.toNat then P.setWidth 16 else d.pfxAt x
  trailing : ∀ x, d'.trailingAt x = if x = c.toNat then B else d.trailingAt x
  link : ∀ x, d'.linkAt x = if x = c.toNat then d.headAt P.toNat else d.linkAt x
  head : ∀ p, d'.headAt p = if p = P.toNat then some c else d.headAt p

theorem EntryPlaced.placeEntry (c P : Code) (B : Byte) (d : Dict) : EntryPlaced c P B d (placeEntry c P B d) where
  pfx x := by rw [placeEntry_pfxAt]; simp only [eq_comm]
  trailing x := by rw [placeEntry_trailingAt]; simp only [eq_comm]
  link x := by rw [placeEntry_linkAt]; simp only [eq_comm]
  head p := by rw [placeEntry_headAt]; simp only [eq_comm]

/-- GROW writes no array. -/
theorem EntryPlaced.grow {c P : Code} {B : Byte} {d d' : Dict} (h : EntryPlaced c P B d d') :
    EntryPlaced c P B d (grow d') where
  pfx x := (grow_pfxAt d' x).trans (h.pfx x)
  trailing x := (grow_trailingAt d' x).trans (h.trailing x)
  link x := (grow_linkAt d' x).trans (h.link x)
  head p := (grow_headAt d' p).trans (h.head p)

/-- Placing an entry leaves the registers to GROW (`grow_regs`). -/
theorem grow_placeEntry_regs {d : Dict} (h : dictRegs d) (hf : d.full = false) (c P : Code) (B : Byte) :
    (grow (placeEntry c P B d)).nextFree.toNat = d.nextFree.toNat + 1
      ∧ (grow (placeEntry c P B d)).codeWidth.toNat
        = (if d.nextFree.toNat + 1 = d.ceiling.toNat ∧ d.codeWidth.toNat < 12
            then d.codeWidth.toNat + 1 else d.codeWidth.toNat)
      ∧ (grow (placeEntry c P B d)).ceiling.toNat
        = (if d.nextFree.toNat + 1 = d.ceiling.toNat ∧ d.codeWidth.toNat < 12
            then 2 * d.ceiling.toNat else d.ceiling.toNat)
      ∧ (grow (placeEntry c P B d)).full = decide (d.nextFree.toNat + 1 = 4096)
      ∧ (grow (placeEntry c P B d)).minBits = d.minBits
      ∧ (grow (placeEntry c P B d)).recycleCursor = d.recycleCursor := by
  obtain ⟨hnext, hwidth, hceil, hfull⟩ := grow_regs (d := placeEntry c P B d) h hf
  exact ⟨hnext, hwidth, hceil, hfull, grow_minBits (placeEntry c P B d), grow_recycleCursor (placeEntry c P B d)⟩

/-- A recycling insertion writes no register but the cursor: the eviction sets it, and the entry is placed in the arrays
alone. -/
theorem placeEntry_evict_regs (c P : Code) (B : Byte) (d : Dict) :
    (placeEntry c P B (evict c d)).recycleCursor = c ∧ (placeEntry c P B (evict c d)).nextFree = d.nextFree
      ∧ (placeEntry c P B (evict c d)).codeWidth = d.codeWidth ∧ (placeEntry c P B (evict c d)).ceiling = d.ceiling
      ∧ (placeEntry c P B (evict c d)).full = d.full ∧ (placeEntry c P B (evict c d)).minBits = d.minBits :=
  ⟨rfl, evict_nextFree c d, evict_codeWidth c d, evict_ceiling c d, evict_full c d, evict_minBits c d⟩

/-! ### The statements -/

/-- Settles O59: each of the two sides' moves keeps both dictionaries' registers legal, and so does choosing between
them. -/
theorem widthInvariantKept : Obligations.WidthInvariantKept :=
  fun _ _ hs h => (step_hostMoved h).widths hs

/-- Settles O18, by the widths that hold the argument (`dictWidth_le_iff`): DICT_WIDTH is one, and no smaller width
is. -/
theorem dictWidthIsLeastWidth : Obligations.DictWidthIsLeastWidth := by
  intro s
  have hle : dictWidth s.ports.freeSlot.toNat ≤ 12 := dictWidth_le _
  refine ⟨_, exec_dictWidth s, ?_⟩
  rw [toNat_ofNat_of_width hle]
  refine ⟨hle, ?_, fun v hv => ?_⟩
  · have hholds := (dictWidth_le_iff s.ports.freeSlot.toNat _).1 (Nat.le_refl _)
    omega
  · have hnot := mt (dictWidth_le_iff s.ports.freeSlot.toNat v).2 (by omega)
    omega

/-- Settles O19: the walk is the search of the bucket's members. -/
theorem dictLookupFirstMatch : Obligations.DictLookupFirstMatch := by
  intro s
  rw [exec_dictLookup, dictLookup, chainFind_eq]
  rfl

/-- Settles O21: the growing table, and the scan of a full one, which meets every slot of the circle. -/
theorem dictNextSlotScansCircle : Obligations.DictNextSlotScansCircle := by
  rintro s d rfl hmb hcur hnext
  have hbase : (s.dict s.ports.dict).base < 4096 := by
    have := Dict.base_le_of_legal hmb
    omega
  obtain ⟨hfound, hnone⟩ := scanSlots_spec hbase s.ports.pfx (4096 - (s.dict s.ports.dict).base) _ hcur
  refine ⟨_, exec_dictNextSlot s, fun hf => ?_, fun hf c hc => ?_, fun hf hr x hx hx' => ?_⟩
  · exact ⟨_, dictNextSlot_of_growing hf _, toNat_setWidth_of_lt (hnext hf)⟩
  · rw [dictNextSlot_of_full hf] at hc
    exact hfound c hc
  · rw [dictNextSlot_of_full hf] at hr
    obtain ⟨k, hk1, hk2, rfl⟩ := slotOnCircle_surj hcur (BitVec.isLt _) hx hx'
    exact hnone hr k hk1 hk2

/-- Settles O22, by `dictUnlink_chain`. -/
theorem dictUnlinkRemovesSlot : Obligations.DictUnlinkRemovesSlot := by
  intro s l d hd hc hn hs hlen
  subst hd
  obtain ⟨hchain, hlinks, hslot⟩ := dictUnlink_chain hc hn hs hlen
  exact ⟨_, exec_dictUnlink s, hchain, fun p hp => dictUnlink_headAt_of_ne hp, hlinks, hslot, dictUnlink_eq _ _⟩

/-- Settles O23: the entry is placed in `next_free`'s slot, which leaves the registers to GROW. -/
theorem dictInsertGrowth : Obligations.DictInsertGrowth := by
  intro s d hd hregs hf
  subst hd
  have hlt := (dictRegs_growth hregs hf).1
  have hentry := (EntryPlaced.placeEntry ((s.dict s.ports.dict).nextFree.setWidth 12) s.ports.pfx s.ports.byte
    (s.dict s.ports.dict)).grow
  exact ⟨_, _, exec_dictInsert (dictInsert_growth hf _ _), toNat_setWidth_of_lt hlt, hentry.pfx, hentry.trailing,
    hentry.link, hentry.head, grow_placeEntry_regs hregs hf _ _ _⟩

/-- Settles O24: with no slot to recycle the dictionary is written back as it is; else the entry is placed in the
evicted slot. -/
theorem dictInsertRecycling : Obligations.DictInsertRecycling := by
  rintro s d rfl hf
  obtain ⟨hnone, hsome⟩ := dictInsert_recycling hf s.ports.pfx s.ports.byte
  refine ⟨fun hslot => ?_, fun c hslot => ?_⟩
  · rw [exec_dictInsert (hnone hslot), State.setDict_dict]
  · have hentry := EntryPlaced.placeEntry c s.ports.pfx s.ports.byte (evict c (s.dict s.ports.dict))
    obtain ⟨hcursor, hnext, hwidth, hceil, hfull, hmb⟩ :=
      placeEntry_evict_regs c s.ports.pfx s.ports.byte (s.dict s.ports.dict)
    refine ⟨_, exec_dictInsert (hsome c hslot), fun x => ?_, fun x => ?_, hentry.link, hentry.head, hcursor, hnext,
      hwidth, hceil, hfull.trans hf, hmb⟩
    · rw [hentry.pfx, evict_pfxAt]
    · rw [hentry.trailing, evict_trailingAt]

/-- Settles O25, by `dictReadWidth_eq`: the width after the next GROW. -/
theorem dictReadWidthOneAhead : Obligations.DictReadWidthOneAhead := by
  rintro s d rfl hregs
  refine ⟨_, exec_dictReadWidth s, ?_⟩
  rw [toNat_ofNat_of_width (dictReadWidth_le _), dictReadWidth_eq hregs]

/-- Settles O17: the registers by `dictInit_regs`, the arrays as DICT_INIT leaves them. -/
theorem dictInitStartsEmptyTable : Obligations.DictInitStartsEmptyTable := by
  intro s hmb
  obtain ⟨hwidth, hceil, hnext⟩ := dictInit_regs hmb (s.dict s.ports.dict)
  exact ⟨_, exec_dictInit s, rfl, rfl, hwidth, hceil, hnext, rfl, rfl, fun _ => rfl, rfl, rfl, rfl⟩

/-- Settles O20: the test on the latched operands, as the unit makes it. -/
theorem dictEligibleIsLeafOtherThanPrefix : Obligations.DictEligibleIsLeafOtherThanPrefix :=
  exec_dictEligible

end Sys2Proof.Machine
end

section
/-! PROOFS. Compressor (43_compressor R160 to R165): each operation of the Compressor unit under its own code: the
prescan (O26), the start (O27), the first byte (O28), a step (O29), and the emission of a code, also as the last one
(O30). -/

namespace Sys2Proof.Machine

open Sys2Proof Sys2Proof.Safety

/-! ### The unit's codes run its operations -/

theorem exec_compPrescan (s : State) : exec .compPrescan s = toOutcome (compPrescan s) := rfl

theorem exec_compStart (s : State) : exec .compStart s = toOutcome (compStart s) := rfl

theorem exec_compStepFirst (s : State) : exec .compStepFirst s = toOutcome (compStepFirst s) := rfl

theorem exec_compStep (s : State) : exec .compStep s = toOutcome (compStep s) := rfl

/-- COMP_EMIT under its own code emits `basecode` and leaves OK or FAIL in the latch. -/
theorem exec_compEmit {s : State} {r : Bool × State} (h : compEmit s.comp.basecode s = .ok r) :
    exec .compEmit s = .next (r.2.setPorts { s.ports with bit := r.1 }) := by
  rw [exec, execCompEmit, h]
  rfl

theorem exec_compFinish (s : State) : exec .compFinish s = toOutcome (compFinish s) := rfl

/-! ### COMP_PRESCAN (R160) -/

/-- A source that SRC holds is all there for the engine to read (log entry 11). -/
theorem srcSize_of_le_srcCap {s : State} (h : s.srcLen.toNat ≤ s.par.srcCap) : srcSize s = s.srcLen.toNat :=
  Nat.min_eq_left h

/-- COMP_PRESCAN of a source that SRC holds decides between the two modes by the high bits of its bytes. -/
theorem compPrescan_eq {s : State} (h : s.srcLen.toNat ≤ s.par.srcCap) :
    ∃ high : Bool, compPrescan s = .ok (s.setPorts { s.ports with minBits := if high then 8 else 7 })
      ∧ (high = true ↔ ∃ i, i < s.srcLen.toNat ∧ 0x80 ≤ (srcByte s i).toNat) := by
  obtain ⟨high, hscan, hiff⟩ := scanHigh_eq s.srcLen.toNat 0 s (by rw [srcSize_of_le_srcCap h, Nat.zero_add])
  refine ⟨high, by rw [compPrescan, hscan, Res.ok_bind], ?_⟩
  simpa using hiff

/-! ### COMP_STEP_FIRST (R162) -/

theorem compStepFirst_of_empty {s : State} (h : s.comp.srcIndex = s.comp.srcLen) :
    compStepFirst s = .ok (s.setComp { s.comp with state := .exhausted }) := if_pos h

theorem compStepFirst_of_byte {s : State} (h : s.comp.srcIndex ≠ s.comp.srcLen) (hin : 0 < srcSize s) :
    compStepFirst s = .ok (s.setComp { s.comp with
      basecode := (srcByte s 0).setWidth 12, basecodeValid := true, srcIndex := 1, state := .accumulate }) := by
  rw [compStepFirst, if_neg h, readSrc_eq hin, Res.ok_bind]

/-! ### COMP_STEP (R163) and COMP_FINISH (R165), from what COMP_EMIT answers -/

section
variable {s : State} {b : Byte} (hb : b = srcByte s s.comp.srcIndex.toNat) (hin : s.comp.srcIndex.toNat < srcSize s)
include hb hin

theorem compStep_of_hit {e : Code} (hhit : dictLookup s.dictC s.comp.basecode b = some e) :
    compStep s = .ok (s.setComp { s.comp with basecode := e, srcIndex := s.comp.srcIndex + 1 }) := by
  rw [compStep, readSrc_eq hin, Res.ok_bind, ← hb, hhit]

theorem compStep_of_emit_fail {t : State} (hmiss : dictLookup s.dictC s.comp.basecode b = none)
    (hemit : compEmit s.comp.basecode s = .ok (false, t)) :
    compStep s = .ok (t.setComp { t.comp with state := .failed }) := by
  rw [compStep, readSrc_eq hin, Res.ok_bind, ← hb, hmiss]
  dsimp only
  rw [hemit]
  rfl

theorem compStep_of_emit_ok {t : State} (hmiss : dictLookup s.dictC s.comp.basecode b = none)
    (hemit : compEmit s.comp.basecode s = .ok (true, t)) :
    compStep s = .ok ((t.setDictC (dictInsert s.comp.basecode b t.dictC).2).setComp
      { t.comp with basecode := b.setWidth 12, srcIndex := t.comp.srcIndex + 1 }) := by
  rw [compStep, readSrc_eq hin, Res.ok_bind, ← hb, hmiss]
  dsimp only
  rw [hemit]
  rfl

end

theorem compFinish_of_emit {s t : State} {ok : Bool} (hemit : compEmit s.comp.basecode s = .ok (ok, t)) :
    compFinish s = .ok (t.setComp { t.comp with state := if ok then .exhausted else .failed }) := by
  rw [compFinish, hemit, Res.ok_bind]

/-! ### The statements -/

/-- Settles O26: a high bit makes the mode 8, and none makes it 7. -/
theorem compPrescanChoosesMode : Obligations.CompPrescanChoosesMode := by
  intro s hcap
  obtain ⟨high, he, hiff⟩ := compPrescan_eq hcap
  refine ⟨if high then 8 else 7, by rw [exec_compPrescan, he]; rfl, fun hhigh => ?_, fun hlow => ?_⟩
  · exact if_pos (hiff.2 hhigh)
  · refine if_neg fun htrue => ?_
    obtain ⟨i, hi, hhigh⟩ := hiff.1 htrue
    exact absurd (hlow i hi) (Nat.not_lt.2 hhigh)

/-- Settles O29: a hit, and a miss by what COMP_EMIT then answers. -/
theorem compStepConsumesByte : Obligations.CompStepConsumesByte := by
  rintro s b w hb rfl hin
  rw [exec_compStep]
  refine ⟨fun e hhit => ?_, fun hmiss hfull => ?_, fun hmiss hfits hroom => ?_⟩
  · rw [compStep_of_hit hb hin hhit]
    rfl
  · rw [compStep_of_emit_fail hb hin hmiss (compEmit_fail hfull)]
    rfl
  · obtain ⟨m, hemit, hbits, _⟩ := compEmit_ok (c := s.comp.basecode) hfits hroom
    rw [compStep_of_emit_ok hb hin hmiss hemit]
    exact ⟨_, rfl, rfl, hbits⟩

/-- Settles O30: both operations make the same emission, which fails or fits. -/
theorem compEmitPacksCode : Obligations.CompEmitPacksCode := by
  rintro s w rfl
  rw [exec_compFinish]
  refine ⟨fun hfull => ?_, fun hfits hroom => ?_⟩
  · have hemit := compEmit_fail (c := s.comp.basecode) hfull
    rw [exec_compEmit hemit, compFinish_of_emit hemit]
    exact ⟨rfl, rfl⟩
  · obtain ⟨m, hemit, hbits, _⟩ := compEmit_ok (c := s.comp.basecode) hfits hroom
    rw [exec_compEmit hemit, compFinish_of_emit hemit]
    exact ⟨_, _, rfl, rfl, rfl, rfl, hbits⟩

/-- Settles O27: the zeroed range, and the bit counts, which fit their 35-bit cursors. -/
theorem compStartInitialises : Obligations.CompStartInitialises := by
  intro s hroom hlen
  have hcap : (BitVec.ofNat 35 (8 * (s.srcLen.toNat + 17))).toNat = 8 * (s.srcLen.toNat + 17) := by
    rw [BitVec.toNat_ofNat, Nat.mod_eq_of_lt (by omega)]
  rw [exec_compStart, compStart_eq s hroom]
  exact ⟨_, rfl, rfl, dstByte_zeroedDst s, rfl, rfl, rfl, rfl, rfl, hcap, rfl⟩

/-- Settles O28: the empty source and the first byte. -/
theorem compStepFirstTakesByte : Obligations.CompStepFirstTakesByte := by
  intro s
  rw [exec_compStepFirst]
  refine ⟨fun hempty => ?_, fun hne hin => ?_⟩
  · rw [compStepFirst_of_empty hempty]
    rfl
  · rw [compStepFirst_of_byte hne hin]
    rfl

end Sys2Proof.Machine
end

section
/-! PROOFS. Decompressor (44_decompressor R190 to R198): each operation of the Decompressor unit under its own code:
the start (O31), the reading of a code (O32), the first code (O33), the kinds of a later one (O34), its expansion (O35),
the room check after it (O36), the insertion (O37), the emptying of the stack (O38) and the end (O39). -/

namespace Sys2Proof.Machine

open Sys2Proof Sys2Proof.Safety

/-! ### The unit's codes run its operations -/

theorem exec_decStart (s : State) : exec .decStart s = .next (decStart s) := rfl

theorem exec_decRead (s : State) : exec .decRead s = toOutcome (decRead s) := rfl

theorem exec_decFirst (s : State) : exec .decFirst s = toOutcome (decFirst s) := rfl

theorem exec_decClassify (s : State) : exec .decClassify s = .next (decClassify s) := rfl

theorem exec_decExpand (s : State) :
    exec .decExpand s = .next (s.setDec (expandDec s.dictD s.ports.kind s.ports.xcode s.dec)) := rfl

theorem exec_decInsert (s : State) : exec .decInsert s = .next (decInsert s) := rfl

theorem exec_decPop (s : State) : exec .decPop s = toOutcome (decPop s) := rfl

theorem exec_decEnd (s : State) :
    exec .decEnd s = .next (s.setPorts { s.ports with result := decOutcome s.dec }) := rfl

/-! ### DEC_READ (R191) -/

theorem decRead_of_end {s : State} (h : s.dec.outIndex = s.dec.expSize
      ∨ s.dec.budgetBits.toNat - s.dec.inBit.toNat < dictReadWidth s.dictD) :
    decRead s = .ok (decReadEnd s) := by
  unfold decRead
  split
  · rfl
  · next hne => exact if_pos (h.resolve_left hne)

theorem decRead_of_code {s : State} (hne : s.dec.outIndex ≠ s.dec.expSize)
    (hfits : dictReadWidth s.dictD ≤ s.dec.budgetBits.toNat - s.dec.inBit.toNat) :
    decRead s = decReadCode (dictReadWidth s.dictD) s := by
  rw [decRead, if_neg hne]
  exact if_neg (Nat.not_lt.2 hfits)

/-! ### DEC_FIRST (R192) -/

theorem decFirst_of_not_literal {s : State} (h : s.dictD.base ≤ s.dec.curCode.toNat) :
    decFirst s = .ok (s.setDec { s.dec with state := .error }) := if_pos h

theorem decFirst_of_literal {s : State} (h : s.dec.curCode.toNat < s.dictD.base)
    (hroom : s.dec.outIndex.toNat < s.par.dstCap) :
    decFirst s = .ok ((s.setDst (Memory.write s.dst s.dec.outIndex.toNat (s.dec.curCode.setWidth 8))).setDec
      { s.dec with
        outIndex := 1, firstByte := s.dec.curCode.setWidth 8, prevCode := s.dec.curCode
        prevValid := true, state := .awaitNextCode }) := by
  rw [decFirst, if_neg (Nat.not_le.2 h), writeDst_eq hroom]
  rfl

/-! ### DEC_CLASSIFY (R193) -/

section
variable {d : Dict} {prev c : Code}

theorem classify_self (h : dictNextSlot d prev = some c) : classify d prev c = .self := if_pos h

theorem classify_undefined (h : dictNextSlot d prev ≠ some c) (hf : d.full = false)
    (hc : d.nextFree.toNat < c.toNat) : classify d prev c = .undefined := by
  rw [classify, if_neg h, if_pos ⟨hf, hc⟩]

theorem classify_direct (h : dictNextSlot d prev ≠ some c) (hc : d.full = true ∨ c.toNat ≤ d.nextFree.toNat) :
    classify d prev c = .direct := by
  have hdef : ¬(d.full = false ∧ d.nextFree.toNat < c.toNat) := by
    rintro ⟨hf, hlt⟩
    rcases hc with hfull | hle
    · rw [hf] at hfull
      cases hfull
    · omega
  rw [classify, if_neg h, if_neg hdef]

end

/-! ### The room check (R195) and what follows it -/

theorem sequenceNext_decExpand {s : State} (hseq : s.seq = .dRun) :
    sequenceNext .decExpand s = decExpandNext s := by
  rw [sequenceNext, hseq]

theorem roomCheck_of_overflow {s : State} (h : s.dec.expSize.toNat < s.dec.outIndex.toNat + s.dec.sp.toNat) :
    roomCheck s = s.setDec { s.dec with state := .error } := if_pos h

theorem roomCheck_of_room {s : State} (h : s.dec.outIndex.toNat + s.dec.sp.toNat ≤ s.dec.expSize.toNat) :
    roomCheck s = s := if_neg (Nat.not_lt.2 h)

/-! ### DEC_POP (R197) -/

/-- The stack read from its top down. -/
theorem getD_reverse_stackBytes (d : Dec) {i : Nat} (h : i < d.sp.toNat) :
    (stackBytes d).reverse.getD i 0 = Table.get 0 d.stack (d.sp.toNat - 1 - i) := by
  rw [← getD_stackBytes d _ (show d.sp.toNat - 1 - i < d.sp.toNat by omega), List.getD_eq_getElem?_getD,
    List.getElem?_reverse (by rwa [length_stackBytes]), length_stackBytes, List.getD_eq_getElem?_getD]

/-- With room for the whole stack, the loop empties it into DST (`popBytes_spec`). -/
theorem decPop_eq {s : State} (hroom : s.dec.outIndex.toNat + s.dec.sp.toNat ≤ s.par.dstCap)
    (hidx : s.dec.outIndex.toNat + s.dec.sp.toNat < 2 ^ 32) :
    ∃ m : List Host.Cell,
      decPop s = .ok ((s.setDst m).setDec { s.dec with
        sp := 0, state := .awaitNextCode
        outIndex := BitVec.ofNat 32 (s.dec.outIndex.toNat + s.dec.sp.toNat) })
      ∧ ∀ a, Memory.read m a
          = if s.dec.outIndex.toNat ≤ a ∧ a < s.dec.outIndex.toNat + s.dec.sp.toNat then
              (stackBytes s.dec).reverse.getD (a - s.dec.outIndex.toNat) 0
            else dstByte s a := by
  obtain ⟨m, hpop, hread, _⟩ := popBytes_spec s.dec.sp.toNat s (Nat.le_refl _) hroom hidx
  refine ⟨m, ?_, fun a => (hread a).trans ?_⟩
  · rw [decPop, hpop, Res.ok_bind, Nat.sub_self]
    rfl
  · split
    · rw [getD_reverse_stackBytes _ (by omega)]
    · rfl

/-! ### DEC_END (R198) -/

theorem decOutcome_ok {d : Dec} (hdone : d.state = .done) (hfull : d.outIndex = d.expSize) : decOutcome d = .ok :=
  if_pos ⟨hdone, hfull⟩

theorem decOutcome_framing {d : Dec} (h : d.state ≠ .done ∨ d.outIndex ≠ d.expSize) : decOutcome d = .framing :=
  if_neg (not_and_or.2 h)

/-! ### The statements -/

/-- Settles O32: the end of decoding, and the code's bits as EXTRACT_U32 reads them (`decReadCode_eq`). -/
theorem decReadNextCode : Obligations.DecReadNextCode := by
  rintro s w rfl
  rw [exec_decRead]
  refine ⟨fun hend => ?_, fun hne hfits hin => ?_⟩
  · rw [decRead_of_end hend]
    rfl
  · obtain ⟨c, hread, hbits⟩ := decReadCode_eq (dictReadWidth s.dictD) s (dictReadWidth_le _) hin
    rw [decRead_of_code hne hfits, hread]
    exact ⟨c, rfl, hbits⟩

/-- Settles O35, by what DEC_EXPAND does on the decompressor's registers (`expandDec_spec`), the only ones it writes. -/
theorem decExpandFillsStack : Obligations.DecExpandFillsStack := by
  intro s bs out hexp hout
  obtain ⟨hfits, hfull⟩ := expandDec_spec s.dictD s.ports.kind s.ports.xcode s.dec bs out hexp hout
  rw [exec_decExpand]
  refine ⟨fun hlen => ?_, fun hlen => ?_⟩
  · obtain ⟨_, rfl, hframe, hstack, hfirst⟩ := hfits hlen
    exact ⟨_, rfl, congrArg s.setDec hframe, hstack, hfirst⟩
  · obtain ⟨_, rfl, hframe, hstack⟩ := hfull hlen
    exact ⟨_, rfl, congrArg s.setDec hframe, hstack⟩

/-- Settles O38, by `decPop_eq`. -/
theorem decPopEmptiesStack : Obligations.DecPopEmptiesStack := by
  intro s hroom hidx
  obtain ⟨m, hpop, hread⟩ := decPop_eq hroom hidx
  rw [exec_decPop, hpop]
  exact ⟨_, rfl, rfl, hread⟩

/-- Settles O31: the registers as DEC_START sets them; the budget fits its 35-bit cursor. -/
theorem decStartInitialises : Obligations.DecStartInitialises := by
  intro s
  have hbudget : (BitVec.ofNat 35 (8 * s.hdr.cs.toNat)).toNat = 8 * s.hdr.cs.toNat := by
    rw [BitVec.toNat_ofNat, Nat.mod_eq_of_lt (by have := s.hdr.cs.isLt; omega)]
  exact ⟨_, exec_decStart s, rfl, rfl, rfl, rfl, hbudget, rfl, rfl, rfl, rfl⟩

/-- Settles O33: a code that is no literal, and a literal, whose byte is the only one written. -/
theorem decFirstTakesLiteral : Obligations.DecFirstTakesLiteral := by
  intro s
  rw [exec_decFirst]
  refine ⟨fun hcode => ?_, fun hlit hroom => ?_⟩
  · rw [decFirst_of_not_literal hcode]
    rfl
  · rw [decFirst_of_literal hlit hroom]
    refine ⟨_, rfl, rfl, fun a => ?_⟩
    simp only [dstByte, State.setDec_dst, State.setDst_dst, Memory.read_write, eq_comm]

/-- Settles O34: one kind per case. -/
theorem decClassifyKinds : Obligations.DecClassifyKinds := by
  intro s
  rw [exec_decClassify, decClassify]
  refine ⟨fun hself => ?_, fun hself hgrow habove => ?_, fun hself hdef => ?_⟩
  · rw [classify_self hself]
    rfl
  · rw [classify_undefined hself hgrow habove]
    rfl
  · rw [classify_direct hself hdef]
    rfl

/-- Settles O36: the sequencer makes the room check after DEC_EXPAND and goes by its verdict. -/
theorem roomCheckBeforeInsert : Obligations.RoomCheckBeforeInsert := by
  intro s hseq hstate
  rw [sequenceNext_decExpand hseq, decExpandNext, if_neg hstate]
  refine ⟨fun hover => ?_, fun hroom => ?_⟩
  · rw [roomCheck_of_overflow hover]
    rfl
  · rw [roomCheck_of_room hroom]
    exact if_neg hstate

/-- Settles O37: DEC_INSERT is the insertion and the register writes the statement names. -/
theorem decInsertMirrorsCompressor : Obligations.DecInsertMirrorsCompressor :=
  exec_decInsert

/-- Settles O39, by the two outcomes. -/
theorem decEndDecides : Obligations.DecEndDecides := by
  intro s
  rw [exec_decEnd]
  refine ⟨fun hdone hfull => ?_, fun hnot => ?_⟩
  · rw [decOutcome_ok hdone hfull]
    rfl
  · rw [decOutcome_framing hnot]
    rfl

end Sys2Proof.Machine
end

section
/-! PROOFS. Container (45_container R230 to R256): the unit's operations under their own codes (O40 to O44), the start
and the end of a command (O7, O11), what COMPRESS gives (O45, O46, O48), how DECOMPRESS ends (O49, O51), and the
round trip (O52, O53). -/

namespace Sys2Proof.Machine

open Sys2Proof Sys2Proof.Safety

/-! ### The unit's codes run its operations, and the host commands' codes the commands -/

theorem exec_contWriteHeader (s : State) : exec .contWriteHeader s = toOutcome (contWriteHeader s) := rfl

theorem exec_contStored (s : State) : exec .contStored s = toOutcome (contStored s) := rfl

theorem exec_contParseHeader (s : State) : exec .contParseHeader s = toOutcome (contParseHeader s) := rfl

theorem exec_contValidate (s : State) : exec .contValidate s = toOutcome (contValidate s) := rfl

theorem exec_contStoredCopy (s : State) : exec .contStoredCopy s = toOutcome (contStoredCopy s) := rfl

theorem exec_compress (s : State) : exec .compress s = toOutcome (compress s) := rfl

theorem exec_decompress (s : State) : exec .decompress s = toOutcome (decompress s) := rfl

/-! ### CONT_VALIDATE (R233) -/

/-- CONT_VALIDATE parses the header unless check 1 or 2 refuses. -/
theorem contValidate_eq (s : State) :
    contValidate s = .ok (setResult (validateResult s)
      (s.setHdr (if s.par.srcCap < s.srcLen.toNat ∨ s.srcLen.toNat < 17 then s.hdr else headerOf s))) := by
  rw [contValidate, validateResult]
  by_cases hcap : s.par.srcCap < s.srcLen.toNat
  · rw [if_pos hcap, if_pos hcap, if_pos (.inl hcap)]
    rfl
  · rw [if_neg hcap, if_neg hcap]
    by_cases hlen : s.srcLen.toNat < 17
    · rw [if_pos (show _ < Config.headerSize from hlen), if_pos (show _ < Config.headerSize from hlen),
        if_pos (.inr hlen)]
      rfl
    · rw [if_neg (show ¬_ < Config.headerSize from hlen), if_neg (show ¬_ < Config.headerSize from hlen),
        if_neg (not_or.2 ⟨hcap, hlen⟩), contParseHeader_eq s (by unfold srcSize; omega), Res.ok_bind]
      rfl

/-- The checks on the container's own bytes. After check 5 the size is the length of SRC, so that taking the header off
it, as check 6 does, is exact. -/
theorem validateResult_eq (s : State) {L cs es ty : Nat} (hL : L = s.srcLen.toNat)
    (hcs : cs = word32At (srcByte s) 0) (hes : es = word32At (srcByte s) 8) (hty : ty = (srcByte s 16).toNat) :
    validateResult s
      = if s.par.srcCap < L then .resource
        else if L < 17 then .framing
        else if ty ≠ 1 ∧ ty ≠ 2 ∧ ty ≠ 3 then .malformed
        else if s.par.expandedSizeCeiling ≤ es then .malformed
        else if cs ≠ L then .framing
        else if ty = 1 ∧ cs ≠ es + 17 then .framing
        else if s.par.dstCap < es then .resource
        else .ok := by
  have ecs : (headerOf s).cs.toNat = cs := (toNat_word32At _ _).trans hcs.symm
  have ees : (headerOf s).es.toNat = es := (toNat_word32At _ _).trans hes.symm
  have etag : ∀ k : Byte, (headerOf s).ctype = k ↔ ty = k.toNat := fun k => by
    rw [hty]
    exact BitVec.toNat_inj.symm
  simp only [validateResult, headerVerdict, State.setHdr_hdr, State.setHdr_par, Config.headerSize, ecs, ees, etag, ← hL,
    BitVec.reduceToNat, not_or]
  by_cases hlen : L < 17
  · simp only [if_pos hlen]
  by_cases hsize : cs = L
  · have hoff : cs - 17 ≠ es ↔ cs ≠ es + 17 := by omega
    simp only [hoff]
  · simp only [if_pos (show cs ≠ L from hsize)]

/-! ### A CMD write that starts a command (R235) -/

theorem isHostCommand_of_command {v : Byte} (h : v = 0x01 ∨ v = 0x02) : isHostCommand v = true := by
  rcases h with rfl | rfl <;> rfl

/-- The accepted command waits in the operation register, or at the grain of rules in CMD (log entry 6). -/
theorem cmdAccept_of_command {s : State} {v : Byte} (hb : s.busy = false) (hv : v = 0x01 ∨ v = 0x02) :
    cmdAccept v s = { s with
      cmd := v, status := statusOf true false .ok, op := if s.par.grain = .command then some v else s.op } := by
  simp only [cmdAccept, hb, isHostCommand_of_command hv, Bool.false_eq_true, if_false, if_true]
  cases s.par.grain <;> rfl

theorem fetch_of_command {s : State} {v : Byte} (hv : v = 0x01 ∨ v = 0x02) (ho : s.op = some v) :
    fetch s = .operation (if v = 0x01 then .compress else .decompress) := by
  unfold fetch
  rw [ho]
  rcases hv with rfl | rfl <;> rfl

theorem beginCommand_of_command {s : State} {v : Byte} (hv : v = 0x01 ∨ v = 0x02) (hs : s.seq = .idle)
    (hc : s.cmd = v) : beginCommand s = .next (if v = 0x01 then beginCompress s else beginDecompress s) := by
  rcases hv with rfl | rfl
  · exact beginCommand_compress hs hc
  · exact beginCommand_decompress hs hc

/-! ### The end of a command (R236) -/

/-- STATUS is its four fields (10_state R21). -/
theorem status_eq_fields (v : Byte) :
    v = statusResult v ++ statusReserved v ++ BitVec.ofBool (statusDone v) ++ BitVec.ofBool (statusBusy v) := by
  apply BitVec.eq_of_getLsbD_eq
  intro i hi
  simp only [BitVec.getLsbD_append, statusResult, statusReserved, statusDone, statusBusy, BitVec.getLsbD_extractLsb']
  interval_cases i <;> simp

theorem ended_status {r : ResultCode} {t : State} (h : ended r t) : t.status = statusOf false true r := by
  obtain ⟨hbusy, hdone, hreserved, hresult, _⟩ := h
  rw [status_eq_fields t.status, hresult, hreserved, show statusDone t.status = true from hdone,
    show statusBusy t.status = false from hbusy]
  rfl

/-! ### What COMPRESS gives (R240 to R244) -/

/-- The container of a coded attempt that finished: its codes, packed from the header on. -/
structure CodedForm (s t : State) : Prop where
  fits : 136 + totalBits (sourceCodes s) ≤ 8 * (s.srcLen.toNat + 17)
  len : t.resultLen.toNat = ceilDiv (136 + totalBits (sourceCodes s)) 8
  tag : dstByte t 16 = tagOfMinBits (modeOf (sourceBytes s))
  bits : ∀ k, 136 ≤ k → k < 8 * t.resultLen.toNat → bufBit .dst t k = packedBit (sourceCodes s) 136 k
  state : t.comp.state = .exhausted
  capBits : t.comp.capBits.toNat = 8 * (s.srcLen.toNat + 17)
  outBit : t.comp.outBit.toNat = 136 + totalBits (sourceCodes s)

/-- The container of a coded attempt that failed: the source. -/
structure StoredForm (s t : State) : Prop where
  overflow : ¬136 + totalBits (sourceCodes s) ≤ 8 * (s.srcLen.toNat + 17)
  len : t.resultLen.toNat = s.srcLen.toNat + 17
  tag : dstByte t 16 = 1
  payload : ∀ i, i < s.srcLen.toNat → dstByte t (17 + i) = srcByte s i
  state : t.comp.state = .failed

/-- COMPRESS with room: the end with OK, the frame, and a container in one of the two forms,
with its sizes in the header. -/
structure Compressed (s t : State) : Prop where
  ended : ended .ok t
  frame : CompressFrame s t
  len_ge : 17 ≤ t.resultLen.toNat
  len_le : t.resultLen.toNat ≤ s.srcLen.toNat + 17
  cs : word32At (dstByte t) 0 = t.resultLen.toNat
  csHi : word32At (dstByte t) 4 = 0
  es : word32At (dstByte t) 8 = s.srcLen.toNat
  esHi : word32At (dstByte t) 12 = 0
  form : CodedForm s t ∨ StoredForm s t

theorem not_compressRefused {s : State} (hlen : s.srcLen.toNat ≤ s.par.maxSrcLen)
    (hcap : s.srcLen.toNat ≤ s.par.srcCap) (hroom : s.srcLen.toNat + 21 ≤ s.par.dstCap) :
    compressRefused s ≠ true := by
  rw [Ne, compressRefused_iff]
  omega

theorem compress_of_refused {s : State} (h : compressRefused s = true) : compress s = .ok (raiseError .resource s) :=
  if_pos h

/-- COMPRESS that is not refused goes by whether its codes fit the capacity (`compress_coded`, `compress_stored`). -/
theorem compress_of_not_refused {s : State} (hmax : s.par.maxSrcLen ≤ 2 ^ 32 - 18) (hr : compressRefused s ≠ true) :
    ∃ t, compress s = .ok t ∧ Compressed s t := by
  rw [Ne, compressRefused_iff] at hr
  by_cases hfit : 136 + totalBits (sourceCodes s) ≤ 8 * (s.srcLen.toNat + 17)
  · obtain ⟨t, e, hend, hframe, hlen, hcs, hcsHi, hes, hesHi, htag, hbits, hstate, hcap, hout⟩ :=
      compress_coded hmax (by omega) (by omega) (by omega) hfit
    have hlen' := hlen
    unfold ceilDiv at hlen'
    refine ⟨t, e, ⟨hend, hframe, by omega, by omega, hcs, hcsHi, hes, hesHi,
      .inl ⟨hfit, hlen, htag, fun k hk hlt => ?_, hstate, hcap, hout⟩⟩⟩
    rw [hbits k hk, if_pos (by omega), Bool.false_or]
  · obtain ⟨t, e, hend, hframe, hlen, hcs, hcsHi, hes, hesHi, htag, hpayload, _, hstate⟩ :=
      compress_stored hmax (by omega) (by omega) (by omega) hfit
    exact ⟨t, e, ⟨hend, hframe, by omega, by omega, hcs.trans hlen.symm, hcsHi, hes, hesHi,
      .inr ⟨hfit, hlen, htag, hpayload, hstate⟩⟩⟩

/-- A next state of COMPRESS, when it is not refused. -/
theorem exec_compress_of_not_refused {s t : State} (hmax : s.par.maxSrcLen ≤ 2 ^ 32 - 18)
    (hr : compressRefused s ≠ true) (h : exec .compress s = .next t) : Compressed s t := by
  obtain ⟨u, e, hu⟩ := compress_of_not_refused hmax hr
  obtain rfl : t = u := Except.ok.inj ((compress_next hmax h).symm.trans e)
  exact hu

/-- A refused COMPRESS ends with RESOURCE. -/
theorem exec_compress_refused {s t : State} (hr : compressRefused s = true) (h : exec .compress s = .next t) :
    t = raiseError .resource s := by
  rw [exec_compress, compress_of_refused hr] at h
  exact (Host.Outcome.next.inj h).symm

theorem compressRefused_of_ended_ok {s t : State} (h : exec .compress s = .next t) (hok : ended .ok t) :
    compressRefused s ≠ true := by
  intro hr
  obtain rfl := exec_compress_refused hr h
  cases ended_unique hok (ended_cmdEnd .resource 0 s)

/-! ### The mode (R242) -/

theorem srcByte_lt_of_modeOf_seven {s : State} (h : modeOf (sourceBytes s) = 7) {i : Nat}
    (hi : i < s.srcLen.toNat) : (srcByte s i).toNat < 0x80 := by
  by_contra hhigh
  have h8 := (modeOf_eq_eight s).2 ⟨i, hi, Nat.le_of_not_lt hhigh⟩
  rw [h] at h8
  cases h8

theorem tagOfMinBits_ne_one (mb : BitVec 4) : tagOfMinBits mb ≠ 1 := by
  unfold tagOfMinBits
  split <;> decide

theorem CodedForm.tag_ne_one {s t : State} (hc : CodedForm s t) : dstByte t 16 ≠ 1 := by
  rw [hc.tag]
  exact tagOfMinBits_ne_one _

theorem minBitsOfTag_tagOfMinBits {mb : BitVec 4} (h : minBitsLegal mb) : minBitsOfTag (tagOfMinBits mb) = mb := by
  rcases h with rfl | rfl <;> rfl

theorem tagOfMinBits_coded (mb : BitVec 4) : tagOfMinBits mb = 2 ∨ tagOfMinBits mb = 3 := by
  unfold tagOfMinBits
  split
  · exact .inl rfl
  · exact .inr rfl

theorem Compressed.tag {s t : State} (h : Compressed s t) :
    dstByte t 16 = 1 ∨ dstByte t 16 = 2 ∨ dstByte t 16 = 3 := by
  rcases h.form with hc | hs
  · rw [hc.tag]
    exact .inr (tagOfMinBits_coded _)
  · exact .inl hs.tag

/-! ### The source decides (R244) -/

theorem Memory.readList_congr {m m' : List Host.Cell} {k a : Nat}
    (h : ∀ x, a ≤ x → x < a + k → Memory.read m x = Memory.read m' x) :
    Memory.readList m k a = Memory.readList m' k a := by
  induction k generalizing a with
  | zero => rfl
  | succ k ih =>
    rw [Memory.readList, Memory.readList, h a (Nat.le_refl a) (by omega), ih fun x hx hlt => h x (by omega) (by omega)]

/-- A byte of a word is its digit to the base 256. -/
theorem toNat_eq_word32At_digit (f : Nat → Byte) (a : Nat) {k : Nat} (hk : k < 4) :
    (f (a + k)).toNat = word32At f a / 256 ^ k % 256 := by
  have h0 := (f a).isLt
  have h1 := (f (a + 1)).isLt
  have h2 := (f (a + 2)).isLt
  have h3 := (f (a + 3)).isLt
  unfold word32At
  interval_cases k <;> simp only [Nat.add_zero, Nat.reducePow] <;> omega

theorem word32At_inj {f g : Nat → Byte} {a : Nat} (h : word32At f a = word32At g a) {x : Nat} (ha : a ≤ x)
    (hx : x < a + 4) : f x = g x := by
  obtain ⟨k, rfl⟩ := Nat.exists_eq_add_of_le ha
  have hk : k < 4 := by omega
  apply BitVec.eq_of_toNat_eq
  rw [toNat_eq_word32At_digit f a hk, toNat_eq_word32At_digit g a hk, h]

section
variable {s s' : State} (hlen : s.srcLen = s'.srcLen) (hsrc : ∀ i, i < s.srcLen.toNat → srcByte s i = srcByte s' i)
include hlen hsrc

theorem sourceBytes_congr : sourceBytes s = sourceBytes s' := by
  rw [sourceBytes, sourceBytes, ← hlen]
  exact Memory.readList_congr fun x _ hx => hsrc x (by omega)

/-- The codes are those of an initialised table, which holds nothing of DICT_C before. -/
theorem sourceCodes_congr : sourceCodes s = sourceCodes s' := by
  have hmode := modeOf_legal (sourceBytes s')
  rw [sourceCodes, sourceCodes, sourceBytes_congr hlen hsrc]
  exact codesOf_same (Dict.closed_dictInit hmode _) (Dict.same_dictInit hmode _ _)

end

/-- Containers of one length, source length and tag have one header. -/
theorem Compressed.header_eq {s s' t t' : State} (h : Compressed s t) (h' : Compressed s' t')
    (hn : s.srcLen = s'.srcLen) (hlen : t.resultLen = t'.resultLen) (htag : dstByte t 16 = dstByte t' 16)
    {a : Nat} (ha : a < 17) : dstByte t a = dstByte t' a := by
  have e0 : word32At (dstByte t) 0 = word32At (dstByte t') 0 := by rw [h.cs, h'.cs, hlen]
  have e4 : word32At (dstByte t) 4 = word32At (dstByte t') 4 := h.csHi.trans h'.csHi.symm
  have e8 : word32At (dstByte t) 8 = word32At (dstByte t') 8 := by rw [h.es, h'.es, hn]
  have e12 : word32At (dstByte t) 12 = word32At (dstByte t') 12 := h.esHi.trans h'.esHi.symm
  rcases (by omega : a < 4 ∨ 4 ≤ a ∧ a < 8 ∨ 8 ≤ a ∧ a < 12 ∨ 12 ≤ a ∧ a < 16 ∨ a = 16) with
    hx | ⟨hx, hy⟩ | ⟨hx, hy⟩ | ⟨hx, hy⟩ | rfl
  · exact word32At_inj e0 (Nat.zero_le a) (by omega)
  · exact word32At_inj e4 hx hy
  · exact word32At_inj e8 hx hy
  · exact word32At_inj e12 hx hy
  · exact htag

/-- Two runs on the same source give the same container: the header by its fields, the payload by the codes or by the
source itself. -/
theorem compress_container_congr {s s' t t' : State} (hlen : s.srcLen = s'.srcLen)
    (hsrc : ∀ i, i < s.srcLen.toNat → srcByte s i = srcByte s' i) (h : Compressed s t) (h' : Compressed s' t') :
    t.resultLen = t'.resultLen ∧ ∀ a, a < t.resultLen.toNat → dstByte t a = dstByte t' a := by
  have hcodes := sourceCodes_congr hlen hsrc
  rcases h.form with hc | hs <;> rcases h'.form with hc' | hs'
  · have hres : t.resultLen = t'.resultLen := BitVec.eq_of_toNat_eq (by rw [hc.len, hc'.len, hcodes])
    have htag : dstByte t 16 = dstByte t' 16 := by rw [hc.tag, hc'.tag, sourceBytes_congr hlen hsrc]
    refine ⟨hres, fun a ha => ?_⟩
    by_cases hlow : a < 17
    · exact h.header_eq h' hlen hres htag hlow
    · refine dstByte_ext fun j hj => ?_
      rw [hc.bits _ (by omega) (by omega), hc'.bits _ (by omega) (by rw [← hres]; omega), hcodes]
  · exact absurd (by rw [← hcodes, ← hlen]; exact hc.fits) hs'.overflow
  · exact absurd (by rw [hcodes, hlen]; exact hc'.fits) hs.overflow
  · have hres : t.resultLen = t'.resultLen := BitVec.eq_of_toNat_eq (by rw [hs.len, hs'.len, hlen])
    refine ⟨hres, fun a ha => ?_⟩
    by_cases hlow : a < 17
    · exact h.header_eq h' hlen hres (hs.tag.trans hs'.tag.symm) hlow
    · obtain ⟨i, rfl⟩ := Nat.exists_eq_add_of_le (Nat.le_of_not_lt hlow)
      have hi : i < s.srcLen.toNat := by have := hs.len; omega
      rw [hs.payload i hi, hs'.payload i (by rw [← hlen]; exact hi), hsrc i hi]

/-! ### How DECOMPRESS ends (R247, R249) -/

/-- DECOMPRESS of an accepted coded container ends as its loop does, whatever fuel that needed. -/
theorem decompress_of_loop {s b : State} {k : Nat} (ha : Accepted s) (ht : srcByte s 16 ≠ 1)
    (hl : ∀ fuel, decLoop (fuel + k) (decodeStart s) = .ok b) : decompress s = .ok (decodeFinish (decEnd b)) := by
  obtain ⟨c, hc, _⟩ := decompress_coded ha ht
  have hrun := (decompress_accepted ha).2 ht
  obtain ⟨b', hb', _⟩ := Res.bind_eq_ok.1 (hrun.symm.trans hc)
  obtain rfl : b' = b := Except.ok.inj ((decLoop_mono hb' k).symm.trans (hl _))
  rw [hrun, hb', Res.ok_bind]

/-- The end of a coded container's decoding, in the terms of its header. -/
theorem decompress_coded_ends {s b : State} (hb : Decoding (decodeStart s) b) :
    ∃ r, (r = .ok ∨ r = .framing) ∧ ended r (decodeFinish (decEnd b))
      ∧ (r = .ok → (decodeFinish (decEnd b)).resultLen = (decodeFinish (decEnd b)).hdr.es)
      ∧ (r ≠ .ok → (decodeFinish (decEnd b)).resultLen = 0) := by
  obtain ⟨r, hr, _, hend, hfin, _⟩ := decodeFinish_spec b
  have hes : b.dec.expSize = b.hdr.es := by
    rw [hb.size, hb.frame]
    rfl
  refine ⟨r, hr, hend, fun hok => ?_, fun hne => ?_⟩
  · rw [hfin, if_pos hok, hes]
  · rw [hfin, if_neg hne]

/-! ### COPYBACK (R100) and the round trip (R255, R256) -/

/-- SRC and SRC_LEN hold the container that COMPRESS left in DST. -/
structure CopiedBack (s t u : State) : Prop where
  par : u.par = s.par
  len : u.srcLen = t.resultLen
  bytes : ∀ x, x < t.resultLen.toNat → srcByte u x = dstByte t x
  cs : word32At (srcByte u) 0 = u.srcLen.toNat
  es : word32At (srcByte u) 8 = s.srcLen.toNat
  tag : srcByte u 16 = dstByte t 16

theorem Compressed.copiedBack {s t u : State} (h : Compressed s t) (hsrc : s.srcLen.toNat + 21 ≤ s.par.srcCap)
    (hdst : s.srcLen.toNat + 21 ≤ s.par.dstCap) (hu : hostLine .copyback t = .next u) : CopiedBack s t u := by
  have hlow := h.len_ge
  have hle := h.len_le
  have hpar : t.par = s.par := by rw [h.frame]
  have hcopy := hostCopyback_of_idle h.ended.1 (by rw [hpar]; omega) (by rw [hpar]; omega)
  have e := Host.Outcome.next.inj (hu.symm.trans hcopy)
  have hlen : u.srcLen = t.resultLen := by rw [e, State.setSrcLen_srcLen]
  have hbytes : ∀ x, x < t.resultLen.toNat → srcByte u x = dstByte t x := fun x hx => by
    rw [e]
    exact (Memory.read_copyFirst t.src t.dst _ x).trans (if_pos hx)
  exact {
    par := by rw [e]; exact hpar
    len := hlen
    bytes := hbytes
    cs := by rw [hlen, ← h.cs]; exact word32At_congr fun x _ hx => hbytes x (by omega)
    es := (word32At_congr fun x _ hx => hbytes x (by omega)).trans h.es
    tag := hbytes 16 (by omega) }

/-- CONT_VALIDATE accepts the container of a source below the ceiling. -/
theorem Compressed.accepted {s t u : State} (h : Compressed s t) (hu : CopiedBack s t u)
    (hsrc : s.srcLen.toNat + 21 ≤ s.par.srcCap) (hdst : s.srcLen.toNat + 21 ≤ s.par.dstCap)
    (hceil : s.srcLen.toNat < s.par.expandedSizeCeiling) : Accepted u := by
  have hlow := h.len_ge
  have hle := h.len_le
  exact {
    cap := by rw [hu.len, hu.par]; omega
    len := by rw [hu.len]; exact hlow
    tag := by rw [hu.tag]; exact h.tag
    ceiling := by rw [hu.es, hu.par]; exact hceil
    size := hu.cs
    stored := by
      rw [hu.tag, hu.len, hu.es]
      intro htag
      rcases h.form with hc | hs
      · exact absurd htag hc.tag_ne_one
      · exact hs.len
    room := by rw [hu.es, hu.par]; omega }

/-- A source at or above the ceiling gives a container that passes the checks up to the tag's and fails the next. -/
theorem Compressed.validateResult_of_ceiling {s t u : State} (h : Compressed s t) (hu : CopiedBack s t u)
    (hsrc : s.srcLen.toNat + 21 ≤ s.par.srcCap) (hceil : s.par.expandedSizeCeiling ≤ s.srcLen.toNat) :
    validateResult u = .malformed := by
  have hlow := h.len_ge
  have hle := h.len_le
  have htag : (srcByte u 16).toNat = 1 ∨ (srcByte u 16).toNat = 2 ∨ (srcByte u 16).toNat = 3 := by
    rcases h.tag with ht | ht | ht <;> rw [hu.tag, ht] <;> decide
  rw [validateResult_eq u rfl rfl rfl rfl, hu.len, hu.par, hu.es, if_neg (by omega), if_neg (by omega),
    if_neg (by omega), if_pos hceil]

/-- DECOMPRESS from `u` ends with OK and leaves the source of `s` in DST. -/
def GivesBack (s u : State) : Prop :=
  ∃ v, decompress u = .ok v ∧ ended .ok v ∧ v.resultLen = s.srcLen
    ∧ ∀ i, i < s.srcLen.toNat → dstByte v i = srcByte s i

theorem StoredForm.givesBack {s t u : State} (hs : StoredForm s t) (hu : CopiedBack s t u) (ha : Accepted u) :
    GivesBack s u := by
  obtain ⟨v, e, hend, hlen, _, hbytes, _⟩ := decompress_stored ha (hu.tag.trans hs.tag)
  refine ⟨v, e, hend, ?_, fun i hi => ?_⟩
  · apply BitVec.eq_of_toNat_eq
    rw [hlen, ← hu.es]
    exact toNat_word32At _ _
  · have hin : 17 + i < t.resultLen.toNat := by rw [hs.len]; omega
    rw [hbytes i (by rw [hu.es]; exact hi), hu.bytes _ hin, hs.payload i hi]

/-! ### Decoding a coded container -/

section
variable {s t u : State}

theorem CopiedBack.decodeStart_expSize (hu : CopiedBack s t u) :
    (decodeStart u).dec.expSize.toNat = s.srcLen.toNat := (toNat_word32At _ _).trans hu.es

theorem CopiedBack.decodeStart_budgetBits (hu : CopiedBack s t u) :
    (decodeStart u).dec.budgetBits.toNat = 8 * t.resultLen.toNat := by
  have hcs : (headerOf u).cs.toNat = t.resultLen.toNat :=
    (toNat_word32At _ _).trans (hu.cs.trans (congrArg BitVec.toNat hu.len))
  have hlt := t.resultLen.isLt
  show (BitVec.ofNat 35 (8 * (headerOf u).cs.toNat)).toNat = _
  rw [hcs, BitVec.toNat_ofNat, Nat.mod_eq_of_lt (by omega)]

variable (hc : CodedForm s t) (hu : CopiedBack s t u)
include hc hu

/-- The tag hands the mode on, so that DICT_D starts as DICT_C did. -/
theorem CodedForm.decodeStart_dictD :
    (decodeStart u).dictD = dictInit (modeOf (sourceBytes s)) u.dictD := by
  rw [← minBitsOfTag_tagOfMinBits (modeOf_legal (sourceBytes s)), ← hu.tag.trans hc.tag]
  rfl

theorem CodedForm.decodeStart_codes : codesOf (decodeStart u).dictD (sourceBytes s) = sourceCodes s := by
  have hmode := modeOf_legal (sourceBytes s)
  rw [hc.decodeStart_dictD hu]
  exact codesOf_same (Dict.closed_dictInit hmode _) (Dict.same_dictInit hmode _ _)

/-- The payload's bits, as DECOMPRESS finds them in SRC. -/
theorem CodedForm.srcBits {k : Nat} (hk : 136 ≤ k) (hlt : k < 136 + totalBits (sourceCodes s)) :
    bufBit .src u k = packedBit (sourceCodes s) 136 k := by
  have hlen := hc.len
  unfold ceilDiv at hlen
  rw [← hc.bits k hk (by omega)]
  simp only [bufBit, bufByte, hu.bytes (k / 8) (by omega)]

/-- The loop of DECOMPRESS takes the codes apart again (`decodeStart_loop`). -/
theorem CodedForm.decodes (ha : Accepted u) :
    ∃ k b, (∀ fuel, decLoop (fuel + k) (decodeStart u) = .ok b) ∧ Decoded (decodeStart u) b (sourceBytes s) := by
  have hlen := hc.len
  unfold ceilDiv at hlen
  have hin : (decodeStart u).dec.inBit.toNat = 136 := rfl
  have hdict := hc.decodeStart_dictD hu
  refine decodeStart_loop (decodeStart_decoding ha) rfl (modeOf_legal _) hdict ?_ ?_ ?_ ?_
  · rw [hdict]
    exact source_lt_base _ _
  · rw [length_sourceBytes, hu.decodeStart_expSize]
  · rw [hc.decodeStart_codes hu, hin]
    exact fun k hk => hc.srcBits hu (by omega) (by omega)
  · rw [hc.decodeStart_codes hu, hin, hu.decodeStart_budgetBits]
    omega

theorem CodedForm.givesBack (ha : Accepted u) : GivesBack s u := by
  obtain ⟨k, b, hloop, hdone, hfull, hsize, hbytes⟩ := hc.decodes hu ha
  have htag : srcByte u 16 ≠ 1 := by
    rw [hu.tag]
    exact hc.tag_ne_one
  have hout : (decodeStart u).dec.outIndex.toNat = 0 := rfl
  obtain ⟨r, _, hr, hend, hfin, hdst, _⟩ := decodeFinish_spec b
  obtain rfl : r = .ok := hr.2 ⟨hdone, hfull⟩
  refine ⟨_, decompress_of_loop ha htag hloop, hend, ?_, fun i hi => ?_⟩
  · rw [hfin, if_pos rfl, hsize]
    exact BitVec.eq_of_toNat_eq hu.decodeStart_expSize
  · rw [dstByte, hdst rfl, ← dstByte, hbytes i, hout, length_sourceBytes, if_pos (by omega)]
    exact getD_sourceBytes s hi

end

/-! ### The statements -/

/-- Settles O11: the end of a command, as `cmdEnd` writes it and `raiseError` calls it. -/
theorem commandEndWrites : Obligations.CommandEndWrites :=
  fun r len s => ⟨ended_cmdEnd r len s, rfl, rfl⟩

/-- Settles O40, by `writeHeader_eq`. -/
theorem contWriteHeaderBytes : Obligations.ContWriteHeaderBytes := by
  intro s hroom
  obtain ⟨m, e, hcs, hcsHi, hes, hesHi, htype, hrest, _⟩ :=
    writeHeader_eq _ _ s.hdr.ctype s hroom s.hdr.cs.isLt s.hdr.es.isLt
  rw [exec_contWriteHeader, contWriteHeader, e]
  exact ⟨_, rfl, rfl, hcs, hcsHi, hes, hesHi, htype, hrest⟩

/-- Settles O41, by `contStored_eq`. -/
theorem contStoredCopiesSource : Obligations.ContStoredCopiesSource := by
  rintro s n rfl hsrc hroom hlt
  obtain ⟨m, e, hcs, hcsHi, hes, hesHi, htype, hpayload, hrest, _⟩ := contStored_eq s hsrc hroom hlt
  rw [exec_contStored, e]
  exact ⟨_, rfl, rfl, hcs, hcsHi, hes, hesHi, htype, hpayload, hrest⟩

/-- Settles O42, by `contParseHeader_eq`: each word fits its register. -/
theorem contParseHeaderFields : Obligations.ContParseHeaderFields := by
  intro s hlen
  rw [exec_contParseHeader, contParseHeader_eq s hlen]
  exact ⟨headerOf s, rfl, toNat_word32At _ _, toNat_word32At _ _, toNat_word32At _ _, toNat_word32At _ _, rfl⟩

/-- Settles O43: what is written by `contValidate_eq`, and the checks by `validateResult_eq`. -/
theorem contValidateOrder : Obligations.ContValidateOrder := by
  intro s L cs es ty hL hcs hes hty
  rw [exec_contValidate, contValidate_eq, ← hL]
  refine ⟨_, rfl, rfl, fun hrefused => if_pos hrefused, validateResult_eq s hL hcs hes hty, fun hcap hlen => ?_⟩
  simp only [setResult, State.setPorts_hdr, State.setHdr_hdr, hcs, hes, hty]
  rw [if_neg (by omega)]
  exact ⟨toNat_word32At _ _, toNat_word32At _ _, toNat_word32At _ _, toNat_word32At _ _, rfl⟩

/-- Settles O44, by `contStoredCopy_eq`. -/
theorem contStoredCopyCopiesPayload : Obligations.ContStoredCopyCopiesPayload := by
  intro s hsrc hroom
  obtain ⟨m, e, hpayload, hrest, _⟩ := contStoredCopy_eq s hsrc hroom
  rw [exec_contStoredCopy, e]
  exact ⟨_, rfl, rfl, hpayload, hrest⟩

/-- Settles O7: what CMD_ACCEPT leaves, the fetch of the code that waits in the operation register, and the opening of
the command that waits in CMD. -/
theorem hostCommandAccepted : Obligations.HostCommandAccepted := by
  intro s v hb hv
  obtain ⟨hbusy, hdone, hresult⟩ : statusBusy (statusOf true false .ok) = true
      ∧ statusDone (statusOf true false .ok) = false ∧ statusResult (statusOf true false .ok) = 0 := by decide
  rw [hostLine_cmd, cmdAccept_of_command hb hv]
  refine ⟨_, rfl, rfl, hbusy, hdone, hresult, fun hs => engineBusy_of_busy hs hbusy, rfl,
    fun hg => ?_, fun hg ho hs => ?_⟩
  · exact fetch_of_command hv (if_pos hg)
  · have hne : s.par.grain ≠ .command := by rw [hg]; decide
    rw [engineStep_of_no_op ((if_neg hne).trans ho)]
    exact beginCommand_of_command hv hs rfl

/-- Settles O45: refused, or one of the two forms of container (`compress_of_not_refused`); only the stored form has tag
1, and only codes that leave at most 7 bits of the capacity take all its bytes. -/
theorem compressAlwaysCompletes : Obligations.CompressAlwaysCompletes := by
  rintro s n rfl hmax
  refine ⟨fun hr => ?_, fun hlen hcap hroom => ?_⟩
  · rw [exec_compress, compress_of_refused ((compressRefused_iff s).2 hr)]
    exact ⟨_, rfl, ended_cmdEnd _ _ _, rfl⟩
  · obtain ⟨t, e, h⟩ := compress_of_not_refused hmax (not_compressRefused hlen hcap hroom)
    rw [exec_compress, e]
    refine ⟨t, rfl, h.ended, h.len_ge, h.len_le, h.cs, h.csHi, h.es, h.esHi, ?_, h.frame⟩
    rcases h.form with hc | hs
    · have hfits := hc.fits
      rw [or_iff_right hc.tag_ne_one, hc.len, hc.capBits, hc.outBit, ceilDiv]
      omega
    · exact iff_of_true hs.len (.inl hs.tag)

/-- Settles O46: the stored form has tag 1, and the coded one the tag of its mode, which the high bits decide. -/
theorem compressModeAndStoredForm : Obligations.CompressModeAndStoredForm := by
  intro s t hmax he hok
  have h := exec_compress_of_not_refused hmax (compressRefused_of_ended_ok he hok) he
  rcases h.form with hc | hs
  · have htag := hc.tag
    rcases modeOf_legal (sourceBytes s) with hmode | hmode <;> rw [hmode] at htag
    · exact .inr (.inl ⟨htag, hc.state, fun i => srcByte_lt_of_modeOf_seven hmode⟩)
    · exact .inr (.inr ⟨htag, hc.state, (modeOf_eq_eight s).1 hmode⟩)
  · exact .inl ⟨hs.tag, hs.state, hs.payload⟩

/-- Settles O48: the two runs are refused together, or give one container (`compress_container_congr`). -/
theorem compressDependsOnSourceOnly : Obligations.CompressDependsOnSourceOnly := by
  intro s s' t t' hpar hmax hlen hsrc he he'
  have hsame : compressRefused s = compressRefused s' := by rw [compressRefused, compressRefused, hpar, hlen]
  by_cases hr : compressRefused s = true
  · obtain rfl := exec_compress_refused hr he
    obtain rfl := exec_compress_refused (hsame ▸ hr) he'
    exact ⟨rfl, rfl, fun a ha => absurd ha (Nat.not_lt_zero a)⟩
  · have h := exec_compress_of_not_refused hmax hr he
    have h' := exec_compress_of_not_refused (hpar ▸ hmax) (hsame ▸ hr) he'
    obtain ⟨hres, hbytes⟩ := compress_container_congr hlen hsrc h h'
    exact ⟨(ended_status h.ended).trans (ended_status h'.ended).symm, hres, hbytes⟩

/-- Settles O49: a refused header, a stored container, and a coded one, whose loop ends (`decompress_coded`). -/
theorem decompressAlwaysEnds : Obligations.DecompressAlwaysEnds := by
  intro s
  rw [exec_decompress]
  by_cases ha : Accepted s
  · by_cases htag : srcByte s 16 = 1
    · obtain ⟨t, e, hend, hlen, hhdr, _⟩ := decompress_stored ha htag
      exact ⟨t, .ok, toOutcome_of_ok e, hend, .inl rfl, fun _ => by rw [hlen, hhdr], fun hne => absurd rfl hne⟩
    · obtain ⟨b, e, hb⟩ := decompress_coded ha htag
      obtain ⟨r, hr, hend, hlen⟩ := decompress_coded_ends hb
      exact ⟨_, r, toOutcome_of_ok e, hend, hr.imp_right fun h => .inr (.inl h), hlen⟩
  · obtain ⟨h, r, hr, e⟩ := decompress_refused ha
    refine ⟨_, r, toOutcome_of_ok e, ended_cmdEnd _ _ _, .inr hr, fun hok => ?_, fun _ => ite_self _⟩
    rw [hok] at hr
    rcases hr with h | h | h <;> cases h

/-- Settles O51: CONT_VALIDATE accepts the container, and `decompress_stored` copies its payload. -/
theorem decompressStoredGivesPayload : Obligations.DecompressStoredGivesPayload := by
  intro s n hlen hcap hroom hceil htag hcs hes
  have ha : Accepted s := {
    cap := by omega, len := by omega, tag := .inl htag, ceiling := by omega, size := by omega
    stored := fun _ => by omega, room := by omega }
  obtain ⟨t, e, hend, hres, _, hbytes, _⟩ := decompress_stored ha htag
  rw [exec_decompress, e]
  refine ⟨t, rfl, hend, ?_, fun i hi => hbytes i (by omega)⟩
  rw [hres, ← hes]
  exact toNat_word32At _ _

/-- Settles O52: COMPRESS gives one of the two forms of container, and each goes back to the source. -/
theorem roundTrip : Obligations.RoundTrip := by
  intro s t u hmax hlen hceil hsrc hdst he hu
  have h := exec_compress_of_not_refused hmax (not_compressRefused hlen (by omega) hdst) he
  have hback := h.copiedBack hsrc hdst hu
  have ha := h.accepted hback hsrc hdst hceil
  obtain ⟨v, e, hv⟩ : GivesBack s u := h.form.elim (·.givesBack hback ha) (·.givesBack hback ha)
  exact ⟨v, toOutcome_of_ok e, hv⟩

/-- Settles O53: the container's ceiling check fails before its size and room are looked at. -/
theorem roundTripFailsAboveCeiling : Obligations.RoundTripFailsAboveCeiling := by
  intro s t u hmax hlen hceil hsrc hdst he hu
  have h := exec_compress_of_not_refused hmax (not_compressRefused hlen (by omega) hdst) he
  have hresult := h.validateResult_of_ceiling (h.copiedBack hsrc hdst hu) hsrc hceil
  obtain ⟨v, _, e, _⟩ := decompressAlwaysEnds u
  have hval := contValidate_eq u
  rw [hresult] at hval
  obtain ⟨hend, _, hzero⟩ := decompress_of_validate_refused (decompress_next e) hval
    (show ResultCode.malformed ≠ .ok by decide)
  exact ⟨h.ended, v, e, hend, hzero⟩

end Sys2Proof.Machine
end

section
/-! PROOFS. Exceptions (60_exceptions R261, R277, R278; 20_memory R71): who moves next (O5), and how an operation stops
and what a stuck engine does (O56). -/

namespace Sys2Proof.Machine

open Sys2Proof Sys2Proof.Safety

/-! ### Who moves next (R277, R278) -/

theorem engineBusy_of_idle {s : State} (ho : s.op = none) (hb : s.busy = false) : engineBusy s = false := by
  simp [engineBusy, ho, hb]

theorem engineBusy_of_stuck {s : State} (hs : s.stuck ≠ none) : engineBusy s = false := by
  simp [engineBusy, hs]

theorem step_of_no_lines {s : State} (hb : engineBusy s = false) (hh : s.host = []) : step s = .next s := by
  have hm : mover s = .nobody := by simp [mover, hh, hb]
  rw [step, hm]

theorem step_of_engine_rests {s : State} {l : HostLine} {rest : List HostLine} (hb : engineBusy s = false)
    (hh : s.host = l :: rest) : step s = hostLine l (s.setHost rest) := by
  have hm : mover s = .host l (s.setHost rest) := by simp [mover, hh, hb]
  rw [step, hm]

/-- Where both could move, the free value lets the host move first, and the turn is counted (log entry 7). -/
theorem step_of_host_first {s : State} {l : HostLine} {rest : List HostLine} (hb : engineBusy s = true)
    (hh : s.host = l :: rest) (hl : l ≠ .wait) (hf : Config.hostFirst s.turn = true) :
    step s = hostLine l ((s.setHost rest).setTurn (s.turn + 1)) := by
  have hm : mover s = .host l ((s.setHost rest).setTurn (s.turn + 1)) := by simp [mover, hh, hb, hl, hf]
  rw [step, hm]

/-! ### How an operation stops (R261) -/

theorem exec_ne_refused (i : Instr) (s : State) (q : Refusal) : exec i s ≠ .refused q := by
  obtain ⟨r, he, _⟩ := exec_ends i s
  rw [he]
  exact toOutcome_ne_refused r q

theorem exec_fault {i : Instr} {s : State} {f : Fault} (h : exec i s = .fault f) :
    f = .srcReadOnly ∨ (f = .loopBound ∧ isCommand i = true) := by
  obtain ⟨r, he, hends, hunit⟩ := exec_ends i s
  rw [he, toOutcome_eq_fault] at h
  cases hi : isCommand i with
  | false => exact .inl (hunit hi f h)
  | true => exact (hends.fault f h).imp_right fun hf => ⟨hf, rfl⟩

/-- Only getting stuck changes the field `stuck`, and a host command may have moved SEQ before. -/
theorem exec_gotStuck {i : Instr} {s t : State} (h : exec i s = .next t) (hne : t.stuck ≠ s.stuck) :
    ∃ q, GotStuck (s.setSeq q) t := by
  obtain ⟨r, he, hends, _⟩ := exec_ends i s
  rw [he, toOutcome_eq_next] at h
  rcases h with hok | hstuck
  · exact absurd (hends.ok t hok).2 hne
  · exact hends.stuck t hstuck

/-- Getting stuck leaves every register the host can see, and SRC. -/
theorem GotStuck.hostRegisters {s t : State} (h : GotStuck s t) :
    t.stuck ≠ none ∧ t.status = s.status ∧ t.resultLen = s.resultLen ∧ t.cmd = s.cmd ∧ t.srcLen = s.srcLen
      ∧ t.src = s.src := by
  obtain ⟨u, r, hk, rfl⟩ := h
  rw [hk.frame]
  exact ⟨Option.some_ne_none r, rfl, rfl, rfl, rfl, rfl⟩

/-! ### The host's lines while BUSY = 1 -/

/-- Only the lines the host has left and what its last read returned may differ. -/
def BusFrame (s t : State) : Prop := t = { s with host := t.host, busData := t.busData }

theorem BusFrame.refl (s : State) : BusFrame s s := rfl

theorem BusFrame.of_setHost {s t : State} {ls : List HostLine} (h : BusFrame (s.setHost ls) t) : BusFrame s t := h

theorem hostRead_busFrame {off : Nat} {s t : State} (h : hostRead off s = .next t) : BusFrame s t := by
  unfold hostRead at h
  split at h
  · cases h
  · cases h
    rfl

theorem hostWait_busFrame {s t : State} (h : hostWait s = .next t) : BusFrame s t := by
  unfold hostWait at h
  split at h <;> (cases h; rfl)

section

variable {s t : State} (hb : s.busy = true)
include hb

theorem cmdAccept_of_busy (v : Byte) : cmdAccept v s = s := if_pos hb

theorem hostSrc_of_busy (a : Nat) (bs : List Byte) : hostSrc a bs s = .refused .hostBusyDuty := if_pos hb

theorem hostCopyback_of_busy : hostCopyback s = .refused .hostBusyDuty := if_pos hb

theorem hostReadDst_of_busy (a : Nat) : hostReadDst a s = .refused .hostBusyDuty := if_pos hb

theorem busWrite_of_busy {off : Nat} {v : Word32} (h : busWrite off v s = .next t) : t = s := by
  unfold busWrite at h
  split at h
  · cases h
    exact cmdAccept_of_busy hb _
  · rw [if_pos hb] at h
    cases h
  · cases h
    rfl

theorem busWrite_busFrame {off : Nat} {v : Word32} (h : busWrite off v s = .next t) : BusFrame s t := by
  rw [busWrite_of_busy hb h]
  exact BusFrame.refl s

/-- While BUSY = 1 a line other than RESET is refused, ignored, or a read. -/
theorem hostLine_busFrame {l : HostLine} (hl : l ≠ .reset) (h : hostLine l s = .next t) : BusFrame s t := by
  cases l with
  | src a bs =>
    rw [hostLine, hostSrc_of_busy hb] at h
    cases h
  | len n => exact busWrite_busFrame hb (off := 0x8) h
  | cmd v => exact busWrite_busFrame hb (off := 0x0) h
  | wait => exact hostWait_busFrame h
  | copyback =>
    rw [hostLine, hostCopyback_of_busy hb] at h
    cases h
  | comment =>
    cases h
    exact BusFrame.refl s
  | write off v => exact busWrite_busFrame hb h
  | read off => exact hostRead_busFrame h
  | readDst a =>
    rw [hostLine, hostReadDst_of_busy hb] at h
    cases h
  | reset => exact absurd rfl hl

end

/-! ### A stuck engine (R278) -/

theorem step_stuck_reset {s t : State} (hs : s.stuck ≠ none) (h : step s = .next t)
    (hr : s.host.head? = some .reset) : t.stuck = none ∧ t.status = 0x00 := by
  obtain ⟨rest, hh⟩ := List.head?_eq_some_iff.1 hr
  rw [step_of_engine_rests (engineBusy_of_stuck hs) hh] at h
  cases h
  exact ⟨rfl, rfl⟩

theorem step_stuck_busFrame {s t : State} (hs : s.stuck ≠ none) (hb : s.busy = true) (h : step s = .next t)
    (hr : s.host.head? ≠ some .reset) : BusFrame s t := by
  have he : engineBusy s = false := engineBusy_of_stuck hs
  cases hh : s.host with
  | nil =>
    rw [step_of_no_lines he hh] at h
    cases h
    exact BusFrame.refl s
  | cons l rest =>
    have hl : l ≠ .reset := by simpa [hh] using hr
    rw [step_of_engine_rests he hh] at h
    exact (hostLine_busFrame (s := s.setHost rest) hb hl h).of_setHost

/-! ### The statements -/

/-- Settles O56: an operation changes `stuck` only by getting stuck (`exec_gotStuck`), which leaves the registers the
host can see. A stuck engine leaves every move to the host, and while BUSY = 1 a line other than RESET stays in the
frame of the bus (`hostLine_busFrame`). -/
theorem stuckEngineWaitsForReset : Obligations.StuckEngineWaitsForReset := by
  refine ⟨fun i s => ⟨exec_ne_refused i s, fun f => exec_fault, fun t h hne => ?_⟩, fun s t hs h => ?_⟩
  · obtain ⟨q, hq⟩ := exec_gotStuck h hne
    exact hq.hostRegisters
  · exact ⟨step_stuck_reset hs h, fun hr hb => step_stuck_busFrame hs hb h hr⟩

/-- Settles O5, by who moves in each case of the engine and of the host's next line. -/
theorem whoMovesNext : Obligations.WhoMovesNext := by
  intro s
  refine ⟨fun hrest hh => ?_, engineBusy_of_stuck, fun hs hwork => ?_, fun l rest hh hb => step_of_engine_rests hb hh,
    fun l rest hh hl hb => ⟨step_of_host_first hb hh hl, fun hf => ?_⟩⟩
  · rcases hrest with ⟨ho, hb⟩ | hs
    · exact step_of_no_lines (engineBusy_of_idle ho hb) hh
    · exact step_of_no_lines (engineBusy_of_stuck hs) hh
  · rcases hwork with ho | hb
    · obtain ⟨w, hw⟩ := Option.ne_none_iff_exists'.1 ho
      exact engineBusy_of_op hs hw
    · exact engineBusy_of_busy hs hb
  · exact step_of_engine_moves (mover_of_host_yields hb hh hl hf)

end Sys2Proof.Machine
end

section
/-! PROOFS. Reset and hazards (70_reset_and_hazards R290, R302): what reset leaves (O1), that the three invariants hold
there (O60), and the host's hands-off duty while BUSY = 1 (O9). -/

namespace Sys2Proof.Machine

open Sys2Proof Sys2Proof.Safety

/-! ### The reset input (R290) -/

theorem srcByte_resetInput {s : State} {a : Nat} (ha : a < s.par.srcCap) :
    srcByte (resetInput s) a = Config.freeByte (s.free + a) := by
  have h := Memory.read_writeFree s.par.srcCap 0 s.free s.src a
  rwa [if_pos ⟨Nat.zero_le a, by omega⟩] at h

theorem dstByte_resetInput {s : State} {a : Nat} (ha : a < s.par.dstCap) :
    dstByte (resetInput s) a = Config.freeByte (s.free + s.par.srcCap + a) := by
  have h := Memory.read_writeFree s.par.dstCap 0 (s.free + s.par.srcCap) s.dst a
  rwa [if_pos ⟨Nat.zero_le a, by omega⟩] at h

/-- Reset empties the operation register and clears BUSY, so no command is left to run. -/
theorem engineBusy_resetInput (s : State) : engineBusy (resetInput s) = false :=
  engineBusy_of_idle (s := resetInput s) rfl (by show statusBusy 0x00 = false; decide)

/-! ### The invariants at reset -/

theorem memFits_nil (cap : Nat) : memFits cap [] := rfl

theorem Dict.wf_reset : Dict.reset.wf := ⟨rfl, rfl, rfl, rfl⟩

/-- MIN_BITS is 0 at reset, so the dictionary does not count as initialised (log entry 1). -/
theorem Dict.legal_reset : Dict.reset.legal := by
  intro h
  rcases h with h | h <;> exact absurd (show (0 : BitVec 4) = _ from h) (by decide)

theorem canonical_reset : canonical State.reset = true :=
  (canonical_iff _).2 ⟨memFits_nil _, memFits_nil _, Dict.wf_reset, Dict.wf_reset, rfl⟩

/-- 0x00 is STATUS with BUSY 0, DONE 0 and RESULT OK. -/
theorem statusLegal_reset : statusLegal State.reset.status := statusLegal_statusOf false false .ok (by simp)

theorem widthsLegal_reset : widthsLegal State.reset :=
  (widthsLegal_iff _).2 ⟨.inl rfl, Dict.legal_reset, Dict.legal_reset⟩

/-! ### The host's duty while BUSY = 1 (R302) -/

section

variable {s : State} (hb : s.busy = true)
include hb

theorem busWrite_srcLen_of_busy (v : Word32) : busWrite 0x8 v s = .refused .hostBusyDuty := if_pos hb

theorem hostRead_resultLen_of_busy : hostRead 0xC s = .refused .hostBusyDuty := if_pos ⟨hb, rfl⟩

theorem hostLine_cmd_of_busy (v : Byte) : hostLine (.cmd v) s = .next s := by
  rw [hostLine_cmd, cmdAccept_of_busy hb]

end

/-- STATUS may be read at any time (R26). -/
theorem hostRead_status (s : State) : hostRead 0x4 s = .next (s.setBusData (s.status.setWidth 32)) :=
  hostRead_of_allowed (by simp)

/-! ### The statements -/

/-- Settles O1: each register has its value at reset by definition, and a byte of SRC or DST is the free byte drawn for
its address. -/
theorem resetLeavesIdleBlock : Obligations.ResetLeavesIdleBlock := by
  refine ⟨⟨rfl, rfl, rfl, rfl, rfl, rfl⟩, fun s => ⟨resetInput s, rfl, ?_⟩⟩
  exact ⟨rfl, rfl, rfl, rfl, rfl, engineBusy_resetInput s, rfl, rfl, rfl, fun _ => srcByte_resetInput,
    fun _ => dstByte_resetInput⟩

/-- Settles O9, line by line. -/
theorem handsOffWhileBusy : Obligations.HandsOffWhileBusy :=
  fun s hb => ⟨hostSrc_of_busy hb, busWrite_srcLen_of_busy hb, busWrite_srcLen_of_busy hb,
    hostRead_resultLen_of_busy hb, hostReadDst_of_busy hb, hostCopyback_of_busy hb, hostLine_cmd_of_busy hb,
    hostRead_status s⟩

/-- Settles O60, invariant by invariant. -/
theorem invariantsHoldAtReset : Obligations.InvariantsHoldAtReset :=
  ⟨canonical_reset, statusLegal_reset, widthsLegal_reset⟩

end Sys2Proof.Machine
end
